-- ==== Sys2Proof/Word.lean ====
section
/-! DEFINITION. The CY16's data units (20_memory.md R51) and their plainest arithmetic. -/

namespace Sys2Proof

/-- A byte: 8 bits (R51). -/
abbrev Byte := BitVec 8

/-- A word: 16 bits, the width of every register, operand and result (R6, R51). -/
abbrev Word := BitVec 16

/-- Bit 0 of an address is 1: the address is odd (R57). -/
def isOdd (a : Word) : Bool := a.getLsbD 0

end Sys2Proof
end

