-- ==== Sys2Proof/Config.lean ====
section
/-! DEFINITION. What an implementation or platform of the CY16 fixes (00_scope.md R4), and the free values. An
`opaque` constant has no body: nothing can be proved of its value, so a claim holds for every platform. The memory map is
a parameter too: plain data that the state carries (field `memMap`), so that a claim over states holds for every map. The
parameters that the spec gives a default (`byte_order`, `rel_base`, what R62 fixes of `MemMap`) are plain definitions in
Sys2Proof/Decode.lean and Sys2Proof/Machine/Params.lean. -/

namespace Sys2Proof

/-- The values of parameter `byte_order` (R4, D1). -/
inductive ByteOrder where
  | little
  | big
deriving DecidableEq, Repr

/-- The values of parameter `rel_base` (R4, D11): the address a relative jump's offset is added to. -/
inductive RelBase where
  /-- the address of the next instruction -/
  | next
  /-- the address of the jump's own word -/
  | self
deriving DecidableEq, Repr

/-- The classes of parameter `MemMap` (20_memory.md R62, 90_conflicts.md C17). -/
inductive Region where
  | ram
  | rom
  | flags
  | regbank
  | device
  | unmapped
deriving DecidableEq, Repr

/-- The classes an address that R62 does not fix may have: the flags and REGBANK registers lie at fixed addresses. -/
inductive OpenRegion where
  | ram
  | rom
  | device
  | unmapped
deriving DecidableEq, Repr

/-- Addresses `first` to `last`, both included, with their class. -/
structure MapArea where
  first : Word
  last : Word
  cls : OpenRegion
deriving DecidableEq, Repr

/-- Parameter `MemMap` where the spec leaves it OPEN (R62, D30): the class of an address is that of the first area that
holds it, and an address in no area is unmapped. Consulted only for addresses R62 does not fix; every classification of
them, byte by byte, is some such list (log 4). -/
abbrev MemMap := List MapArea

/-- Free value: the word a device register answers a word read with (D33, U19), fresh for every draw (log 10). -/
opaque Config.deviceWord (draw : Nat) (a : Word) : Word

/-- Free value: the byte a device register answers a byte read with (D33, U19; log 10). -/
opaque Config.deviceByte (draw : Nat) (a : Word) : Byte

/-- Free value: what a read of the Interrupt Enable register returns while it holds `held` (R34, R61, U19; log 11).
Returning `held` is one of the platforms this covers. -/
opaque Config.intEnableRead (draw : Nat) (held : Word) : Word

/-- Free value: bits 4..0 of a read of REGBANK while its low bits hold `held` (R24, D26, U11; log 9). -/
opaque Config.regbankLow (draw : Nat) (held : BitVec 5) : BitVec 5

/-- Parameter `HWVEC` (60_exceptions.md R222): is the vector number one of the 48 hardware interrupts (log 12). -/
opaque Config.hwVector (h : Fin 64) : Bool

/-- Parameter `HWVEC`: the enable predicate of source `h` over the Interrupt Enable word (R222). The draw stands for
the device state it may also read (log 12). -/
opaque Config.irqEnabled (draw : Nat) (h : Fin 64) (intEnable : Word) : Bool

/-- Free choice at an instruction boundary: which interrupt, if any, the hardware is ready to take (R223, R227, U23).
Any acceptable one may be taken, or none yet (log 12). -/
opaque Config.irqChoice (draw : Nat) : Option (Fin 64)

/-- Parameter `sti_shadow` (R225, D22): true for the reading in which no interrupt is taken at the boundary right after
STI. Left opaque, so that a claim holds for both values (log 3). -/
opaque Config.stiShadow : Bool

end Sys2Proof
end

