-- ==== Sys2Proof/Syntax.lean ====
section
/-! DEFINITION. The CY16's instructions and operands as syntax: one constructor of `Instr` per row of
spec/opcode_table.json. Meaning is given in Sys2Proof/Machine alone. -/

namespace Sys2Proof

/-- The `b/w` bit of a memory operand field (30_encoding.md R84): '0' for word access, '1' for byte-wide access. -/
inductive Width where
  | word
  | byte
deriving DecidableEq, Repr

/-- The number of a general register R0..R15 (10_state.md R21). -/
abbrev RegNum := BitVec 4

/-- A decoded operand field with its extension word, if its mode has one (30_encoding.md R91). `r` is a register
number; `Operand.wf` says which registers a mode admits. -/
inductive Operand where
  /-- register mode, R0..R15 (R85) -/
  | reg (n : RegNum)
  /-- immediate mode, the extension word itself (R86) -/
  | imm (v : Word)
  /-- direct mode, the extension word is the address (R87) -/
  | direct (w : Width) (a : Word)
  /-- indirect mode through R8..R14 (R88) -/
  | indirect (w : Width) (r : RegNum)
  /-- "Indirect using R15", word only: push on a write, pop on a read (R88, 40_operands.md R127) -/
  | stack
  /-- indirect with auto increment through R8..R14 (R89) -/
  | autoInc (w : Width) (r : RegNum)
  /-- indirect with index, R8..R15 plus the extension word (R90) -/
  | indexed (w : Width) (r : RegNum) (off : Word)
deriving DecidableEq, Repr

/-- The fifteen conditions of PG Table 2-1 (42_program_control.md R171), code 1110 being "(not used)". -/
inductive Cond where
  | z | nz | c | nc | s | ns | o | no | a | be | g | ge | l | le
  /-- unconditional, code 1111 -/
  | always
deriving DecidableEq, Repr

/-- The instructions, one constructor per row of the opcode table. `src` and `dst` are the source and destination
operands, `t` the operand that gives a jump or call its target, `off` the 7-bit signed word offset, `v` the 7-bit
vector, `n` the 3-bit field whose value plus one is used (R93). -/
inductive Instr where
  -- dual operand, format D
  /-- MOV (R154) -/
  | mov (src dst : Operand)
  /-- ADD (R155) -/
  | add (src dst : Operand)
  /-- ADDC (R156) -/
  | addc (src dst : Operand)
  /-- SUB (R157) -/
  | sub (src dst : Operand)
  /-- SUBB (R158) -/
  | subb (src dst : Operand)
  /-- CMP (R159) -/
  | cmp (src dst : Operand)
  /-- AND (R160) -/
  | and (src dst : Operand)
  /-- TEST (R161) -/
  | test (src dst : Operand)
  /-- OR (R162) -/
  | or (src dst : Operand)
  /-- XOR (R163) -/
  | xor (src dst : Operand)
  -- jump relative, format J (R172)
  | jz (off : BitVec 7)
  | jnz (off : BitVec 7)
  | jc (off : BitVec 7)
  | jnc (off : BitVec 7)
  | js (off : BitVec 7)
  | jns (off : BitVec 7)
  | jo (off : BitVec 7)
  | jno (off : BitVec 7)
  | ja (off : BitVec 7)
  | jbe (off : BitVec 7)
  | jg (off : BitVec 7)
  | jge (off : BitVec 7)
  | jl (off : BitVec 7)
  | jle (off : BitVec 7)
  | jmp (off : BitVec 7)
  -- jump absolute, format JL (R173)
  | jzl (t : Operand)
  | jnzl (t : Operand)
  | jcl (t : Operand)
  | jncl (t : Operand)
  | jsl (t : Operand)
  | jnsl (t : Operand)
  | jol (t : Operand)
  | jnol (t : Operand)
  | jal (t : Operand)
  | jbel (t : Operand)
  | jgl (t : Operand)
  | jgel (t : Operand)
  | jll (t : Operand)
  | jlel (t : Operand)
  | jmpl (t : Operand)
  -- return, format R (R174)
  | rz
  | rnz
  | rc
  | rnc
  | rs
  | rns
  | ro
  | rno
  | ra
  | rbe
  | rg
  | rge
  | rl
  | rle
  | ret
  -- call, format C (R175)
  | cz (t : Operand)
  | cnz (t : Operand)
  | cc (t : Operand)
  | cnc (t : Operand)
  | cs (t : Operand)
  | cns (t : Operand)
  | co (t : Operand)
  | cno (t : Operand)
  | ca (t : Operand)
  | cbe (t : Operand)
  | cg (t : Operand)
  | cge (t : Operand)
  | cl (t : Operand)
  | cle (t : Operand)
  | call (t : Operand)
  -- software interrupt, format I
  /-- INT (R176) -/
  | int (v : BitVec 7)
  -- single operand, format S
  /-- SHR (R193) -/
  | shr (n : BitVec 3) (dst : Operand)
  /-- SHL (R194) -/
  | shl (n : BitVec 3) (dst : Operand)
  /-- ROR (R195) -/
  | ror (n : BitVec 3) (dst : Operand)
  /-- ROL (R196) -/
  | rol (n : BitVec 3) (dst : Operand)
  /-- ADDI (R197) -/
  | addi (n : BitVec 3) (dst : Operand)
  /-- SUBI (R198) -/
  | subi (n : BitVec 3) (dst : Operand)
  /-- NOT (R199) -/
  | not (dst : Operand)
  /-- NEG (R200) -/
  | neg (dst : Operand)
  /-- CBW (R201) -/
  | cbw (dst : Operand)
  -- miscellaneous, format M
  /-- STI (R210) -/
  | sti
  /-- CLI (R211) -/
  | cli
  /-- STC (R212) -/
  | stc
  /-- CLC (R213) -/
  | clc
deriving DecidableEq, Repr

end Sys2Proof
end

