-- ==== Sys2Proof/WellFormed.lean ====
section
/-! DEFINITION. Which terms of `Instr` are instructions of the machine: the checks the syntax's types do not make. -/

namespace Sys2Proof

/-- The register of an indirect or auto-increment operand is R8..R14: only R8..R15 have a three-bit code, and with R15
the field is decoded differently (R88, R89, 40_operands.md R138). -/
def isPointer (r : RegNum) : Bool := decide (8 ≤ r.toNat) && decide (r.toNat ≤ 14)

/-- The base register of an indexed operand is R8..R15 (R90, R138). -/
def isIndexBase (r : RegNum) : Bool := decide (8 ≤ r.toNat)

/-- An operand that a 6-bit operand field and its extension word can name (R91). -/
def Operand.wf : Operand → Bool
  | .reg _ => true
  | .imm _ => true
  | .direct _ _ => true
  | .indirect _ r => isPointer r
  | .stack => true
  | .autoInc _ r => isPointer r
  | .indexed _ r _ => isIndexBase r

/-- The target operand of a JccL: any well-formed operand but "Indirect using R15", whose word is the Rcc row of the
same condition (R98, R174; log 20). -/
def Operand.wfJump : Operand → Bool
  | .stack => false
  | t => t.wf

/-- A well-formed instruction. An immediate destination is well formed: its word decodes (95_test_vectors.md 2.11) and
its meaning faults (R100). -/
def Instr.wf : Instr → Bool
  | .mov src dst => src.wf && dst.wf
  | .add src dst => src.wf && dst.wf
  | .addc src dst => src.wf && dst.wf
  | .sub src dst => src.wf && dst.wf
  | .subb src dst => src.wf && dst.wf
  | .cmp src dst => src.wf && dst.wf
  | .and src dst => src.wf && dst.wf
  | .test src dst => src.wf && dst.wf
  | .or src dst => src.wf && dst.wf
  | .xor src dst => src.wf && dst.wf
  | .jz _ => true
  | .jnz _ => true
  | .jc _ => true
  | .jnc _ => true
  | .js _ => true
  | .jns _ => true
  | .jo _ => true
  | .jno _ => true
  | .ja _ => true
  | .jbe _ => true
  | .jg _ => true
  | .jge _ => true
  | .jl _ => true
  | .jle _ => true
  | .jmp _ => true
  | .jzl t => t.wfJump
  | .jnzl t => t.wfJump
  | .jcl t => t.wfJump
  | .jncl t => t.wfJump
  | .jsl t => t.wfJump
  | .jnsl t => t.wfJump
  | .jol t => t.wfJump
  | .jnol t => t.wfJump
  | .jal t => t.wfJump
  | .jbel t => t.wfJump
  | .jgl t => t.wfJump
  | .jgel t => t.wfJump
  | .jll t => t.wfJump
  | .jlel t => t.wfJump
  | .jmpl t => t.wfJump
  | .rz => true
  | .rnz => true
  | .rc => true
  | .rnc => true
  | .rs => true
  | .rns => true
  | .ro => true
  | .rno => true
  | .ra => true
  | .rbe => true
  | .rg => true
  | .rge => true
  | .rl => true
  | .rle => true
  | .ret => true
  | .cz t => t.wf
  | .cnz t => t.wf
  | .cc t => t.wf
  | .cnc t => t.wf
  | .cs t => t.wf
  | .cns t => t.wf
  | .co t => t.wf
  | .cno t => t.wf
  | .ca t => t.wf
  | .cbe t => t.wf
  | .cg t => t.wf
  | .cge t => t.wf
  | .cl t => t.wf
  | .cle t => t.wf
  | .call t => t.wf
  | .int _ => true
  | .shr _ dst => dst.wf
  | .shl _ dst => dst.wf
  | .ror _ dst => dst.wf
  | .rol _ dst => dst.wf
  | .addi _ dst => dst.wf
  | .subi _ dst => dst.wf
  | .not dst => dst.wf
  | .neg dst => dst.wf
  | .cbw dst => dst.wf
  | .sti => true
  | .cli => true
  | .stc => true
  | .clc => true

end Sys2Proof
end

