-- ==== Sys2Proof/Decode.lean ====
section
/-! DEFINITION. From bytes to instructions and back (30_encoding.md). Decoding is total and rejects by name; the encoder
is written from the same tables. Between the word and `Instr` stands `Shape`, the eight formats of R83: an instruction's
format, its condition or operation, and its operands. -/

namespace Sys2Proof

/-! ### Byte order -/

/-- Parameter `byte_order` (R4, D1): little-endian (log 1). -/
def byteOrder : ByteOrder := .little

/-- The word whose byte at the even address is `b0` and whose byte at the next address is `b1` (20_memory.md R53). -/
def wordOfBytes (b0 b1 : Byte) : Word :=
  match byteOrder with
  | .little => b1 ++ b0
  | .big => b0 ++ b1

/-- The byte of `v` stored at the even address (R55). -/
def evenByte (v : Word) : Byte :=
  match byteOrder with
  | .little => v.extractLsb' 0 8
  | .big => v.extractLsb' 8 8

/-- The byte of `v` stored at the odd address (R55). -/
def oddByte (v : Word) : Byte :=
  match byteOrder with
  | .little => v.extractLsb' 8 8
  | .big => v.extractLsb' 0 8

/-! ### The operand field (R84 to R92) -/

/-- The width a `b/w` bit selects (R84). -/
def widthOfBit (b : Bool) : Width := if b then .byte else .word

/-- The `b/w` bit of a width (R84). -/
def bitOfWidth : Width → BitVec 1
  | .word => 0
  | .byte => 1

/-- `DecodeOperand` (R91): the operand a 6-bit field names, with extension word `ext` where its mode has one. -/
def decodeOperand (f : BitVec 6) (ext : Word) : Operand :=
  let mode := f.extractLsb' 4 2
  let w := widthOfBit (f.getLsbD 3)
  let rrr := f.extractLsb' 0 3
  let r : RegNum := 1#1 ++ rrr
  if mode = 0 then .reg (f.extractLsb' 0 4)
  else if mode = 1 then
    if rrr = 7 then (if f.getLsbD 3 then .imm ext else .stack)
    else .indirect w r
  else if mode = 2 then
    if rrr = 7 then .direct w ext
    else .autoInc w r
  else .indexed w r ext

/-- `NeedsExt` (R92): the field's mode has an extension word. -/
def needsExt (f : BitVec 6) : Bool :=
  f == 0x1F || f == 0x27 || f == 0x2F || f.extractLsb' 4 2 == 3

/-- The 6-bit field of an operand (R85 to R90). -/
def Operand.field : Operand → BitVec 6
  | .reg n => 0#2 ++ n
  | .imm _ => 0x1F
  | .direct w _ => 2#2 ++ bitOfWidth w ++ 7#3
  | .indirect w r => 1#2 ++ bitOfWidth w ++ r.extractLsb' 0 3
  | .stack => 0x17
  | .autoInc w r => 2#2 ++ bitOfWidth w ++ r.extractLsb' 0 3
  | .indexed w r _ => 3#2 ++ bitOfWidth w ++ r.extractLsb' 0 3

/-- The extension word of an operand, if its mode has one (R86, R87, R90). -/
def Operand.ext : Operand → List Word
  | .reg _ => []
  | .imm v => [v]
  | .direct _ a => [a]
  | .indirect _ _ => []
  | .stack => []
  | .autoInc _ _ => []
  | .indexed _ _ off => [off]

/-! ### Formats (R83) -/

/-- The dual operand operations, opcodes 0000 to 1001 (R94). -/
inductive DualOp where
  | mov | add | addc | sub | subb | cmp | and | test | or | xor
deriving DecidableEq, Repr

/-- The single operand operations with a 3-bit count or constant, sub-opcodes 000 to 101 (R95). -/
inductive CountOp where
  | shr | shl | ror | rol | addi | subi
deriving DecidableEq, Repr

/-- The single operand operations whose bits 8..6 are fixed (R95). -/
inductive UnaryOp where
  | not | neg | cbw
deriving DecidableEq, Repr

/-- The miscellaneous operations (R95). -/
inductive MiscOp where
  | sti | cli | stc | clc
deriving DecidableEq, Repr

/-- An instruction by its format (R83). -/
inductive Shape where
  | dual (op : DualOp) (src dst : Operand)
  | jump (cc : Cond) (off : BitVec 7)
  | jumpLong (cc : Cond) (t : Operand)
  | ret (cc : Cond)
  | call (cc : Cond) (t : Operand)
  | int (v : BitVec 7)
  | count (op : CountOp) (n : BitVec 3) (dst : Operand)
  | unary (op : UnaryOp) (dst : Operand)
  | misc (op : MiscOp)
deriving DecidableEq, Repr

/-- The instruction of a shape: the mnemonic that format, operation and condition name (R96, R179). -/
def Shape.instr : Shape → Instr
  | .dual .mov src dst => .mov src dst
  | .dual .add src dst => .add src dst
  | .dual .addc src dst => .addc src dst
  | .dual .sub src dst => .sub src dst
  | .dual .subb src dst => .subb src dst
  | .dual .cmp src dst => .cmp src dst
  | .dual .and src dst => .and src dst
  | .dual .test src dst => .test src dst
  | .dual .or src dst => .or src dst
  | .dual .xor src dst => .xor src dst
  | .jump .z off => .jz off
  | .jump .nz off => .jnz off
  | .jump .c off => .jc off
  | .jump .nc off => .jnc off
  | .jump .s off => .js off
  | .jump .ns off => .jns off
  | .jump .o off => .jo off
  | .jump .no off => .jno off
  | .jump .a off => .ja off
  | .jump .be off => .jbe off
  | .jump .g off => .jg off
  | .jump .ge off => .jge off
  | .jump .l off => .jl off
  | .jump .le off => .jle off
  | .jump .always off => .jmp off
  | .jumpLong .z t => .jzl t
  | .jumpLong .nz t => .jnzl t
  | .jumpLong .c t => .jcl t
  | .jumpLong .nc t => .jncl t
  | .jumpLong .s t => .jsl t
  | .jumpLong .ns t => .jnsl t
  | .jumpLong .o t => .jol t
  | .jumpLong .no t => .jnol t
  | .jumpLong .a t => .jal t
  | .jumpLong .be t => .jbel t
  | .jumpLong .g t => .jgl t
  | .jumpLong .ge t => .jgel t
  | .jumpLong .l t => .jll t
  | .jumpLong .le t => .jlel t
  | .jumpLong .always t => .jmpl t
  | .ret .z => .rz
  | .ret .nz => .rnz
  | .ret .c => .rc
  | .ret .nc => .rnc
  | .ret .s => .rs
  | .ret .ns => .rns
  | .ret .o => .ro
  | .ret .no => .rno
  | .ret .a => .ra
  | .ret .be => .rbe
  | .ret .g => .rg
  | .ret .ge => .rge
  | .ret .l => .rl
  | .ret .le => .rle
  | .ret .always => .ret
  | .call .z t => .cz t
  | .call .nz t => .cnz t
  | .call .c t => .cc t
  | .call .nc t => .cnc t
  | .call .s t => .cs t
  | .call .ns t => .cns t
  | .call .o t => .co t
  | .call .no t => .cno t
  | .call .a t => .ca t
  | .call .be t => .cbe t
  | .call .g t => .cg t
  | .call .ge t => .cge t
  | .call .l t => .cl t
  | .call .le t => .cle t
  | .call .always t => .call t
  | .int v => .int v
  | .count .shr n dst => .shr n dst
  | .count .shl n dst => .shl n dst
  | .count .ror n dst => .ror n dst
  | .count .rol n dst => .rol n dst
  | .count .addi n dst => .addi n dst
  | .count .subi n dst => .subi n dst
  | .unary .not dst => .not dst
  | .unary .neg dst => .neg dst
  | .unary .cbw dst => .cbw dst
  | .misc .sti => .sti
  | .misc .cli => .cli
  | .misc .stc => .stc
  | .misc .clc => .clc

/-- The shape of an instruction, the inverse of `Shape.instr`. -/
def Instr.shape : Instr → Shape
  | .mov src dst => .dual .mov src dst
  | .add src dst => .dual .add src dst
  | .addc src dst => .dual .addc src dst
  | .sub src dst => .dual .sub src dst
  | .subb src dst => .dual .subb src dst
  | .cmp src dst => .dual .cmp src dst
  | .and src dst => .dual .and src dst
  | .test src dst => .dual .test src dst
  | .or src dst => .dual .or src dst
  | .xor src dst => .dual .xor src dst
  | .jz off => .jump .z off
  | .jnz off => .jump .nz off
  | .jc off => .jump .c off
  | .jnc off => .jump .nc off
  | .js off => .jump .s off
  | .jns off => .jump .ns off
  | .jo off => .jump .o off
  | .jno off => .jump .no off
  | .ja off => .jump .a off
  | .jbe off => .jump .be off
  | .jg off => .jump .g off
  | .jge off => .jump .ge off
  | .jl off => .jump .l off
  | .jle off => .jump .le off
  | .jmp off => .jump .always off
  | .jzl t => .jumpLong .z t
  | .jnzl t => .jumpLong .nz t
  | .jcl t => .jumpLong .c t
  | .jncl t => .jumpLong .nc t
  | .jsl t => .jumpLong .s t
  | .jnsl t => .jumpLong .ns t
  | .jol t => .jumpLong .o t
  | .jnol t => .jumpLong .no t
  | .jal t => .jumpLong .a t
  | .jbel t => .jumpLong .be t
  | .jgl t => .jumpLong .g t
  | .jgel t => .jumpLong .ge t
  | .jll t => .jumpLong .l t
  | .jlel t => .jumpLong .le t
  | .jmpl t => .jumpLong .always t
  | .rz => .ret .z
  | .rnz => .ret .nz
  | .rc => .ret .c
  | .rnc => .ret .nc
  | .rs => .ret .s
  | .rns => .ret .ns
  | .ro => .ret .o
  | .rno => .ret .no
  | .ra => .ret .a
  | .rbe => .ret .be
  | .rg => .ret .g
  | .rge => .ret .ge
  | .rl => .ret .l
  | .rle => .ret .le
  | .ret => .ret .always
  | .cz t => .call .z t
  | .cnz t => .call .nz t
  | .cc t => .call .c t
  | .cnc t => .call .nc t
  | .cs t => .call .s t
  | .cns t => .call .ns t
  | .co t => .call .o t
  | .cno t => .call .no t
  | .ca t => .call .a t
  | .cbe t => .call .be t
  | .cg t => .call .g t
  | .cge t => .call .ge t
  | .cl t => .call .l t
  | .cle t => .call .le t
  | .call t => .call .always t
  | .int v => .int v
  | .shr n dst => .count .shr n dst
  | .shl n dst => .count .shl n dst
  | .ror n dst => .count .ror n dst
  | .rol n dst => .count .rol n dst
  | .addi n dst => .count .addi n dst
  | .subi n dst => .count .subi n dst
  | .not dst => .unary .not dst
  | .neg dst => .unary .neg dst
  | .cbw dst => .unary .cbw dst
  | .sti => .misc .sti
  | .cli => .misc .cli
  | .stc => .misc .stc
  | .clc => .misc .clc

/-! ### The opcode map (R94, R95, R97) -/

/-- The condition a `cccc` field names (R171). Code 1110 is "(not used)". -/
def decodeCond (cccc : BitVec 4) : Option Cond :=
  match cccc.toNat with
  | 0 => some .z
  | 1 => some .nz
  | 2 => some .c
  | 3 => some .nc
  | 4 => some .s
  | 5 => some .ns
  | 6 => some .o
  | 7 => some .no
  | 8 => some .a
  | 9 => some .be
  | 10 => some .g
  | 11 => some .ge
  | 12 => some .l
  | 13 => some .le
  | 15 => some .always
  | _ => none

/-- The `cccc` field of a condition (R171). -/
def Cond.code : Cond → BitVec 4
  | .z => 0x0
  | .nz => 0x1
  | .c => 0x2
  | .nc => 0x3
  | .s => 0x4
  | .ns => 0x5
  | .o => 0x6
  | .no => 0x7
  | .a => 0x8
  | .be => 0x9
  | .g => 0xA
  | .ge => 0xB
  | .l => 0xC
  | .le => 0xD
  | .always => 0xF

/-- The dual operand operation of a major opcode (R94). -/
def decodeDual (op : BitVec 4) : Option DualOp :=
  match op.toNat with
  | 0 => some .mov
  | 1 => some .add
  | 2 => some .addc
  | 3 => some .sub
  | 4 => some .subb
  | 5 => some .cmp
  | 6 => some .and
  | 7 => some .test
  | 8 => some .or
  | 9 => some .xor
  | _ => none

/-- The major opcode of a dual operand operation (R94). -/
def DualOp.code : DualOp → BitVec 4
  | .mov => 0x0
  | .add => 0x1
  | .addc => 0x2
  | .sub => 0x3
  | .subb => 0x4
  | .cmp => 0x5
  | .and => 0x6
  | .test => 0x7
  | .or => 0x8
  | .xor => 0x9

/-- The count operation of a sub-opcode `iw[11:9]` (R95). -/
def decodeCount (sub : BitVec 3) : Option CountOp :=
  match sub.toNat with
  | 0 => some .shr
  | 1 => some .shl
  | 2 => some .ror
  | 3 => some .rol
  | 4 => some .addi
  | 5 => some .subi
  | _ => none

/-- The sub-opcode of a count operation (R95). -/
def CountOp.code : CountOp → BitVec 3
  | .shr => 0
  | .shl => 1
  | .ror => 2
  | .rol => 3
  | .addi => 4
  | .subi => 5

/-- The operation of a parameter field `iw[8:6]` under 1101111 (R95). -/
def decodeUnary (param : BitVec 3) : Option UnaryOp :=
  match param.toNat with
  | 0 => some .not
  | 1 => some .neg
  | 4 => some .cbw
  | _ => none

/-- The parameter field of a unary operation (R95). -/
def UnaryOp.code : UnaryOp → BitVec 3
  | .not => 0
  | .neg => 1
  | .cbw => 4

/-- The miscellaneous operation of `iw[5:0]` under 1101111 111 (R95). -/
def decodeMisc (f : BitVec 6) : Option MiscOp :=
  match f.toNat with
  | 0 => some .sti
  | 1 => some .cli
  | 2 => some .stc
  | 3 => some .clc
  | _ => none

/-- The function field of a miscellaneous operation (R95). -/
def MiscOp.code : MiscOp → BitVec 6
  | .sti => 0
  | .cli => 1
  | .stc => 2
  | .clc => 3

/-! ### The decoder (R98) -/

/-- Source operand field, bits 11..6 (R82). -/
def srcField (iw : Word) : BitVec 6 := iw.extractLsb' 6 6

/-- Destination operand field, bits 5..0 (R82). -/
def dstField (iw : Word) : BitVec 6 := iw.extractLsb' 0 6

/-- Group 1010: Ccc and INT (R94). -/
def decodeCallGroup (iw ext : Word) : Option Shape :=
  let cccc := iw.extractLsb' 8 4
  if iw.extractLsb' 6 2 = 2 then (decodeCond cccc).map fun cc => .call cc (decodeOperand (dstField iw) ext)
  else if iw.getLsbD 7 = false && cccc = 0xF then some (.int (iw.extractLsb' 0 7))
  else none

/-- Group 1100: Jcc, JccL and Rcc (R94). -/
def decodeJumpGroup (iw ext : Word) : Option Shape :=
  match decodeCond (iw.extractLsb' 8 4) with
  | none => none
  | some cc =>
    if iw.getLsbD 7 = false then some (.jump cc (iw.extractLsb' 0 7))
    else if iw.extractLsb' 6 2 = 2 then
      if dstField iw = 0x17 then some (.ret cc) else some (.jumpLong cc (decodeOperand (dstField iw) ext))
    else none

/-- Group 1101: single operand and miscellaneous instructions (R95). -/
def decodeSingleGroup (iw ext : Word) : Option Shape :=
  let sub := iw.extractLsb' 9 3
  let n := iw.extractLsb' 6 3
  match decodeCount sub with
  | some op => some (.count op n (decodeOperand (dstField iw) ext))
  | none =>
    if sub = 7 then
      if n = 7 then (decodeMisc (dstField iw)).map .misc
      else (decodeUnary n).map fun op => .unary op (decodeOperand (dstField iw) ext)
    else none

/-- `Decode` (R98): the shape of instruction word `iw` followed by `e1` and `e2`, of which as many are extension words
as `extCount iw` says; none for a reserved word. -/
def decodeShape (iw e1 e2 : Word) : Option Shape :=
  let op := iw.extractLsb' 12 4
  match decodeDual op with
  | some k =>
    some (.dual k (decodeOperand (srcField iw) e1)
      (decodeOperand (dstField iw) (if needsExt (srcField iw) then e2 else e1)))
  | none =>
    if op = 0xA then decodeCallGroup iw e1
    else if op = 0xC then decodeJumpGroup iw e1
    else if op = 0xD then decodeSingleGroup iw e1
    else none

/-- How many extension words follow `iw` (`Length`, R92). A reserved word has none. -/
def extCount (iw : Word) : Nat :=
  match decodeShape iw 0 0 with
  | some (.dual ..) => (needsExt (srcField iw)).toNat + (needsExt (dstField iw)).toNat
  | some (.jumpLong ..) => (needsExt (dstField iw)).toNat
  | some (.call ..) => (needsExt (dstField iw)).toNat
  | some (.count ..) => (needsExt (dstField iw)).toNat
  | some (.unary ..) => (needsExt (dstField iw)).toNat
  | some (.jump ..) => 0
  | some (.ret ..) => 0
  | some (.int ..) => 0
  | some (.misc ..) => 0
  | none => 0

/-- Why bytes are not an instruction. -/
inductive DecodeError where
  /-- a reserved instruction word (R99) -/
  | reserved (iw : Word)
  /-- the bytes end before the instruction does -/
  | truncated
deriving DecidableEq, Repr

/-- The instruction that `iw` and its extension words are, or the refusal of a reserved word (R98, R99). -/
def decode (iw e1 e2 : Word) : Except DecodeError Instr :=
  match decodeShape iw e1 e2 with
  | some sh => .ok sh.instr
  | none => .error (.reserved iw)

/-- The first instruction of a list of words and the words after it (R80, R81). -/
def decodeWords : List Word → Except DecodeError (Instr × List Word)
  | [] => .error .truncated
  | iw :: ws =>
    if ws.length < extCount iw then .error .truncated
    else (decode iw (ws.getD 0 0) (ws.getD 1 0)).map fun i => (i, ws.drop (extCount iw))

/-- The words of a list of bytes in address order, the first at an even address. A last single byte is no word. -/
def wordsOfBytes : List Byte → List Word
  | b0 :: b1 :: bs => wordOfBytes b0 b1 :: wordsOfBytes bs
  | _ => []

/-- The bytes of a list of words in address order. -/
def bytesOfWords : List Word → List Byte
  | [] => []
  | v :: vs => evenByte v :: oddByte v :: bytesOfWords vs

/-- The first instruction of a list of bytes in address order, and the bytes after it. -/
def decodeBytes (bs : List Byte) : Except DecodeError (Instr × List Byte) :=
  (decodeWords (wordsOfBytes bs)).map fun p => (p.1, bs.drop (2 * ((wordsOfBytes bs).length - p.2.length)))

/-! ### The encoder -/

/-- The instruction word of a shape (R83, R94, R95). -/
def Shape.word : Shape → Word
  | .dual op src dst => op.code ++ src.field ++ dst.field
  | .jump cc off => 0xC#4 ++ cc.code ++ 0#1 ++ off
  | .jumpLong cc t => 0xC#4 ++ cc.code ++ 2#2 ++ t.field
  | .ret cc => 0xC#4 ++ cc.code ++ 2#2 ++ 0x17#6
  | .call cc t => 0xA#4 ++ cc.code ++ 2#2 ++ t.field
  | .int v => 0xA#4 ++ 0xF#4 ++ 0#1 ++ v
  | .count op n dst => 0xD#4 ++ op.code ++ n ++ dst.field
  | .unary op dst => 0xD#4 ++ 7#3 ++ op.code ++ dst.field
  | .misc op => 0xD#4 ++ 7#3 ++ 7#3 ++ op.code

/-- The extension words of a shape, the source's first (R81). -/
def Shape.exts : Shape → List Word
  | .dual _ src dst => src.ext ++ dst.ext
  | .jump _ _ => []
  | .jumpLong _ t => t.ext
  | .ret _ => []
  | .call _ t => t.ext
  | .int _ => []
  | .count _ _ dst => dst.ext
  | .unary _ dst => dst.ext
  | .misc _ => []

/-- The words of an instruction: the instruction word and its extension words (R80). -/
def encode (i : Instr) : List Word := i.shape.word :: i.shape.exts

/-- The bytes of an instruction in address order. -/
def encodeBytes (i : Instr) : List Byte := bytesOfWords (encode i)

/-! ### Words numbered as the opcode table numbers them -/

/-- The three words of an instruction whose bits are `w`, of which the lowest `nbits` count and the rest are 0: bit 0 is
the least significant bit of the first word, and a later word's bits count on from it. -/
def tableWords (nbits w : Nat) : List Word :=
  let x := w % 2 ^ nbits
  [BitVec.ofNat 16 x, BitVec.ofNat 16 (x / 2 ^ 16), BitVec.ofNat 16 (x / 2 ^ 32)]

/-- The instruction the decoder reads from the bytes of `tableWords nbits w`. -/
def decodeTableWord (nbits w : Nat) : Option Instr :=
  match decodeBytes (bytesOfWords (tableWords nbits w)) with
  | .ok p => some p.1
  | .error _ => none

end Sys2Proof
end

