-- ==== Sys2Proof/Machine/State.lean ====
section
/-! DEFINITION. The machine's state as plain data, the reasons a step can stop, and the state after reset
(10_state.md). -/

namespace Sys2Proof.Machine

/-- Memory as the list of (address, byte) pairs that differ from what an unlisted address reads as, addresses strictly
rising (20_memory.md R50). Its operations are in Sys2Proof/Machine/Ops.lean. -/
abbrev Memory := List Host.Cell

/-- The five flag bits (10_state.md R27). -/
structure Flags where
  /-- Zero, bit 0 -/
  z : Bool
  /-- Carry or borrow, bit 1 -/
  c : Bool
  /-- Overflow, bit 2 -/
  o : Bool
  /-- Sign, bit 3 -/
  s : Bool
  /-- Global interrupts enabled, bit 4 -/
  i : Bool
deriving DecidableEq, Repr

/-- One write to a device register, as recorded for the platform (92_eei_decisions.md D33). -/
structure DevWrite where
  addr : Word
  width : Width
  /-- the value stored, a byte zero-extended -/
  value : Word
deriving DecidableEq, Repr

/-- What the environment (devices, host, other bus masters) can do between two steps of the CPU (60_exceptions.md R241,
20_memory.md R65). -/
inductive EnvAction where
  /-- set the pending latch of `h` (R226) -/
  | request (h : Fin 64)
  /-- write the byte `v` at a RAM or device location -/
  | write (a : Word) (v : Byte)
  /-- read a RAM or device location -/
  | read (a : Word)
deriving DecidableEq, Repr

/-- Which agent makes a step, and for the environment what it does (R241). -/
inductive Turn where
  | cpu
  | env (act : EnvAction)
deriving DecidableEq, Repr

/-- The state of the CY16 (10_state.md R20). The registers R0..R15 are words of `mem` (R22). -/
structure State where
  /-- the memory (R50): RAM and ROM, the registers, the vector table and the stack in it -/
  mem : Memory
  /-- REGBANK, the control register at 0xC002 (R24) -/
  regbank : Word
  /-- Flags, the control register at 0xC000 (R27) -/
  flags : Flags
  /-- the program counter (R31) -/
  pc : Word
  /-- Interrupt Enable, the control register at 0xC00E (R34) -/
  intEnable : Word
  /-- the vector numbers whose pending latch is set, strictly rising (R36) -/
  pending : List (Fin 64)
  /-- the instruction just completed was an STI that set F.I (R37, R210, 60_exceptions.md R225; log 14) -/
  stiShadow : Bool
  /-- the writes to device registers, newest first (D33, U19) -/
  devWrites : List DevWrite
  /-- the model's own field: how many free values have been drawn (log 15) -/
  draws : Nat
  /-- the model's own field: the platform's parameter `MemMap`, the same in every state of a run (R62; log 4) -/
  memMap : MemMap
  /-- the model's own field: which agent makes the coming steps, the CPU once the list is empty (R241; log 13) -/
  turns : List Turn
deriving DecidableEq, Repr

/-- The model-level faults of 60_exceptions.md R233: the machine stops. All are safe: the chip may go on. -/
inductive Fault where
  /-- raised by the fetch of a word in the reserved list (30_encoding.md R99); safe -/
  | reservedInstruction (iw : Word)
  /-- raised by a format D or S instruction whose destination field is Immediate (R100); safe -/
  | immediateDestination
  /-- raised by a word access at the odd address `a` (20_memory.md R58); safe -/
  | misalignedWord (a : Word)
  /-- raised by a transfer of control to an odd address, or a fetch at one (10_state.md R33); safe -/
  | oddPC
deriving DecidableEq, Repr

/-- The forms to which the spec gives no meaning (60_exceptions.md R233). All are safe: the chip may go on. -/
inductive Refusal where
  /-- raised by an arm of `exec` whose instruction has no meaning yet; safe. No arm raises it. -/
  | notModelled (mnemonic : String)
  /-- raised by a read-modify-write instruction with destination `[R15]` (40_operands.md R127, R132); safe -/
  | rmwOnStackIndirect
  /-- raised by an instruction that writes its destination and computes flags, at address 0xC000 (R30, D18); safe -/
  | flagsDestination
  /-- raised by a byte-wide access to 0xC000..0xC003 (R30, D26); safe -/
  | byteControlRegister
  /-- raised by an access to an address `MemMap` calls unmapped (20_memory.md R62, D33); safe -/
  | unmapped
  /-- raised by a write to ROM (R62, D33); safe -/
  | romWrite
  /-- raised by a register access while the register window is not wholly in RAM (R63, D33), and by a push or pop whose
  slot touches a control register, a device register or, for a pop, ROM (D33, U18); safe -/
  | windowNotInRam
deriving DecidableEq, Repr

/-- The machine right after a hardware reset (R40, 70_reset_and_hazards.md R250). R40 gives `pc` and REGBANK; the other
values are DESIGN CHOICES (log 4, 5, 6, 7, 13, 14, 15, 21, 28), unsafe. The map is R62's smallest admissible instance. The
one listed byte is the high byte of R15's word at 0x011E (R22): R15 is 0x1000, the top of a call stack (R26, R252;
log 28). -/
def State.reset : State where
  mem := [(0x011F, 0x10)]
  regbank := 0x0100
  flags := { z := false, c := false, o := false, s := false, i := false }
  pc := 0xFFF0
  intEnable := 0
  pending := []
  stiShadow := false
  devWrites := []
  draws := 0
  memMap := [{ first := 0x0120, last := 0xBFFF, cls := .ram }, { first := 0xC004, last := 0xFFEF, cls := .device }]
  turns := []

end Sys2Proof.Machine
end

