-- ==== Sys2Proof/Machine/Flags.lean ====
section
/-! DEFINITION. The Flags register as a word (10_state.md R27, R30), the condition table (42_program_control.md R171)
and every flag computation: for each operation, the 16-bit result and the new flags as a function of the old destination
value and the old flags. -/

namespace Sys2Proof.Machine

/-- The word a read of the Flags register returns: bits 15..5 are 0 (R27, R30). -/
def Flags.toWord (f : Flags) : Word :=
  0#11 ++ BitVec.ofBool f.i ++ BitVec.ofBool f.s ++ BitVec.ofBool f.o ++ BitVec.ofBool f.c ++ BitVec.ofBool f.z

/-- The flags a word written to the Flags register sets: bits 15..5 are ignored (R30, D18). -/
def Flags.ofWord (v : Word) : Flags where
  z := v.getLsbD 0
  c := v.getLsbD 1
  o := v.getLsbD 2
  s := v.getLsbD 3
  i := v.getLsbD 4

/-- `cond` (R171): the truth of a condition on the flags. -/
def condHolds (f : Flags) : Cond → Bool
  | .z => f.z
  | .nz => !f.z
  | .c => f.c
  | .nc => !f.c
  | .s => f.s
  | .ns => !f.s
  | .o => f.o
  | .no => !f.o
  | .a => !f.z && !f.c
  | .be => f.z || f.c
  | .g => (f.o == f.s) && !f.z
  | .ge => f.o == f.s
  | .l => f.o != f.s
  | .le => (f.o != f.s) || f.z
  | .always => true

/-- An operation on a destination value: from the old value and the old flags to the result and the new flags. -/
abbrev Alu := Word → Flags → Word × Flags

/-- Z and S from a 16-bit result, every other flag unchanged (R29, R151, 41_dual_operand.md R152, D14). -/
def setZS (r : Word) (f : Flags) : Flags := { f with z := decide (r = 0), s := r.msb }

/-- The integer lies outside the 16-bit two's complement range (R151, D5). -/
def overflows (t : Int) : Bool := decide (t < -32768) || decide (32767 < t)

/-- Addition of the source `src` and carry-in `cin` (R151): the sum is exact, then narrowed. -/
def aluAdd (src : Word) (cin : Bool) (d : Word) (f : Flags) : Word × Flags :=
  let t := d.toNat + src.toNat + cin.toNat
  let r := BitVec.ofNat 16 t
  (r, { setZS r f with
    c := decide (0x10000 ≤ t)
    o := overflows (d.toInt + src.toInt + cin.toNat) })

/-- Subtraction of the source `src` and carry-in `cin` (R151): C is the borrow. -/
def aluSub (src : Word) (cin : Bool) (d : Word) (f : Flags) : Word × Flags :=
  let t : Int := (d.toNat : Int) - src.toNat - cin.toNat
  let r := BitVec.ofInt 16 t
  (r, { setZS r f with
    c := decide (t < 0)
    o := overflows (d.toInt - src.toInt - cin.toNat) })

/-- A logical result: Z and S by R152. -/
def aluLogic (r : Word) (f : Flags) : Word × Flags := (r, setZS r f)

/-- A shift or rotate result with `out` the last bit that left (43_single_operand.md R193 to R196): Z, C and S. -/
def aluShifted (r : Word) (out : Bool) (f : Flags) : Word × Flags := (r, { setZS r f with c := out })

/-- SHR by `k`: arithmetic, C is the last bit shifted out of bit 0 (R193). -/
def aluShr (k : Nat) (d : Word) (f : Flags) : Word × Flags := aluShifted (d.sshiftRight k) (d.getLsbD (k - 1)) f

/-- SHL by `k`: C is the last bit shifted out of bit 15 (R194). -/
def aluShl (k : Nat) (d : Word) (f : Flags) : Word × Flags := aluShifted (d <<< k) (d.getLsbD (16 - k)) f

/-- ROR by `k`: C is the last bit rotated out of bit 0; the old C does not enter (R195). -/
def aluRor (k : Nat) (d : Word) (f : Flags) : Word × Flags :=
  aluShifted ((d >>> k) ||| (d <<< (16 - k))) (d.getLsbD (k - 1)) f

/-- ROL by `k`: C is the last bit rotated out of bit 15 (R196). -/
def aluRol (k : Nat) (d : Word) (f : Flags) : Word × Flags :=
  aluShifted ((d <<< k) ||| (d >>> (16 - k))) (d.getLsbD (16 - k)) f

/-- ADDI of the constant `k`: Z and S only (R197). -/
def aluAddi (k : Nat) (d : Word) (f : Flags) : Word × Flags := aluLogic (d + BitVec.ofNat 16 k) f

/-- SUBI of the constant `k`: Z and S only (R198). -/
def aluSubi (k : Nat) (d : Word) (f : Flags) : Word × Flags := aluLogic (d - BitVec.ofNat 16 k) f

/-- NOT (R199). -/
def aluNot (d : Word) (f : Flags) : Word × Flags := aluLogic (~~~d) f

/-- NEG: the flags of the subtraction 0 - d (R200, D15). -/
def aluNeg (d : Word) (f : Flags) : Word × Flags := aluSub d false 0 f

/-- CBW: bits 7..0 sign-extended (R201). -/
def aluCbw (d : Word) (f : Flags) : Word × Flags := aluLogic ((d.extractLsb' 0 8).signExtend 16) f

/-- The value the 3-bit field `n` stands for, 1..8 (R93, R191). -/
def countOf (n : BitVec 3) : Nat := n.toNat + 1

end Sys2Proof.Machine
end

