-- ==== Sys2Proof/Machine/Params.lean ====
section
/-! DEFINITION. What R62 fixes of the parameter `MemMap`, the class a map gives an address, and the parameter `rel_base`
(00_scope.md R4). The opaque parameters are in Sys2Proof/Config.lean, `byte_order` in Sys2Proof/Decode.lean, the map itself
is the field `memMap` of the state. -/

namespace Sys2Proof.Machine

/-- Parameter `rel_base` (R4, D11): the base of a relative jump is the next instruction's address (log 2). -/
def relBase : RelBase := .next

/-- The address of the Flags register (10_state.md R27). -/
def flagsAddr : Word := 0xC000

/-- The address of REGBANK (R24). -/
def regbankAddr : Word := 0xC002

/-- The address of the Interrupt Enable register (R34). -/
def intEnableAddr : Word := 0xC00E

/-- The address of the one other register PG shows, a "GPIO register" (R35). -/
def gpioAddr : Word := 0xC024

/-- The class an open address of `MemMap` has. -/
def regionOfOpen : OpenRegion → Region
  | .ram => .ram
  | .rom => .rom
  | .device => .device
  | .unmapped => .unmapped

/-- The class the spec fixes for address `a`, if it does (20_memory.md R62, D30): the vector table and the default
register window, 0x0000..0x011F, and the word at 0x0400 are RAM; Flags, REGBANK; the two device registers PG names, both
bytes of each; the ROM at 0xFFF0..0xFFFF (log 4). -/
def fixedClass (a : Word) : Option Region :=
  if a.toNat < 0x0120 then some .ram
  else if a.toNat / 2 = 0x0200 then some .ram
  else if a.toNat < 0xC000 then none
  else if a.toNat < 0xC002 then some .flags
  else if a.toNat < 0xC004 then some .regbank
  else if a.toNat / 2 = intEnableAddr.toNat / 2 then some .device
  else if a.toNat / 2 = gpioAddr.toNat / 2 then some .device
  else if a.toNat < 0xFFF0 then none
  else some .rom

/-- The class a map gives an address the spec does not fix: that of the first area that holds it. -/
def openClass : MemMap → Word → OpenRegion
  | [], _ => .unmapped
  | r :: m, a => if r.first.toNat ≤ a.toNat ∧ a.toNat ≤ r.last.toNat then r.cls else openClass m a

/-- Parameter `MemMap` (R62): the class of the byte at address `a`, fixed by the spec or else the platform's. -/
def memClass (m : MemMap) (a : Word) : Region :=
  match fixedClass a with
  | some c => c
  | none => regionOfOpen (openClass m a)

/-- Some byte of an access of width `w` at `a` is of class `c`. -/
def someByteIs (m : MemMap) (c : Region) (a : Word) (w : Width) : Bool :=
  match w with
  | .byte => memClass m a == c
  | .word => memClass m a == c || memClass m (a + 1) == c

/-- Every byte of an access of width `w` at `a` is of class `c`. -/
def everyByteIs (m : MemMap) (c : Region) (a : Word) (w : Width) : Bool :=
  match w with
  | .byte => memClass m a == c
  | .word => memClass m a == c && memClass m (a + 1) == c

end Sys2Proof.Machine
end

