-- ==== Sys2Proof/Machine/Ops.lean ====
section
/-! DEFINITION. The operations every meaning is built from: memory (20_memory.md), the registers as memory
(10_state.md R22), loads and stores by `MemMap`, the stack, transfers of control, and the entry to a handler through the
vector table (60_exceptions.md R224, 42_program_control.md R176) with the return beside it. Whether an access stops
depends on its address and width, which a `…Check` says; what it does is a plain function of the state. -/

namespace Sys2Proof.Machine

/-! ### Outcomes -/

/-- The outcome of an operation that answers an `α`. -/
abbrev Out (α : Type) := Host.Outcome α Fault Refusal

/-- Go on with the answer of `x`, or stop as `x` does. -/
def bindOut {α β : Type} (x : Out α) (k : α → Out β) : Out β :=
  match x with
  | .next a => k a
  | .fault f => .fault f
  | .refused r => .refused r

/-- A reason to stop (R233). -/
inductive Stop where
  | fault (f : Fault)
  | refuse (r : Refusal)
deriving DecidableEq, Repr

/-- Answer `x` unless the check found a reason to stop. -/
def stopOr {α : Type} (check : Option Stop) (x : α) : Out α :=
  match check with
  | none => .next x
  | some (.fault f) => .fault f
  | some (.refuse r) => .refused r

/-! ### Memory -/

/-- What a byte that nothing has written reads as: DESIGN CHOICE, unsafe (log 5; R40 leaves it unspecified). -/
def unlistedByte (_a : Nat) : Byte := 0

/-- The canonical form: addresses strictly rising and inside the space, no byte equal to the unlisted one. -/
abbrev Memory.wf (m : Memory) : Prop :=
  m.Pairwise (fun x y => x.1 < y.1) ∧ ∀ x ∈ m, x.1 < 0x10000 ∧ x.2 ≠ unlistedByte x.1

/-- The byte at address `a` (R52). -/
def Memory.read : Memory → Nat → Byte
  | [], a => unlistedByte a
  | (b, v) :: m, a => if b = a then v else Memory.read m a

/-- Put the cell in front, unless it is what an unlisted address reads as. -/
def Memory.cons (a : Nat) (v : Byte) (m : Memory) : Memory := if v = unlistedByte a then m else (a, v) :: m

/-- Store a byte at address `a` and change no other (R54), keeping the canonical form. -/
def Memory.write : Memory → Nat → Byte → Memory
  | [], a, v => Memory.cons a v []
  | (b, x) :: m, a, v =>
    if a < b then Memory.cons a v ((b, x) :: m)
    else if a = b then Memory.cons a v m
    else (b, x) :: Memory.write m a v

/-- The byte of memory at address `a`. -/
def State.byteAt (s : State) (a : Word) : Byte := s.mem.read a.toNat

/-- The word of memory at the even address `a` (R53). -/
def State.wordAt (s : State) (a : Word) : Word := wordOfBytes (s.byteAt a) (s.byteAt (a + 1))

/-- The state with byte `v` at address `a` of memory (R54). -/
def State.setByte (s : State) (a : Word) (v : Byte) : State := { s with mem := s.mem.write a.toNat v }

/-- The state with word `v` at the even address `a` of memory (R55). -/
def State.setWord (s : State) (a v : Word) : State := (s.setByte a (evenByte v)).setByte (a + 1) (oddByte v)

/-- The state with its flags replaced. -/
def State.withFlags (s : State) (f : Flags) : State := { s with flags := f }

/-- The state after one more free value has been drawn (log 15). -/
def State.drawn (s : State) : State := { s with draws := s.draws + 1 }

/-! ### The registers (R22) -/

/-- `RegAddr` (R22): the address of register `i` in the window REGBANK selects. -/
def regAddr (regbank : Word) (i : RegNum) : Word := (regbank &&& 0xFFE0#16) ||| (i.setWidth 16 <<< 1)

/-- The value of register `i`, a word of memory. -/
def State.reg (s : State) (i : RegNum) : Word := s.wordAt (regAddr s.regbank i)

/-- The state with register `i` set. -/
def State.setReg (s : State) (i : RegNum) (v : Word) : State := s.setWord (regAddr s.regbank i) v

/-- The register window lies wholly in RAM, both bytes of every register (R63). -/
def windowInRam (m : MemMap) (regbank : Word) : Bool :=
  (List.range 16).all fun i => everyByteIs m .ram (regAddr regbank (BitVec.ofNat 4 i)) .word

/-- A register access while the window is not in RAM has no meaning (R63, D33; log 17). -/
def regCheck (s : State) : Option Stop :=
  if windowInRam s.memMap s.regbank then none else some (.refuse .windowNotInRam)

/-- `x[i]` (R22). -/
def readReg (i : RegNum) (s : State) : Out Word := stopOr (regCheck s) (s.reg i)

/-- `x[i] <- v` (R22). -/
def writeReg (i : RegNum) (v : Word) (s : State) : Out State := stopOr (regCheck s) (s.setReg i v)

/-! ### Loads and stores by `MemMap` (20_memory.md R52 to R58, R61, R62) -/

/-- Why a load of width `w` at address `a` stops, if it does: an odd word address (R58), a byte of a control register
(R30, D26), an unmapped byte (R62). -/
def loadCheck (m : MemMap) (a : Word) (w : Width) : Option Stop :=
  match w with
  | .word =>
    if isOdd a then some (.fault (.misalignedWord a))
    else if someByteIs m .unmapped a .word then some (.refuse .unmapped)
    else none
  | .byte =>
    match memClass m a with
    | .ram => none
    | .rom => none
    | .device => none
    | .flags => some (.refuse .byteControlRegister)
    | .regbank => some (.refuse .byteControlRegister)
    | .unmapped => some (.refuse .unmapped)

/-- Why a store of width `w` at address `a` stops, if it does: as a load does, and for a write to ROM (R62, D33). -/
def storeCheck (m : MemMap) (a : Word) (w : Width) : Option Stop :=
  match loadCheck m a w with
  | some c => some c
  | none => if someByteIs m .rom a w then some (.refuse .romWrite) else none

/-- The value a read of REGBANK returns: bits 15..5 as written, bits 4..0 free (R24, D26; log 9). -/
def regbankValue (s : State) : Word :=
  s.regbank.extractLsb' 5 11 ++ Config.regbankLow s.draws (s.regbank.extractLsb' 0 5)

/-- The address is that of a byte of the Interrupt Enable register (R34). -/
def isIntEnable (a : Word) : Bool := a.toNat / 2 == intEnableAddr.toNat / 2

/-- The byte of `v` that a byte access at address `a` reads (R56). -/
def byteOfWord (a v : Word) : Byte := if isOdd a then oddByte v else evenByte v

/-- The word a device register answers a word read with, free (D33, U19; log 10, log 11). -/
def deviceWord (a : Word) (s : State) : Word :=
  if isIntEnable a then Config.intEnableRead s.draws s.intEnable else Config.deviceWord s.draws a

/-- The byte a device register answers a byte read with, free (D33, U19; log 10, log 11). -/
def deviceByte (a : Word) (s : State) : Byte :=
  if isIntEnable a then byteOfWord a (Config.intEnableRead s.draws s.intEnable) else Config.deviceByte s.draws a

/-- The byte that a location outside the control registers holds (R52). -/
def locationByte (a : Word) (s : State) : Byte :=
  if memClass s.memMap a = .device then deviceByte a s else s.byteAt a

/-- `Load` (40_operands.md R130): the value, a byte zero-extended (R124); a word of which one byte alone is a device's is
put together from its two locations (R53; log 29). Of no use where `loadCheck` stops. -/
def loadValue (a : Word) (w : Width) (s : State) : Word :=
  match memClass s.memMap a with
  | .flags => s.flags.toWord
  | .regbank => regbankValue s
  | .device | .ram | .rom | .unmapped =>
    match w with
    | .word =>
      if everyByteIs s.memMap .device a .word then deviceWord a s
      else wordOfBytes (locationByte a s) (locationByte (a + 1) s)
    | .byte => (locationByte a s).setWidth 16

/-- The state after a load of width `w`: a free value drawn where the value was one. -/
def afterLoad (a : Word) (w : Width) (s : State) : State :=
  if memClass s.memMap a = .regbank then s.drawn
  else if someByteIs s.memMap .device a w then s.drawn
  else s

/-- The Interrupt Enable word after a store of width `w` at address `a` (R34, R54; log 11). -/
def intEnableAfter (a : Word) (w : Width) (v held : Word) : Word :=
  match w with
  | .word => v
  | .byte =>
    if isOdd a then wordOfBytes (evenByte held) (v.extractLsb' 0 8)
    else wordOfBytes (v.extractLsb' 0 8) (oddByte held)

/-- The Interrupt Enable register written, if `a` is its address (R34). -/
def setIntEnable (a : Word) (w : Width) (v : Word) (s : State) : State :=
  { s with intEnable := if isIntEnable a then intEnableAfter a w v s.intEnable else s.intEnable }

/-- A store to a device register: recorded (D33), and held if it is the Interrupt Enable register (R34). -/
def deviceStore (a : Word) (w : Width) (v : Word) (s : State) : State :=
  let value := match w with
    | .word => v
    | .byte => (v.extractLsb' 0 8).setWidth 16
  { setIntEnable a w v s with devWrites := { addr := a, width := w, value := value } :: s.devWrites }

/-- A byte stored at a location outside the control registers (R54). -/
def setLocation (a : Word) (v : Byte) (s : State) : State :=
  if memClass s.memMap a = .device then deviceStore a .byte (v.setWidth 16) s else s.setByte a v

/-- `Store` (R131): a byte store changes one byte (R54); a store to Flags or REGBANK sets the register (R30, R24); a word
of which one byte alone is a device's goes to its two locations (R55; log 29). Of no use where `storeCheck` stops. -/
def storeState (a : Word) (w : Width) (v : Word) (s : State) : State :=
  match memClass s.memMap a with
  | .flags => s.withFlags (Flags.ofWord v)
  | .regbank => { s with regbank := v }
  | .device | .ram | .rom | .unmapped =>
    match w with
    | .word =>
      if everyByteIs s.memMap .device a .word then deviceStore a .word v s
      else setLocation (a + 1) (oddByte v) (setLocation a (evenByte v) s)
    | .byte => setLocation a (v.extractLsb' 0 8) s

/-- `Load(a, b)` (R130). -/
def load (a : Word) (w : Width) (s : State) : Out (Word × State) :=
  stopOr (loadCheck s.memMap a w) (loadValue a w s, afterLoad a w s)

/-- `Store(a, b, v)` (R131). -/
def store (a : Word) (w : Width) (v : Word) (s : State) : Out State :=
  stopOr (storeCheck s.memMap a w) (storeState a w v s)

/-! ### The stack (10_state.md R26, 40_operands.md R127) -/

/-- A stack slot outside RAM has no meaning (D33, U18; log 16). `check` is what a plain access there gives. -/
def stackCheck (m : MemMap) (a : Word) (check : Option Stop) : Option Stop :=
  match check with
  | some c => some c
  | none => if everyByteIs m .ram a .word then none else some (.refuse .windowNotInRam)

/-- The address a push stores to (R127). -/
def pushAddr (s : State) : Word := s.reg 15 - 2

/-- Push a word: the decrement is written to R15, then the word is stored (R127, R131). -/
def push (v : Word) (s : State) : Out State :=
  bindOut (readReg 15 s) fun sp =>
  bindOut (writeReg 15 (sp - 2) s) fun t =>
  stopOr (stackCheck s.memMap (sp - 2) (storeCheck s.memMap (sp - 2) .word)) (t.setWord (sp - 2) v)

/-- Pop a word: the word at R15 is read, then R15 is advanced (R127, R130). -/
def pop (s : State) : Out (Word × State) :=
  bindOut (readReg 15 s) fun sp =>
  bindOut (stopOr (stackCheck s.memMap sp (loadCheck s.memMap sp .word)) (s.wordAt sp)) fun v =>
  bindOut (writeReg 15 (sp + 2) s) fun t => .next (v, t)

/-! ### Transfers of control -/

/-- `pc <- t`, or the fault of an odd target (R33, R178). -/
def jumpTo (t : Word) (s : State) : Out State :=
  if isOdd t then .fault .oddPC else .next { s with pc := t }

/-- The address of vector-table entry `v` (R176, 60_exceptions.md R228). -/
def vectorAddr (v : BitVec 7) : Word := v.setWidth 16 <<< 1

/-- Entry to a handler through the vector table, shared by INT and hardware interrupts (R176, R224): push `pc`; clear
F.I if `maskI` (the implied CLI of a hardware interrupt); `pc` becomes the word at `2 * v`. -/
def enterHandler (v : BitVec 7) (maskI : Bool) (s : State) : Out State :=
  bindOut (push s.pc s) fun t =>
  bindOut (load (vectorAddr v) .word (if maskI then t.withFlags { t.flags with i := false } else t)) fun p =>
  jumpTo p.1 p.2

/-- The return (R174): `pc` becomes the popped word. PG has no other return from a handler (R230). -/
def returnFromHandler (s : State) : Out State := bindOut (pop s) fun p => jumpTo p.1 p.2

/-! ### Hardware interrupts (60_exceptions.md R221 to R227) -/

/-- Interrupt `h` is acceptable at this boundary as far as its source goes: it is a hardware vector, its latch is set
and it is enabled (R223). -/
def irqAcceptable (h : Fin 64) (s : State) : Bool :=
  s.pending.contains h && Config.hwVector h && Config.irqEnabled s.draws h s.intEnable

/-- The interrupt taken at this boundary, if any (R223, R225, R227): F.I is 1, the boundary is not in an STI shadow,
and the platform's choice names an acceptable one. -/
def irqTaken (s : State) : Option (Fin 64) :=
  if s.flags.i && !s.pending.isEmpty && !(s.stiShadow && Config.stiShadow) then
    match Config.irqChoice s.draws with
    | some h => if irqAcceptable h s then some h else none
    | none => none
  else none

/-- Hardware interrupt entry (R224); the latch of `h` is cleared (R226, D25). -/
def takeInterrupt (h : Fin 64) (s : State) : Out State :=
  bindOut (enterHandler (BitVec.ofNat 7 h) true s) fun t =>
  .next { t with pending := t.pending.filter (· != h) }

/-- Insert a vector number into a strictly rising list. -/
def insertVector (h : Fin 64) : List (Fin 64) → List (Fin 64)
  | [] => [h]
  | k :: ks => if h < k then h :: k :: ks else if h = k then k :: ks else k :: insertVector h ks

/-! ### The environment (R241, 20_memory.md R65) -/

/-- A device sets the pending latch of `h`; one that is set stays set (R226). -/
def requestInterrupt (h : Fin 64) (s : State) : State := { s with pending := insertVector h s.pending }

/-- An external agent writes the byte `v` at address `a`, as `MemMap` allows (R241): a byte of RAM changes; in a device
register only the Interrupt Enable word is state of the machine (log 24); any other location stays as it is. -/
def environmentWrite (a : Word) (v : Byte) (s : State) : State :=
  match memClass s.memMap a with
  | .ram => s.setByte a v
  | .device => setIntEnable a .byte (v.setWidth 16) s
  | .rom | .flags | .regbank | .unmapped => s

/-- What one action of the environment does (R241). A read changes nothing the CPU can see. -/
def environment (act : EnvAction) (s : State) : State :=
  match act with
  | .request h => requestInterrupt h s
  | .write a v => environmentWrite a v s
  | .read _ => s

/-- The environment's action where the coming step is its own, none where it is the CPU's (R241; log 13). -/
def envMove (s : State) : Option EnvAction :=
  match s.turns with
  | .env act :: _ => some act
  | .cpu :: _ => none
  | [] => none

/-- The state with its turn used up. -/
def turnTaken (s : State) : State := { s with turns := s.turns.tail }

end Sys2Proof.Machine
end

