-- ==== Sys2Proof/Machine/Operands.lean ====
section
/-! DEFINITION. The access functions of 40_operands.md R130 to R132, for every operand form. -/

namespace Sys2Proof.Machine

/-- The step of an auto increment: 1 for a byte, 2 for a word (R126). -/
def stepOf : Width → Word
  | .word => 2
  | .byte => 1

/-- The operand is in immediate mode. -/
def isImmediate : Operand → Bool
  | .imm _ => true
  | .reg _ | .direct _ _ | .indirect _ _ | .stack | .autoInc _ _ | .indexed _ _ _ => false

/-- `ReadOperand` (R130): the 16-bit value, and the state after the mode's side effect. -/
def readOperand (op : Operand) (s : State) : Out (Word × State) :=
  match op with
  | .reg n => bindOut (readReg n s) fun v => .next (v, s)
  | .imm v => .next (v, s)
  | .direct w a => load a w s
  | .indirect w r => bindOut (readReg r s) fun a => load a w s
  | .autoInc w r =>
    bindOut (readReg r s) fun a =>
    bindOut (load a w s) fun p =>
    bindOut (writeReg r (a + stepOf w) p.2) fun t => .next (p.1, t)
  | .stack => pop s
  | .indexed w r off => bindOut (readReg r s) fun x => load (x + off) w s

/-- `WriteOperand` (R131): store a 16-bit result. The address register of an auto increment is read before the store
and written after it. -/
def writeOperand (op : Operand) (v : Word) (s : State) : Out State :=
  match op with
  | .reg n => writeReg n v s
  | .imm _ => .fault .immediateDestination
  | .direct w a => store a w v s
  | .indirect w r => bindOut (readReg r s) fun a => store a w v s
  | .autoInc w r =>
    bindOut (readReg r s) fun a =>
    bindOut (store a w v s) fun t => writeReg r (a + stepOf w) t
  | .stack => push v s
  | .indexed w r off => bindOut (readReg r s) fun x => store (x + off) w v s

/-- Why a read-modify-write at address `a` stops, if it does: the load, the store, or the Flags register as the written
destination of a flag-writing instruction (R30, R153, R202, D18). -/
def modifyCheck (m : MemMap) (a : Word) (w : Width) : Option Stop :=
  match storeCheck m a w with
  | some c => some c
  | none => if memClass m a = .flags then some (.refuse .flagsDestination) else none

/-- The state after a read-modify-write at address `a`: the result stored, then the flags (R132, R133). -/
def modifiedAt (a : Word) (w : Width) (g : Alu) (s : State) : State :=
  (storeState a w (g (loadValue a w s) s.flags).1 (afterLoad a w s)).withFlags (g (loadValue a w s) s.flags).2

/-- `Store(a, b, g(Load(a, b)))` and the flags (R132). -/
def modifyAt (a : Word) (w : Width) (g : Alu) (s : State) : Out State := stopOr (modifyCheck s.memMap a w) (modifiedAt a w g s)

/-- `ModifyOperand` (R132): one effective address, one increment. -/
def modifyOperand (op : Operand) (g : Alu) (s : State) : Out State :=
  match op with
  | .reg n =>
    bindOut (readReg n s) fun d =>
    bindOut (writeReg n (g d s.flags).1 s) fun t => .next (t.withFlags (g d s.flags).2)
  | .imm _ => .fault .immediateDestination
  | .direct w a => modifyAt a w g s
  | .indirect w r => bindOut (readReg r s) fun a => modifyAt a w g s
  | .autoInc w r =>
    bindOut (readReg r s) fun a =>
    bindOut (modifyAt a w g s) fun t => writeReg r (a + stepOf w) t
  | .stack => .refused .rmwOnStackIndirect
  | .indexed w r off => bindOut (readReg r s) fun x => modifyAt (x + off) w g s

/-- A destination that is read and compared but not written: CMP, TEST (41_dual_operand.md R159, R161, D37). -/
def compareOperand (op : Operand) (g : Alu) (s : State) : Out State :=
  bindOut (readOperand op s) fun p => .next (p.2.withFlags (g p.1 p.2.flags).2)

/-- Read the source of a dual operand instruction and go on with its value. An immediate destination faults before any
operand access (R153). -/
def withSource (src dst : Operand) (s : State) (k : Word → State → Out State) : Out State :=
  if isImmediate dst then .fault .immediateDestination
  else bindOut (readOperand src s) fun p => k p.1 p.2

end Sys2Proof.Machine
end

