-- ==== Sys2Proof/Machine/Control.lean ====
section
/-! DEFINITION. The program control instructions (42_program_control.md). `s` is the state after the fetch: `s.pc`
addresses the next instruction, the not-taken successor (R170, R177). No member writes a flag. -/

namespace Sys2Proof.Machine

/-- The target of a relative jump (R172, R93): the base, and twice the signed 7-bit offset. -/
def relTarget (off : BitVec 7) (s : State) : Word :=
  match relBase with
  | .next => s.pc + (off.signExtend 16 <<< 1)
  | .self => s.pc - 2#16 + (off.signExtend 16 <<< 1)

/-- Jcc (R172). -/
def jumpRel (cc : Cond) (off : BitVec 7) (s : State) : Out State :=
  if condHolds s.flags cc then .next { s with pc := relTarget off s } else .next s

/-- JccL (R173): the operand is read and its value is the target; not evaluated when not taken (R177). -/
def jumpAbs (cc : Cond) (t : Operand) (s : State) : Out State :=
  if condHolds s.flags cc then bindOut (readOperand t s) fun p => jumpTo p.1 p.2 else .next s

/-- Rcc (R174): nothing is popped when not taken. -/
def returnIf (cc : Cond) (s : State) : Out State :=
  if condHolds s.flags cc then returnFromHandler s else .next s

/-- Ccc (R175): the operand is read before the push (D13), and an odd target faults before the push. -/
def callIf (cc : Cond) (t : Operand) (s : State) : Out State :=
  if condHolds s.flags cc then
    bindOut (readOperand t s) fun p =>
    if isOdd p.1 then .fault .oddPC
    else bindOut (push p.2.pc p.2) fun u => .next { u with pc := p.1 }
  else .next s

/-- JZ (R172). -/
def execJz (off : BitVec 7) (s : State) : Out State := jumpRel .z off s

/-- JNZ (R172). -/
def execJnz (off : BitVec 7) (s : State) : Out State := jumpRel .nz off s

/-- JC (R172). -/
def execJc (off : BitVec 7) (s : State) : Out State := jumpRel .c off s

/-- JNC (R172). -/
def execJnc (off : BitVec 7) (s : State) : Out State := jumpRel .nc off s

/-- JS (R172). -/
def execJs (off : BitVec 7) (s : State) : Out State := jumpRel .s off s

/-- JNS (R172). -/
def execJns (off : BitVec 7) (s : State) : Out State := jumpRel .ns off s

/-- JO (R172). -/
def execJo (off : BitVec 7) (s : State) : Out State := jumpRel .o off s

/-- JNO (R172). -/
def execJno (off : BitVec 7) (s : State) : Out State := jumpRel .no off s

/-- JA (R172). -/
def execJa (off : BitVec 7) (s : State) : Out State := jumpRel .a off s

/-- JBE (R172). -/
def execJbe (off : BitVec 7) (s : State) : Out State := jumpRel .be off s

/-- JG (R172). -/
def execJg (off : BitVec 7) (s : State) : Out State := jumpRel .g off s

/-- JGE (R172). -/
def execJge (off : BitVec 7) (s : State) : Out State := jumpRel .ge off s

/-- JL (R172). -/
def execJl (off : BitVec 7) (s : State) : Out State := jumpRel .l off s

/-- JLE (R172). -/
def execJle (off : BitVec 7) (s : State) : Out State := jumpRel .le off s

/-- JMP (R172). -/
def execJmp (off : BitVec 7) (s : State) : Out State := jumpRel .always off s

/-- JZL (R173). -/
def execJzl (t : Operand) (s : State) : Out State := jumpAbs .z t s

/-- JNZL (R173). -/
def execJnzl (t : Operand) (s : State) : Out State := jumpAbs .nz t s

/-- JCL (R173). -/
def execJcl (t : Operand) (s : State) : Out State := jumpAbs .c t s

/-- JNCL (R173). -/
def execJncl (t : Operand) (s : State) : Out State := jumpAbs .nc t s

/-- JSL (R173). -/
def execJsl (t : Operand) (s : State) : Out State := jumpAbs .s t s

/-- JNSL (R173). -/
def execJnsl (t : Operand) (s : State) : Out State := jumpAbs .ns t s

/-- JOL (R173). -/
def execJol (t : Operand) (s : State) : Out State := jumpAbs .o t s

/-- JNOL (R173). -/
def execJnol (t : Operand) (s : State) : Out State := jumpAbs .no t s

/-- JAL (R173). -/
def execJal (t : Operand) (s : State) : Out State := jumpAbs .a t s

/-- JBEL (R173). -/
def execJbel (t : Operand) (s : State) : Out State := jumpAbs .be t s

/-- JGL (R173). -/
def execJgl (t : Operand) (s : State) : Out State := jumpAbs .g t s

/-- JGEL (R173). -/
def execJgel (t : Operand) (s : State) : Out State := jumpAbs .ge t s

/-- JLL (R173). -/
def execJll (t : Operand) (s : State) : Out State := jumpAbs .l t s

/-- JLEL (R173). -/
def execJlel (t : Operand) (s : State) : Out State := jumpAbs .le t s

/-- JMPL (R173). -/
def execJmpl (t : Operand) (s : State) : Out State := jumpAbs .always t s

/-- RZ (R174). -/
def execRz (s : State) : Out State := returnIf .z s

/-- RNZ (R174). -/
def execRnz (s : State) : Out State := returnIf .nz s

/-- RC (R174). -/
def execRc (s : State) : Out State := returnIf .c s

/-- RNC (R174). -/
def execRnc (s : State) : Out State := returnIf .nc s

/-- RS (R174). -/
def execRs (s : State) : Out State := returnIf .s s

/-- RNS (R174). -/
def execRns (s : State) : Out State := returnIf .ns s

/-- RO (R174). -/
def execRo (s : State) : Out State := returnIf .o s

/-- RNO (R174). -/
def execRno (s : State) : Out State := returnIf .no s

/-- RA (R174). -/
def execRa (s : State) : Out State := returnIf .a s

/-- RBE (R174). -/
def execRbe (s : State) : Out State := returnIf .be s

/-- RG (R174). -/
def execRg (s : State) : Out State := returnIf .g s

/-- RGE (R174). -/
def execRge (s : State) : Out State := returnIf .ge s

/-- RL (R174). -/
def execRl (s : State) : Out State := returnIf .l s

/-- RLE (R174). -/
def execRle (s : State) : Out State := returnIf .le s

/-- RET (R174). -/
def execRet (s : State) : Out State := returnIf .always s

/-- CZ (R175). -/
def execCz (t : Operand) (s : State) : Out State := callIf .z t s

/-- CNZ (R175). -/
def execCnz (t : Operand) (s : State) : Out State := callIf .nz t s

/-- CC (R175). -/
def execCc (t : Operand) (s : State) : Out State := callIf .c t s

/-- CNC (R175). -/
def execCnc (t : Operand) (s : State) : Out State := callIf .nc t s

/-- CS (R175). -/
def execCs (t : Operand) (s : State) : Out State := callIf .s t s

/-- CNS (R175). -/
def execCns (t : Operand) (s : State) : Out State := callIf .ns t s

/-- CO (R175). -/
def execCo (t : Operand) (s : State) : Out State := callIf .o t s

/-- CNO (R175). -/
def execCno (t : Operand) (s : State) : Out State := callIf .no t s

/-- CA (R175). -/
def execCa (t : Operand) (s : State) : Out State := callIf .a t s

/-- CBE (R175). -/
def execCbe (t : Operand) (s : State) : Out State := callIf .be t s

/-- CG (R175). -/
def execCg (t : Operand) (s : State) : Out State := callIf .g t s

/-- CGE (R175). -/
def execCge (t : Operand) (s : State) : Out State := callIf .ge t s

/-- CL (R175). -/
def execCl (t : Operand) (s : State) : Out State := callIf .l t s

/-- CLE (R175). -/
def execCle (t : Operand) (s : State) : Out State := callIf .le t s

/-- CALL (R175). -/
def execCall (t : Operand) (s : State) : Out State := callIf .always t s

/-- INT: a call through the vector table; F.I and the flags are left alone (R176, R229). -/
def execInt (v : BitVec 7) (s : State) : Out State := enterHandler v false s

end Sys2Proof.Machine
end

