-- ==== Sys2Proof/Machine/Dual.lean ====
section
/-! DEFINITION. The dual operand instructions (41_dual_operand.md). `s` is the state after the fetch: `pc` addresses the
next instruction (00_scope.md R8). -/

namespace Sys2Proof.Machine

/-- A dual operand instruction that reads and writes its destination (R150): `g` is its operation on the source value. -/
def dualModify (g : Word → Alu) (src dst : Operand) (s : State) : Out State :=
  withSource src dst s fun v t => modifyOperand dst (g v) t

/-- A dual operand instruction that only reads its destination (R150, R159, R161). -/
def dualCompare (g : Word → Alu) (src dst : Operand) (s : State) : Out State :=
  withSource src dst s fun v t => compareOperand dst (g v) t

/-- MOV: "Destination := Source", no flag (R154). -/
def execMov (src dst : Operand) (s : State) : Out State :=
  withSource src dst s fun v t => writeOperand dst v t

/-- ADD: "Destination := Destination + Source" (R155). -/
def execAdd (src dst : Operand) (s : State) : Out State := dualModify (fun v => aluAdd v false) src dst s

/-- ADDC: "Destination := Destination + Source + Carry Flag" (R156). -/
def execAddc (src dst : Operand) (s : State) : Out State := dualModify (fun v d f => aluAdd v f.c d f) src dst s

/-- SUB: "Destination := Destination - Source" (R157). -/
def execSub (src dst : Operand) (s : State) : Out State := dualModify (fun v => aluSub v false) src dst s

/-- SUBB: "Destination := Destination - Source - Carry Flag", taken literally (D35) (R158). -/
def execSubb (src dst : Operand) (s : State) : Out State := dualModify (fun v d f => aluSub v f.c d f) src dst s

/-- CMP: "[Not saved] := Destination - Source" (R159). -/
def execCmp (src dst : Operand) (s : State) : Out State := dualCompare (fun v => aluSub v false) src dst s

/-- AND: "Destination := Destination & Source" (R160). -/
def execAnd (src dst : Operand) (s : State) : Out State := dualModify (fun v d => aluLogic (d &&& v)) src dst s

/-- TEST: "[Not saved] := Destination & Source" (R161). -/
def execTest (src dst : Operand) (s : State) : Out State := dualCompare (fun v d => aluLogic (d &&& v)) src dst s

/-- OR: "Destination := Destination | Source" (R162). -/
def execOr (src dst : Operand) (s : State) : Out State := dualModify (fun v d => aluLogic (d ||| v)) src dst s

/-- XOR: "Destination := Destination ^ Source" (R163). -/
def execXor (src dst : Operand) (s : State) : Out State := dualModify (fun v d => aluLogic (d ^^^ v)) src dst s

end Sys2Proof.Machine
end

