-- ==== Sys2Proof/Machine/Misc.lean ====
section
/-! DEFINITION. The miscellaneous instructions (44_misc_and_macros.md): no operand, no memory access, one flag each. -/

namespace Sys2Proof.Machine

/-- STI: F.I becomes 1 and the boundary that follows is the one right after STI (R225; log 14); with F.I already 1 it
changes nothing (R210). -/
def execSti (s : State) : Out State :=
  .next (if s.flags.i then s else { s.withFlags { s.flags with i := true } with stiShadow := true })

/-- CLI: F.I becomes 0 (R211). -/
def execCli (s : State) : Out State := .next (s.withFlags { s.flags with i := false })

/-- STC: F.C becomes 1 (R212). -/
def execStc (s : State) : Out State := .next (s.withFlags { s.flags with c := true })

/-- CLC: F.C becomes 0 (R213). -/
def execClc (s : State) : Out State := .next (s.withFlags { s.flags with c := false })

end Sys2Proof.Machine
end

