-- ==== Sys2Proof/Machine/Single.lean ====
section
/-! DEFINITION. The single operand instructions (43_single_operand.md): each is a `ModifyOperand` (R190). `n` is the
3-bit field, whose value plus one is used (R191). -/

namespace Sys2Proof.Machine

/-- SHR, shift right arithmetic (R193). -/
def execShr (n : BitVec 3) (dst : Operand) (s : State) : Out State :=
  modifyOperand dst (aluShr (countOf n)) s

/-- SHL, shift left (R194). -/
def execShl (n : BitVec 3) (dst : Operand) (s : State) : Out State :=
  modifyOperand dst (aluShl (countOf n)) s

/-- ROR, rotate right (R195). -/
def execRor (n : BitVec 3) (dst : Operand) (s : State) : Out State :=
  modifyOperand dst (aluRor (countOf n)) s

/-- ROL, rotate left (R196). -/
def execRol (n : BitVec 3) (dst : Operand) (s : State) : Out State :=
  modifyOperand dst (aluRol (countOf n)) s

/-- ADDI, add immediate (R197). -/
def execAddi (n : BitVec 3) (dst : Operand) (s : State) : Out State :=
  modifyOperand dst (aluAddi (countOf n)) s

/-- SUBI, subtract immediate (R198). -/
def execSubi (n : BitVec 3) (dst : Operand) (s : State) : Out State :=
  modifyOperand dst (aluSubi (countOf n)) s

/-- NOT, 1's complement (R199). -/
def execNot (dst : Operand) (s : State) : Out State := modifyOperand dst aluNot s

/-- NEG, 2's complement (R200). -/
def execNeg (dst : Operand) (s : State) : Out State := modifyOperand dst aluNeg s

/-- CBW, convert byte to word (R201). -/
def execCbw (dst : Operand) (s : State) : Out State := modifyOperand dst aluCbw s

end Sys2Proof.Machine
end

