-- ==== Sys2Proof/Machine/Dispatch.lean ====
section
/-! DEFINITION. The dispatch: one arm per constructor of `Instr`, each a direct call of the instruction's meaning. -/

namespace Sys2Proof.Machine

def exec (i : Instr) (s : State) : Host.Outcome State Fault Refusal :=
  match i with
  | .mov src dst => Sys2Proof.Machine.execMov src dst s
  | .add src dst => Sys2Proof.Machine.execAdd src dst s
  | .addc src dst => Sys2Proof.Machine.execAddc src dst s
  | .sub src dst => Sys2Proof.Machine.execSub src dst s
  | .subb src dst => Sys2Proof.Machine.execSubb src dst s
  | .cmp src dst => Sys2Proof.Machine.execCmp src dst s
  | .and src dst => Sys2Proof.Machine.execAnd src dst s
  | .test src dst => Sys2Proof.Machine.execTest src dst s
  | .or src dst => Sys2Proof.Machine.execOr src dst s
  | .xor src dst => Sys2Proof.Machine.execXor src dst s
  | .jz off => Sys2Proof.Machine.execJz off s
  | .jnz off => Sys2Proof.Machine.execJnz off s
  | .jc off => Sys2Proof.Machine.execJc off s
  | .jnc off => Sys2Proof.Machine.execJnc off s
  | .js off => Sys2Proof.Machine.execJs off s
  | .jns off => Sys2Proof.Machine.execJns off s
  | .jo off => Sys2Proof.Machine.execJo off s
  | .jno off => Sys2Proof.Machine.execJno off s
  | .ja off => Sys2Proof.Machine.execJa off s
  | .jbe off => Sys2Proof.Machine.execJbe off s
  | .jg off => Sys2Proof.Machine.execJg off s
  | .jge off => Sys2Proof.Machine.execJge off s
  | .jl off => Sys2Proof.Machine.execJl off s
  | .jle off => Sys2Proof.Machine.execJle off s
  | .jmp off => Sys2Proof.Machine.execJmp off s
  | .jzl t => Sys2Proof.Machine.execJzl t s
  | .jnzl t => Sys2Proof.Machine.execJnzl t s
  | .jcl t => Sys2Proof.Machine.execJcl t s
  | .jncl t => Sys2Proof.Machine.execJncl t s
  | .jsl t => Sys2Proof.Machine.execJsl t s
  | .jnsl t => Sys2Proof.Machine.execJnsl t s
  | .jol t => Sys2Proof.Machine.execJol t s
  | .jnol t => Sys2Proof.Machine.execJnol t s
  | .jal t => Sys2Proof.Machine.execJal t s
  | .jbel t => Sys2Proof.Machine.execJbel t s
  | .jgl t => Sys2Proof.Machine.execJgl t s
  | .jgel t => Sys2Proof.Machine.execJgel t s
  | .jll t => Sys2Proof.Machine.execJll t s
  | .jlel t => Sys2Proof.Machine.execJlel t s
  | .jmpl t => Sys2Proof.Machine.execJmpl t s
  | .rz => Sys2Proof.Machine.execRz s
  | .rnz => Sys2Proof.Machine.execRnz s
  | .rc => Sys2Proof.Machine.execRc s
  | .rnc => Sys2Proof.Machine.execRnc s
  | .rs => Sys2Proof.Machine.execRs s
  | .rns => Sys2Proof.Machine.execRns s
  | .ro => Sys2Proof.Machine.execRo s
  | .rno => Sys2Proof.Machine.execRno s
  | .ra => Sys2Proof.Machine.execRa s
  | .rbe => Sys2Proof.Machine.execRbe s
  | .rg => Sys2Proof.Machine.execRg s
  | .rge => Sys2Proof.Machine.execRge s
  | .rl => Sys2Proof.Machine.execRl s
  | .rle => Sys2Proof.Machine.execRle s
  | .ret => Sys2Proof.Machine.execRet s
  | .cz t => Sys2Proof.Machine.execCz t s
  | .cnz t => Sys2Proof.Machine.execCnz t s
  | .cc t => Sys2Proof.Machine.execCc t s
  | .cnc t => Sys2Proof.Machine.execCnc t s
  | .cs t => Sys2Proof.Machine.execCs t s
  | .cns t => Sys2Proof.Machine.execCns t s
  | .co t => Sys2Proof.Machine.execCo t s
  | .cno t => Sys2Proof.Machine.execCno t s
  | .ca t => Sys2Proof.Machine.execCa t s
  | .cbe t => Sys2Proof.Machine.execCbe t s
  | .cg t => Sys2Proof.Machine.execCg t s
  | .cge t => Sys2Proof.Machine.execCge t s
  | .cl t => Sys2Proof.Machine.execCl t s
  | .cle t => Sys2Proof.Machine.execCle t s
  | .call t => Sys2Proof.Machine.execCall t s
  | .int v => Sys2Proof.Machine.execInt v s
  | .shr n dst => Sys2Proof.Machine.execShr n dst s
  | .shl n dst => Sys2Proof.Machine.execShl n dst s
  | .ror n dst => Sys2Proof.Machine.execRor n dst s
  | .rol n dst => Sys2Proof.Machine.execRol n dst s
  | .addi n dst => Sys2Proof.Machine.execAddi n dst s
  | .subi n dst => Sys2Proof.Machine.execSubi n dst s
  | .not dst => Sys2Proof.Machine.execNot dst s
  | .neg dst => Sys2Proof.Machine.execNeg dst s
  | .cbw dst => Sys2Proof.Machine.execCbw dst s
  | .sti => Sys2Proof.Machine.execSti s
  | .cli => Sys2Proof.Machine.execCli s
  | .stc => Sys2Proof.Machine.execStc s
  | .clc => Sys2Proof.Machine.execClc s

end Sys2Proof.Machine
end

