-- ==== Sys2Proof/Machine/Fetch.lean ====
section
/-! DEFINITION. Fetching an instruction (30_encoding.md R81, R92), and placing one where the next step fetches it. -/

namespace Sys2Proof.Machine

/-- `fetch16` (R81): the word at `pc`, `pc` advanced by 2. A fetch at an odd `pc` faults (R33, R233). -/
def fetch16 (s : State) : Out (Word × State) :=
  if isOdd s.pc then .fault .oddPC
  else bindOut (load s.pc .word s) fun p => .next (p.1, { p.2 with pc := p.2.pc + 2 })

/-- Fetch an extension word if one is due, else answer 0 and fetch nothing (R92). -/
def fetchExt (due : Bool) (s : State) : Out (Word × State) := if due then fetch16 s else .next (0, s)

/-- Fetch the instruction word and its extension words, the source's first, and decode them (R81). A reserved word
faults before any extension word is fetched (R99, R227). -/
def fetchInstr (s : State) : Out (Instr × State) :=
  bindOut (fetch16 s) fun p0 =>
  bindOut (fetchExt (decide (1 ≤ extCount p0.1)) p0.2) fun p1 =>
  bindOut (fetchExt (decide (2 ≤ extCount p0.1)) p1.2) fun p2 =>
  match decode p0.1 p1.1 p2.1 with
  | .ok i => .next (i, p2.2)
  | .error _ => .fault (.reservedInstruction p0.1)

/-- The boundary between two instructions has passed: the STI shadow is over (R225), and the free values of this
boundary are drawn (log 15). -/
def boundaryPassed (s : State) : State := { s.drawn with stiShadow := false }

/-- Put words into memory from address `a` on, whatever `MemMap` says there: loading a memory image (log 19). -/
def placeWords (a : Word) : List Word → State → State
  | [], s => s
  | v :: vs, s => placeWords (a + 2) vs (s.setWord a v)

end Sys2Proof.Machine
end

