-- ==== Sys2Proof/Machine/Step.lean ====
section
/-! DEFINITION. One step of the machine (60_exceptions.md R241): the environment's action, or the CPU taking an acceptable
hardware interrupt or fetching and executing one instruction. -/

namespace Sys2Proof.Machine

/-- Fetch, decode and execute one instruction. -/
def instrStep (s : State) : Host.Outcome State Fault Refusal :=
  bindOut (fetchInstr (boundaryPassed s)) fun p => exec p.1 p.2

/-- One step of the CPU (R223, R241). -/
def cpuStep (s : State) : Host.Outcome State Fault Refusal :=
  match irqTaken s with
  | some h => takeInterrupt h (boundaryPassed s)
  | none => instrStep s

/-- One step: of the agent whose turn it is (R241). -/
def step (s : State) : Host.Outcome State Fault Refusal :=
  match envMove s with
  | some act => .next (environment act (turnTaken s))
  | none => cpuStep (turnTaken s)

/-- The state with the instruction whose bits are `w` (numbered as the opcode table numbers them, the bits from `nbits`
on being 0) in memory at `pc`, where the next step fetches. At reset that is the ROM at 0xFFF0, whose content is an
input (R251; log 19). The coming step is the CPU's; nothing else is changed. -/
def State.withFetchWord (s : State) (nbits w : Nat) : State :=
  placeWords s.pc (tableWords nbits w) { s with turns := .cpu :: s.turns }

end Sys2Proof.Machine
end

