-- ==== Sys2Proof/Safety.lean ====
section
/-! DEFINITION. What counts as a safe access and a sound state, in the terms the claims use: when an operand can be
accessed at all, what accessing it gives, which bytes of memory it changes, and the invariant of the machine. -/

namespace Sys2Proof.Machine

/-! ### The invariant -/

/-- What every step keeps: memory in its canonical form, `pc` even (10_state.md R33), the latches as a set. -/
abbrev State.Inv (s : State) : Prop :=
  s.mem.wf ∧ isOdd s.pc = false ∧ s.pending.Pairwise (· < ·)

/-! ### Accesses that do not stop (the complement of 60_exceptions.md R233) -/

/-- A register can be accessed: the window is in RAM (R63). -/
def regsOk (s : State) : Bool := windowInRam s.memMap s.regbank

/-- A load of width `w` at `a` completes: a word at an even address with both bytes mapped, or a byte of RAM, ROM or a
device. -/
def loadOk (m : MemMap) (a : Word) : Width → Bool
  | .word => !isOdd a && !someByteIs m .unmapped a .word
  | .byte => memClass m a == .ram || memClass m a == .rom || memClass m a == .device

/-- A store of width `w` at `a` completes: as a load, and with no byte in ROM. -/
def storeOk (m : MemMap) (a : Word) (w : Width) : Bool := loadOk m a w && !someByteIs m .rom a w

/-- A read-modify-write at `a` completes: as a store, and not the Flags register. -/
def modifyOk (m : MemMap) (a : Word) (w : Width) : Bool := storeOk m a w && memClass m a != .flags

/-- A stack slot can be pushed to or popped from: an even address with both bytes in RAM. -/
def slotOk (m : MemMap) (a : Word) : Bool := !isOdd a && everyByteIs m .ram a .word

/-- The operand can be read (40_operands.md R130). -/
def readable (op : Operand) (s : State) : Bool :=
  match op with
  | .reg _ => regsOk s
  | .imm _ => true
  | .direct w a => loadOk s.memMap a w
  | .indirect w r => regsOk s && loadOk s.memMap (s.reg r) w
  | .autoInc w r => regsOk s && loadOk s.memMap (s.reg r) w
  | .stack => regsOk s && slotOk s.memMap (s.reg 15)
  | .indexed w r off => regsOk s && loadOk s.memMap (s.reg r + off) w

/-- The value of a readable operand (R130). -/
def readValue (op : Operand) (s : State) : Word :=
  match op with
  | .reg n => s.reg n
  | .imm v => v
  | .direct w a => loadValue a w s
  | .indirect w r => loadValue (s.reg r) w s
  | .autoInc w r => loadValue (s.reg r) w s
  | .stack => s.wordAt (s.reg 15)
  | .indexed w r off => loadValue (s.reg r + off) w s

/-- The state after reading a readable operand (R130): the side effect of its mode. -/
def afterRead (op : Operand) (s : State) : State :=
  match op with
  | .reg _ => s
  | .imm _ => s
  | .direct w a => afterLoad a w s
  | .indirect w r => afterLoad (s.reg r) w s
  | .autoInc w r => (afterLoad (s.reg r) w s).setReg r (s.reg r + stepOf w)
  | .stack => s.setReg 15 (s.reg 15 + 2)
  | .indexed w r off => afterLoad (s.reg r + off) w s

/-- The operand can be written with `v` (R131). An auto increment's register is written back after the store, in the
window REGBANK then selects (R135). -/
def writable (op : Operand) (v : Word) (s : State) : Bool :=
  match op with
  | .reg _ => regsOk s
  | .imm _ => false
  | .direct w a => storeOk s.memMap a w
  | .indirect w r => regsOk s && storeOk s.memMap (s.reg r) w
  | .autoInc w r => regsOk s && storeOk s.memMap (s.reg r) w && regsOk (storeState (s.reg r) w v s)
  | .stack => regsOk s && slotOk s.memMap (pushAddr s)
  | .indexed w r off => regsOk s && storeOk s.memMap (s.reg r + off) w

/-- The state after writing `v` to a writable operand (R131). -/
def afterWrite (op : Operand) (v : Word) (s : State) : State :=
  match op with
  | .reg n => s.setReg n v
  | .imm _ => s
  | .direct w a => storeState a w v s
  | .indirect w r => storeState (s.reg r) w v s
  | .autoInc w r => (storeState (s.reg r) w v s).setReg r (s.reg r + stepOf w)
  | .stack => (s.setReg 15 (pushAddr s)).setWord (pushAddr s) v
  | .indexed w r off => storeState (s.reg r + off) w v s

/-- The operand can be read, changed by `g` and written (R132). -/
def modifiable (op : Operand) (g : Alu) (s : State) : Bool :=
  match op with
  | .reg _ => regsOk s
  | .imm _ => false
  | .direct w a => modifyOk s.memMap a w
  | .indirect w r => regsOk s && modifyOk s.memMap (s.reg r) w
  | .autoInc w r => regsOk s && modifyOk s.memMap (s.reg r) w && regsOk (modifiedAt (s.reg r) w g s)
  | .stack => false
  | .indexed w r off => regsOk s && modifyOk s.memMap (s.reg r + off) w

/-- The state after changing a modifiable operand by `g` (R132): the result in place, the flags written, one
increment. -/
def afterModify (op : Operand) (g : Alu) (s : State) : State :=
  match op with
  | .reg n => (s.setReg n (g (s.reg n) s.flags).1).withFlags (g (s.reg n) s.flags).2
  | .imm _ => s
  | .direct w a => modifiedAt a w g s
  | .indirect w r => modifiedAt (s.reg r) w g s
  | .autoInc w r => (modifiedAt (s.reg r) w g s).setReg r (s.reg r + stepOf w)
  | .stack => s
  | .indexed w r off => modifiedAt (s.reg r + off) w g s

/-- The effective address of a memory operand (R123, R125, R126, R128); none for a register, an immediate and the stack
operand. -/
def operandAddr (op : Operand) (s : State) : Option Word :=
  match op with
  | .direct _ a => some a
  | .indirect _ r => some (s.reg r)
  | .autoInc _ r => some (s.reg r)
  | .indexed _ r off => some (s.reg r + off)
  | .reg _ | .imm _ | .stack => none

/-- The width of an operand: a register, an immediate and the stack operand are words (R85, R86, R127). -/
def operandWidth : Operand → Width
  | .direct w _ | .indirect w _ | .autoInc w _ | .indexed w _ _ => w
  | .reg _ | .imm _ | .stack => .word

/-- Some byte the operand lies at is of class `c`. -/
def targets (op : Operand) (s : State) (c : Region) : Bool :=
  match operandAddr op s with
  | some a => someByteIs s.memMap c a (operandWidth op)
  | none => false

/-- Some byte the operand lies at is a byte of the Interrupt Enable register. -/
def targetsIntEnable (op : Operand) (s : State) : Bool :=
  match operandAddr op s with
  | some a => isIntEnable a
  | none => false

/-- Accessing the operand accesses a register of the window (10_state.md R22). -/
def usesRegister : Operand → Bool
  | .reg _ | .indirect _ _ | .autoInc _ _ | .stack | .indexed _ _ _ => true
  | .imm _ | .direct _ _ => false

/-- Both bytes of the word at `a` are RAM or ROM, so that a fetch there reads memory. -/
def wordInMemory (s : State) (a : Word) : Bool :=
  [a, a + 1].all fun b => memClass s.memMap b == .ram || memClass s.memMap b == .rom

/-! ### The bytes of memory an access changes -/

/-- The byte addresses of an access of width `w` at `a`. -/
def bytesAt (a : Word) : Width → List Word
  | .word => [a, a + 1]
  | .byte => [a]

/-- The bytes of memory a store at `a` changes: those of its bytes that are RAM. -/
def storedBytes (m : MemMap) (a : Word) (w : Width) : List Word := (bytesAt a w).filter fun b => memClass m b == .ram

/-- The bytes of register `r` in the current window. -/
def regBytes (s : State) (r : RegNum) : List Word := bytesAt (regAddr s.regbank r) .word

/-- The bytes that reading an operand changes: those of the register its mode advances (R126, R127). -/
def readBytes (op : Operand) (s : State) : List Word :=
  match op with
  | .autoInc _ r => regBytes s r
  | .stack => regBytes s 15
  | .reg _ | .imm _ | .direct _ _ | .indirect _ _ | .indexed _ _ _ => []

/-- The bytes that writing `v` to an operand changes (R131). -/
def writeBytes (op : Operand) (v : Word) (s : State) : List Word :=
  match op with
  | .reg n => regBytes s n
  | .imm _ => []
  | .direct w a => storedBytes s.memMap a w
  | .indirect w r => storedBytes s.memMap (s.reg r) w
  | .autoInc w r => storedBytes s.memMap (s.reg r) w ++ regBytes (storeState (s.reg r) w v s) r
  | .stack => regBytes s 15 ++ bytesAt (pushAddr s) .word
  | .indexed w r off => storedBytes s.memMap (s.reg r + off) w

/-- The bytes that changing an operand by `g` changes (R132). -/
def modifyBytes (op : Operand) (g : Alu) (s : State) : List Word :=
  match op with
  | .reg n => regBytes s n
  | .imm _ => []
  | .direct w a => storedBytes s.memMap a w
  | .indirect w r => storedBytes s.memMap (s.reg r) w
  | .autoInc w r => storedBytes s.memMap (s.reg r) w ++ regBytes (modifiedAt (s.reg r) w g s) r
  | .stack => []
  | .indexed w r off => storedBytes s.memMap (s.reg r + off) w

/-- Every byte of memory outside `l` reads in `t` as in `s`. -/
def SameBytesOutside (l : List Word) (s t : State) : Prop := ∀ a : Word, a ∉ l → t.byteAt a = s.byteAt a

/-- The state but for memory, flags, `pc` and the draws is the same: REGBANK, Interrupt Enable, the latches, the STI
shadow, the device writes, the memory map and the turns to come. -/
def SameControl (s t : State) : Prop :=
  t.regbank = s.regbank ∧ t.intEnable = s.intEnable ∧ t.pending = s.pending ∧ t.stiShadow = s.stiShadow ∧
    t.devWrites = s.devWrites ∧ t.memMap = s.memMap ∧ t.turns = s.turns

/-- What writing the operand `dst`, evaluated in `u`, leaves of the control state: the latches, the STI shadow, the memory
map and the turns always; REGBANK unless `dst` is REGBANK; the device writes unless `dst` lies at a device register, and
Interrupt Enable unless it is that one. -/
def SameControlBut (dst : Operand) (u s t : State) : Prop :=
  t.pending = s.pending ∧ t.stiShadow = s.stiShadow ∧ t.memMap = s.memMap ∧ t.turns = s.turns ∧
    (targets dst u .regbank = false → t.regbank = s.regbank) ∧
    (targets dst u .device = false → t.devWrites = s.devWrites ∧ t.intEnable = s.intEnable) ∧
    (targetsIntEnable dst u = false → t.intEnable = s.intEnable)

/-! ### The instructions by family and by the flags they write -/

/-- The ten dual operand instructions (R150). -/
def dualInstrs (src dst : Operand) : List Instr :=
  [.mov src dst, .add src dst, .addc src dst, .sub src dst, .subb src dst, .cmp src dst, .and src dst, .test src dst,
   .or src dst, .xor src dst]

/-- The dual operand instructions that write their destination and compute flags (R153). -/
def dualModifies (src dst : Operand) : List Instr :=
  [.add src dst, .addc src dst, .sub src dst, .subb src dst, .and src dst, .or src dst, .xor src dst]

/-- The nine single operand instructions (R190). -/
def singleInstrs (n : BitVec 3) (dst : Operand) : List Instr :=
  [.shr n dst, .shl n dst, .ror n dst, .rol n dst, .addi n dst, .subi n dst, .not dst, .neg dst, .cbw dst]

/-- The four logical instructions, each with its result from destination and source value (R160 to R163). -/
def logicalInstrs (src dst : Operand) : List (Instr × (Word → Word → Word)) :=
  [(.and src dst, fun d v => d &&& v), (.test src dst, fun d v => d &&& v), (.or src dst, fun d v => d ||| v),
   (.xor src dst, fun d v => d ^^^ v)]

/-- The rows of the table of 10_state.md R28: which flags an instruction writes. -/
inductive FlagGroup where
  /-- none; all five as data where the destination is the Flags register -/
  | move (src dst : Operand)
  /-- none -/
  | none
  /-- Z, C, O, S -/
  | zcos
  /-- Z, S -/
  | zs
  /-- Z, C, S -/
  | zcs
  /-- I -/
  | i
  /-- C -/
  | c
deriving DecidableEq, Repr

/-- The row of R28 an instruction stands in. -/
def flagGroup : Instr → FlagGroup
  | .mov src dst => .move src dst
  | .add _ _ | .addc _ _ | .sub _ _ | .subb _ _ | .cmp _ _ | .neg _ => .zcos
  | .and _ _ | .test _ _ | .or _ _ | .xor _ _ | .addi _ _ | .subi _ _ | .not _ | .cbw _ => .zs
  | .shr _ _ | .shl _ _ | .ror _ _ | .rol _ _ => .zcs
  | .sti | .cli => .i
  | .stc | .clc => .c
  | .jz _ | .jnz _ | .jc _ | .jnc _ | .js _ | .jns _ | .jo _ | .jno _ | .ja _ | .jbe _ | .jg _ | .jge _ | .jl _
  | .jle _ | .jmp _ => .none
  | .jzl _ | .jnzl _ | .jcl _ | .jncl _ | .jsl _ | .jnsl _ | .jol _ | .jnol _ | .jal _ | .jbel _ | .jgl _ | .jgel _
  | .jll _ | .jlel _ | .jmpl _ => .none
  | .rz | .rnz | .rc | .rnc | .rs | .rns | .ro | .rno | .ra | .rbe | .rg | .rge | .rl | .rle | .ret => .none
  | .cz _ | .cnz _ | .cc _ | .cnc _ | .cs _ | .cns _ | .co _ | .cno _ | .ca _ | .cbe _ | .cg _ | .cge _ | .cl _
  | .cle _ | .call _ => .none
  | .int _ => .none

/-- The flags an instruction leaves alone, by the table of R28. -/
def FlagsKept (i : Instr) (s t : State) : Prop :=
  match flagGroup i with
  | .move src dst =>
    t.flags = if targets dst (afterRead src s) .flags then Flags.ofWord (readValue src s) else s.flags
  | .none => t.flags = s.flags
  | .zcos => t.flags.i = s.flags.i
  | .zs => t.flags.c = s.flags.c ∧ t.flags.o = s.flags.o ∧ t.flags.i = s.flags.i
  | .zcs => t.flags.o = s.flags.o ∧ t.flags.i = s.flags.i
  | .i => t.flags.z = s.flags.z ∧ t.flags.c = s.flags.c ∧ t.flags.o = s.flags.o ∧ t.flags.s = s.flags.s
  | .c => t.flags.z = s.flags.z ∧ t.flags.o = s.flags.o ∧ t.flags.s = s.flags.s ∧ t.flags.i = s.flags.i

/-! ### Reserved words -/

/-- The list of reserved instruction words, as masks and matches (30_encoding.md R99). -/
def isReserved (iw : Word) : Bool :=
  (iw &&& 0xF000#16 == 0xB000#16) || (iw &&& 0xF000#16 == 0xE000#16) || (iw &&& 0xF000#16 == 0xF000#16) ||
  (iw &&& 0xF0C0#16 == 0xA0C0#16) ||
  ((iw &&& 0xF080#16 == 0xA000#16) && (iw &&& 0x0F00#16 != 0x0F00#16)) ||
  (iw &&& 0xFFC0#16 == 0xAE80#16) ||
  (iw &&& 0xFF00#16 == 0xCE00#16) ||
  ((iw &&& 0xF0C0#16 == 0xC0C0#16) && (iw &&& 0x0F00#16 != 0x0E00#16)) ||
  (iw &&& 0xFE00#16 == 0xDC00#16) ||
  (iw &&& 0xFFC0#16 == 0xDE80#16) || (iw &&& 0xFFC0#16 == 0xDEC0#16) ||
  (iw &&& 0xFFC0#16 == 0xDF40#16) || (iw &&& 0xFFC0#16 == 0xDF80#16) ||
  ((iw &&& 0xFFC0#16 == 0xDFC0#16) && decide (4 ≤ (iw &&& 0x003F#16).toNat))

/-! ### Operations as the rules print them -/

/-- Addition by the bit formulas of 41_dual_operand.md R151. -/
def addRule (v : Word) (cin : Bool) (d : Word) (f : Flags) : Word × Flags :=
  let r := d + v + BitVec.ofNat 16 cin.toNat
  (r, { z := decide (r = 0)
        c := decide (2 ^ 16 ≤ d.toNat + v.toNat + cin.toNat)
        o := (~~~(d ^^^ v) &&& (d ^^^ r)).getLsbD 15
        s := r.getLsbD 15
        i := f.i })

/-- Subtraction by the bit formulas of R151: C is the borrow. -/
def subRule (v : Word) (cin : Bool) (d : Word) (f : Flags) : Word × Flags :=
  let r := d - v - BitVec.ofNat 16 cin.toNat
  (r, { z := decide (r = 0)
        c := decide (d.toNat < v.toNat + cin.toNat)
        o := ((d ^^^ v) &&& (d ^^^ r)).getLsbD 15
        s := r.getLsbD 15
        i := f.i })

/-- A result with Z and S by R152, the other flags unchanged. -/
def logicRule (r : Word) (f : Flags) : Word × Flags :=
  (r, { z := decide (r = 0), c := f.c, o := f.o, s := r.getLsbD 15, i := f.i })

/-- A result with Z, S and the carry `out`, O and I unchanged (43_single_operand.md R193 to R196). -/
def shiftRule (r : Word) (out : Bool) (f : Flags) : Word × Flags :=
  (r, { z := decide (r = 0), c := out, o := f.o, s := r.getLsbD 15, i := f.i })

/-- The dual operand instructions that write their destination and flags, each with its operation on the source value
`v` (R155 to R158, R160, R162, R163). -/
def dualModifyRules (src dst : Operand) (v : Word) : List (Instr × Alu) :=
  [(.add src dst, addRule v false), (.addc src dst, fun d f => addRule v f.c d f),
   (.sub src dst, subRule v false), (.subb src dst, fun d f => subRule v f.c d f),
   (.and src dst, fun d => logicRule (d &&& v)), (.or src dst, fun d => logicRule (d ||| v)),
   (.xor src dst, fun d => logicRule (d ^^^ v))]

/-- The dual operand instructions that only read their destination (R159, R161). -/
def dualCompareRules (src dst : Operand) (v : Word) : List (Instr × Alu) :=
  [(.cmp src dst, subRule v false), (.test src dst, fun d => logicRule (d &&& v))]

/-- The single operand instructions with a count or constant, `k` the value used (R193 to R198). SHR is the floor
division of the signed value by 2^k, SHL the product by 2^k. -/
def countRules (n : BitVec 3) (dst : Operand) : List (Instr × Alu) :=
  let k := n.toNat + 1
  [(.shr n dst, fun d => shiftRule (BitVec.ofInt 16 (d.toInt / 2 ^ k)) (d.getLsbD (k - 1))),
   (.shl n dst, fun d => shiftRule (BitVec.ofNat 16 (d.toNat * 2 ^ k)) (d.getLsbD (16 - k))),
   (.ror n dst, fun d => shiftRule (d.rotateRight k) (d.getLsbD (k - 1))),
   (.rol n dst, fun d => shiftRule (d.rotateLeft k) (d.getLsbD (16 - k))),
   (.addi n dst, fun d => logicRule (d + BitVec.ofNat 16 k)),
   (.subi n dst, fun d => logicRule (d - BitVec.ofNat 16 k))]

/-- NOT, NEG and CBW (R199 to R201). NEG's flags as R200 prints them. -/
def unaryRules (dst : Operand) : List (Instr × Alu) :=
  [(.not dst, fun d => logicRule (~~~d)),
   (.neg dst, fun d f =>
     (-d, { z := decide (d = 0), c := decide (d ≠ 0), o := decide (d = 0x8000), s := (-d).getLsbD 15, i := f.i })),
   (.cbw dst, fun d => logicRule (BitVec.ofInt 16 (d.extractLsb' 0 8).toInt))]

/-! ### The condition table (42_program_control.md R171), with each instruction beside its truth column -/

/-- Jcc with what PG Table 2-1 says must hold for it to be taken (R171, R172). -/
def relJumps (off : BitVec 7) (f : Flags) : List (Instr × Prop) :=
  [(.jz off, f.z = true), (.jnz off, f.z = false), (.jc off, f.c = true), (.jnc off, f.c = false),
   (.js off, f.s = true), (.jns off, f.s = false), (.jo off, f.o = true), (.jno off, f.o = false),
   (.ja off, f.z = false ∧ f.c = false), (.jbe off, f.z = true ∨ f.c = true),
   (.jg off, f.o = f.s ∧ f.z = false), (.jge off, f.o = f.s), (.jl off, f.o ≠ f.s),
   (.jle off, f.o ≠ f.s ∨ f.z = true), (.jmp off, True)]

/-- JccL with the truth column (R171, R173). -/
def absJumps (t : Operand) (f : Flags) : List (Instr × Prop) :=
  [(.jzl t, f.z = true), (.jnzl t, f.z = false), (.jcl t, f.c = true), (.jncl t, f.c = false),
   (.jsl t, f.s = true), (.jnsl t, f.s = false), (.jol t, f.o = true), (.jnol t, f.o = false),
   (.jal t, f.z = false ∧ f.c = false), (.jbel t, f.z = true ∨ f.c = true),
   (.jgl t, f.o = f.s ∧ f.z = false), (.jgel t, f.o = f.s), (.jll t, f.o ≠ f.s),
   (.jlel t, f.o ≠ f.s ∨ f.z = true), (.jmpl t, True)]

/-- Rcc with the truth column (R171, R174). -/
def returns (f : Flags) : List (Instr × Prop) :=
  [(.rz, f.z = true), (.rnz, f.z = false), (.rc, f.c = true), (.rnc, f.c = false),
   (.rs, f.s = true), (.rns, f.s = false), (.ro, f.o = true), (.rno, f.o = false),
   (.ra, f.z = false ∧ f.c = false), (.rbe, f.z = true ∨ f.c = true),
   (.rg, f.o = f.s ∧ f.z = false), (.rge, f.o = f.s), (.rl, f.o ≠ f.s),
   (.rle, f.o ≠ f.s ∨ f.z = true), (.ret, True)]

/-- Ccc with the truth column (R171, R175). -/
def calls (t : Operand) (f : Flags) : List (Instr × Prop) :=
  [(.cz t, f.z = true), (.cnz t, f.z = false), (.cc t, f.c = true), (.cnc t, f.c = false),
   (.cs t, f.s = true), (.cns t, f.s = false), (.co t, f.o = true), (.cno t, f.o = false),
   (.ca t, f.z = false ∧ f.c = false), (.cbe t, f.z = true ∨ f.c = true),
   (.cg t, f.o = f.s ∧ f.z = false), (.cge t, f.o = f.s), (.cl t, f.o ≠ f.s),
   (.cle t, f.o ≠ f.s ∨ f.z = true), (.call t, True)]

end Sys2Proof.Machine
end

