-- ==== Sys2Proof/Certificates/Slice0/Obligations.lean ====
section
/-! DEFINITION. The statements for the provers, each a `def Obligations.<Name> : Prop`. A docstring names the rules the
statement formalises, and the log entries of notes/assumptions where it rests on a choice of the model or on a decision
the spec marks as its own. -/

open Sys2Proof Sys2Proof.Machine

/-! ### Encoding (30_encoding.md) -/

/-- Every well-formed instruction's words decode to it, whatever follows (R80 to R98). -/
def Obligations.DecodeOfEncode : Prop :=
  ∀ (i : Instr) (ws : List Word), i.wf = true → decodeWords (encode i ++ ws) = .ok (i, ws)

/-- A word list that decodes is the encoding of a well-formed instruction and the rest: each instruction has one
spelling (R98; 0xC?97 read as Rcc, log 20). -/
def Obligations.EncodeOfDecode : Prop :=
  ∀ (ws : List Word) (i : Instr) (rest : List Word),
    decodeWords ws = .ok (i, rest) → i.wf = true ∧ ws = encode i ++ rest

/-- The same round trip over bytes in address order, with the byte order of log 1 (R53). -/
def Obligations.DecodeBytesOfEncodeBytes : Prop :=
  ∀ (i : Instr) (bs : List Byte), i.wf = true → decodeBytes (encodeBytes i ++ bs) = .ok (i, bs)

/-- The decoder refuses exactly the reserved words of the table of R99, whatever follows them, and a step at one faults
(D10). -/
def Obligations.ReservedWords : Prop :=
  (∀ iw e1 e2 : Word, decode iw e1 e2 = .error (.reserved iw) ↔ isReserved iw = true) ∧
    (∀ iw e1 e2 : Word, isReserved iw = false → ∃ i, decode iw e1 e2 = .ok i) ∧
    ∀ s : State, envMove s = none → irqTaken s = none → isOdd s.pc = false → wordInMemory s s.pc = true →
      isReserved (s.wordAt s.pc) = true → step s = .fault (.reservedInstruction (s.wordAt s.pc))

/-- Words written out in the spec decode to the instructions it gives them (R139, R154 to R213). -/
def Obligations.DecodeExamples : Prop :=
  decode 0x07C1 0x0123 0 = .ok (.mov (.imm 0x0123) (.reg 1)) ∧
  decode 0x09E7 0x1234 0x5678 = .ok (.mov (.direct .word 0x1234) (.direct .word 0x5678)) ∧
  decode 0x0A85 0 0 = .ok (.mov (.autoInc .byte 10) (.reg 5)) ∧
  decode 0x0CCB 0x0040 0 = .ok (.mov (.indexed .word 11 0x0040) (.reg 11)) ∧
  decode 0x1087 0 0 = .ok (.add (.reg 2) (.reg 7)) ∧
  decode 0xC17E 0 0 = .ok (.jnz 0x7E) ∧
  decode 0xCF9F 0x1234 0 = .ok (.jmpl (.imm 0x1234)) ∧
  decode 0xCF97 0 0 = .ok .ret ∧
  decode 0xAF9F 0x0300 0 = .ok (.call (.imm 0x0300)) ∧
  decode 0xAF48 0 0 = .ok (.int 72) ∧
  decode 0xD241 0 0 = .ok (.shl 1 (.reg 1)) ∧
  decode 0xDF00 0 0 = .ok (.cbw (.reg 0)) ∧
  decode 0xDFC0 0 0 = .ok .sti

/-! ### One step (60_exceptions.md) -/

/-- A step of the CPU that takes no interrupt runs the instruction whose words stand at `pc`, with `pc` moved past all
its words (R32, R81), after the turn is used up (log 13) and the boundary's own effects (log 15: a draw; R225: the STI
shadow is over). -/
def Obligations.StepRunsDecodedInstruction : Prop :=
  ∀ (s : State) (i : Instr) (rest : List Word),
    envMove s = none → irqTaken s = none → isOdd s.pc = false →
    decodeWords [s.wordAt s.pc, s.wordAt (s.pc + 2), s.wordAt (s.pc + 4)] = .ok (i, rest) →
    (∀ k, k < (encode i).length → wordInMemory s (s.pc + BitVec.ofNat 16 (2 * k)) = true) →
    step s = exec i { boundaryPassed (turnTaken s) with pc := s.pc + BitVec.ofNat 16 (2 * (encode i).length) }

/-- A step is the move of one agent (R241; whose move it is, is data of the state, log 13). A move of the CPU is an
instruction, or the entry of an interrupt that is pending, enabled, unmasked and not in an STI shadow (R223, R225). A move
of the environment sets one latch (R226), or writes one byte, which is then what a load reads if it is RAM (R65; for a
device register log 24), or reads; it changes nothing else. -/
def Obligations.StepOfOneAgent : Prop :=
  (∀ s : State, envMove s = none →
    (irqTaken s = none ∧ step s = instrStep (turnTaken s)) ∨
    ∃ h : Fin 64, step s = takeInterrupt h (boundaryPassed (turnTaken s)) ∧ s.flags.i = true ∧ h ∈ s.pending ∧
      Config.hwVector h = true ∧ Config.irqEnabled s.draws h s.intEnable = true ∧
      (s.stiShadow = true → Config.stiShadow = false)) ∧
  ∀ (s : State) (act : EnvAction), s.mem.wf → envMove s = some act →
    ∃ t, step s = .next t ∧ t.turns = s.turns.tail ∧ t.pc = s.pc ∧ t.flags = s.flags ∧ t.regbank = s.regbank ∧
      t.stiShadow = s.stiShadow ∧ t.devWrites = s.devWrites ∧ t.draws = s.draws ∧ t.memMap = s.memMap ∧
      match act with
      | .request h => t.mem = s.mem ∧ t.intEnable = s.intEnable ∧ ∀ k, k ∈ t.pending ↔ k = h ∨ k ∈ s.pending
      | .write a v =>
        t.pending = s.pending ∧ (∀ b, b ≠ a → t.byteAt b = s.byteAt b) ∧
        (memClass s.memMap a = .ram → t.byteAt a = v ∧ loadValue a .byte t = v.setWidth 16) ∧
        (memClass s.memMap a ≠ .ram → t.byteAt a = s.byteAt a) ∧
        (a ≠ 0xC00E → a ≠ 0xC00F → t.intEnable = s.intEnable)
      | .read _ => t.mem = s.mem ∧ t.intEnable = s.intEnable ∧ t.pending = s.pending

/-- Interrupt entry pushes `pc`, clears I and nothing else of the flags, clears the latch, and goes to the address in
the vector table (R224, R226 with D25). -/
def Obligations.InterruptEntry : Prop :=
  ∀ (h : Fin 64) (s : State), writable .stack s.pc s = true →
    isOdd ((afterWrite .stack s.pc s).wordAt (BitVec.ofNat 16 (2 * h))) = false →
    takeInterrupt h s = .next { afterWrite .stack s.pc s with
      flags := { s.flags with i := false }
      pending := s.pending.filter (· != h)
      pc := (afterWrite .stack s.pc s).wordAt (BitVec.ofNat 16 (2 * h)) }

/-- A fetch at an odd `pc` is a fault (R33, R57, D3). -/
def Obligations.FetchAtOddPcFaults : Prop :=
  ∀ s : State, envMove s = none → irqTaken s = none → isOdd s.pc = true → step s = .fault .oddPC

/-! ### Invariants of every step -/

/-- Every step, of the CPU or of the environment, keeps the invariant: memory canonical, `pc` even (R33), the latches a
set (R36). -/
def Obligations.StepKeepsInvariant : Prop :=
  ∀ s t : State, s.Inv → step s = .next t → t.Inv

/-- The state after reset has the invariant, `pc` at the reset entry and REGBANK at its default (R40, R250). The rest of
the reset state is the model's choice (log 4, 5, 6, 7, 13, 14, 15, 21, 28) and is not stated here; that 0x0100 is
REGBANK's value at reset is decision D24 (log 8). -/
def Obligations.ResetState : Prop :=
  State.reset.Inv ∧ State.reset.pc = 0xFFF0 ∧ State.reset.regbank = 0x0100

/-- No step changes a byte that is not in RAM, whatever the platform's memory map: a register access, a push and a store
elsewhere are refused or go to a control or device register (R62, R63). No step changes the map, and each uses up one
turn (log 4, log 13). -/
def Obligations.StepWritesOnlyRam : Prop :=
  ∀ s t : State, step s = .next t →
    t.memMap = s.memMap ∧ t.turns = s.turns.tail ∧ ∀ a : Word, memClass s.memMap a ≠ .ram → t.byteAt a = s.byteAt a

/-- A step of the CPU clears at most the latch of the interrupt it takes, and sets none; a move of the environment sets at
most the latch it requests, and clears none (R226). -/
def Obligations.StepClearsOnlyTheTakenLatch : Prop :=
  ∀ s t : State, step s = .next t →
    match envMove s with
    | some (.request h) => ∀ k, k ∈ t.pending ↔ k = h ∨ k ∈ s.pending
    | some (.write _ _) => t.pending = s.pending
    | some (.read _) => t.pending = s.pending
    | none =>
      (irqTaken s = none ∧ t.pending = s.pending) ∨
      ∃ h, irqTaken s = some h ∧ t.pending = s.pending.filter (· != h)

/-! ### Memory and the registers in it (10_state.md, 20_memory.md) -/

/-- With REGBANK at 0x0100, register R14 is the word at 0x011C (R23): reading it reads that word, for the register
access itself and for MOV. -/
def Obligations.RegisterFourteenExample : Prop :=
  regAddr 0x0100 14 = 0x011C ∧ ∀ s : State, s.regbank = 0x0100 →
    readReg 14 s = .next (s.wordAt 0x011C) ∧
    exec (.mov (.reg 14) (.direct .word 0x0400)) s = .next (s.setWord 0x0400 (s.wordAt 0x011C))

/-- The registers are the sixteen words of the window: their addresses (R22), and what a store to one of those addresses
does to the registers. -/
def Obligations.RegistersAreMemory : Prop :=
  (∀ (rb : Word) (i : RegNum), (regAddr rb i).toNat = rb.toNat / 32 * 32 + 2 * i.toNat) ∧
  ∀ (s : State) (i : RegNum) (v : Word), s.mem.wf → regsOk s = true →
    ∃ t, exec (.mov (.imm v) (.direct .word (regAddr s.regbank i))) s = .next t ∧
      t.reg i = v ∧ (∀ j, j ≠ i → t.reg j = s.reg j) ∧
      ∀ j, exec (.mov (.direct .word (regAddr s.regbank i)) (.reg j)) s = .next (s.setReg j (s.reg i))

/-- A store to REGBANK switches the window and leaves memory, so the old window's words, as it was (R22, R24, R25). -/
def Obligations.RegbankSwitchesWindow : Prop :=
  ∀ (s : State) (v : Word),
    ∃ t, exec (.mov (.imm v) (.direct .word 0xC002)) s = .next t ∧ t.regbank = v ∧ t.mem = s.mem ∧
      t.flags = s.flags ∧ (∀ i, t.reg i = s.wordAt (regAddr v i)) ∧
      ∀ w : Word, (∀ k, 5 ≤ k → w.getLsbD k = v.getLsbD k) → ∀ i, t.reg i = s.wordAt (regAddr w i)

/-- While the window is not wholly in RAM, every form that goes through a register is refused (R63, D33; that the check
is made at the access and over the whole window is log 17): a source, a destination, the operand of a single operand
instruction and of a taken JccL or Ccc; the push and pop of Ccc, Rcc, INT and interrupt entry. A read-modify-write of [R15]
is refused by its own name (R127). The windows R62 has in RAM, 0x0000 to 0x011F, are in RAM under every map; that at reset
every window below 0xC000 is in RAM is the model's choice (log 4), R62's smallest instance. -/
def Obligations.WindowNotInRamRefused : Prop :=
  (∀ s : State, windowInRam s.memMap s.regbank = false →
    (∀ op, usesRegister op = true →
      (∀ dst, isImmediate dst = false → ∀ i ∈ dualInstrs op dst, exec i s = .refused .windowNotInRam) ∧
      (∀ src, readable src s = true → op ≠ .stack → ∀ i ∈ dualInstrs src op, exec i s = .refused .windowNotInRam) ∧
      (∀ n, op ≠ .stack → ∀ i ∈ singleInstrs n op, exec i s = .refused .windowNotInRam) ∧
      ∀ p ∈ absJumps op s.flags ++ calls op s.flags, p.2 → exec p.1 s = .refused .windowNotInRam) ∧
    (∀ src, readable src s = true →
      (∀ i ∈ [Instr.mov src .stack, .cmp src .stack, .test src .stack], exec i s = .refused .windowNotInRam) ∧
      ∀ i ∈ dualModifies src .stack, exec i s = .refused .rmwOnStackIndirect) ∧
    (∀ op, readable op s = true → isOdd (readValue op s) = false →
      ∀ p ∈ calls op s.flags, p.2 → exec p.1 s = .refused .windowNotInRam) ∧
    (∀ p ∈ returns s.flags, p.2 → exec p.1 s = .refused .windowNotInRam) ∧
    (∀ v, exec (.int v) s = .refused .windowNotInRam) ∧ ∀ h, takeInterrupt h s = .refused .windowNotInRam) ∧
  (∀ (m : MemMap) (rb : Word), rb.toNat < 0x0120 → windowInRam m rb = true) ∧
  ∀ rb : Word, rb.toNat < 0xC000 → windowInRam State.reset.memMap rb = true

/-- A word store in RAM puts the low byte at the even address and the high byte after it, reads back as stored by word
and by byte, and changes no other byte (R53, R55, R56; the byte order is decision D1, log 1). -/
def Obligations.WordStoreIsLittleEndian : Prop :=
  ∀ (s : State) (a v : Word), s.mem.wf → isOdd a = false → everyByteIs s.memMap .ram a .word = true →
    ∃ t, exec (.mov (.imm v) (.direct .word a)) s = .next t ∧
      t.byteAt a = v.extractLsb' 0 8 ∧ t.byteAt (a + 1) = v.extractLsb' 8 8 ∧
      loadValue a .word t = v ∧ loadValue a .byte t = (v.extractLsb' 0 8).setWidth 16 ∧
      loadValue (a + 1) .byte t = (v.extractLsb' 8 8).setWidth 16 ∧
      ∀ b, b ≠ a → b ≠ a + 1 → t.byteAt b = s.byteAt b

/-- A byte store in RAM stores the low byte of the value and changes no other byte; a byte load gives the byte in the
low half of the value, never in the high half (R54). -/
def Obligations.ByteAccess : Prop :=
  (∀ (s : State) (a v : Word), s.mem.wf → memClass s.memMap a = .ram →
    ∃ t, exec (.mov (.imm v) (.direct .byte a)) s = .next t ∧ t.byteAt a = v.extractLsb' 0 8 ∧
      ∀ b, b ≠ a → t.byteAt b = s.byteAt b) ∧
  ∀ (s : State) (a : Word) (n : RegNum), s.mem.wf → regsOk s = true →
    (memClass s.memMap a = .ram ∨ memClass s.memMap a = .rom) →
    ∃ t, exec (.mov (.direct .byte a) (.reg n)) s = .next t ∧
      (t.reg n).extractLsb' 0 8 = s.byteAt a ∧ (t.reg n).extractLsb' 8 8 = 0#8

/-! ### Dual operand instructions (41_dual_operand.md) -/

/-- MOV completes wherever its source can be read and its destination then written: the value of the source, in its own
width, goes to the destination in its width (R130, R131, R133, R154). -/
def Obligations.MovCompletes : Prop :=
  ∀ (src dst : Operand) (s : State), readable src s = true →
    writable dst (readValue src s) (afterRead src s) = true →
    exec (.mov src dst) s = .next (afterWrite dst (readValue src s) (afterRead src s))

/-- ADD, ADDC, SUB, SUBB, AND, OR and XOR complete wherever the source can be read and the destination then changed: the
result by R151's bit formulas or R160 to R163, the flags with it, one effective address and one increment (R132, R133). -/
def Obligations.DualModifyCompletes : Prop :=
  ∀ (src dst : Operand) (s : State), readable src s = true →
    ∀ p ∈ dualModifyRules src dst (readValue src s), modifiable dst p.2 (afterRead src s) = true →
      exec p.1 s = .next (afterModify dst p.2 (afterRead src s))

/-- CMP and TEST complete wherever both operands can be read: the read side effects of both and the flags, and nothing
else (R159, R161; D37). -/
def Obligations.DualCompareCompletes : Prop :=
  ∀ (src dst : Operand) (s : State), isImmediate dst = false → readable src s = true →
    readable dst (afterRead src s) = true →
    ∀ p ∈ dualCompareRules src dst (readValue src s),
      exec p.1 s = .next ((afterRead dst (afterRead src s)).withFlags
        (p.2 (readValue dst (afterRead src s)) s.flags).2)

/-- From register to register: the destination register reads back as the result, every other register and every other
byte is as before, and the flags are the rule's (R151, R152, R155 to R163); MOV copies and leaves the flags (R154). -/
def Obligations.RegisterToRegister : Prop :=
  ∀ (m n : RegNum) (s : State), s.mem.wf → regsOk s = true →
    (∃ t, exec (.mov (.reg m) (.reg n)) s = .next t ∧ t.reg n = s.reg m ∧ (∀ j, j ≠ n → t.reg j = s.reg j) ∧
      t.flags = s.flags ∧ SameBytesOutside (regBytes s n) s t) ∧
    ∀ p ∈ dualModifyRules (.reg m) (.reg n) (s.reg m),
      ∃ t, exec p.1 s = .next t ∧ t.reg n = (p.2 (s.reg n) s.flags).1 ∧ (∀ j, j ≠ n → t.reg j = s.reg j) ∧
        t.flags = (p.2 (s.reg n) s.flags).2 ∧ SameBytesOutside (regBytes s n) s t

/-- The arithmetic of the model is that of R151: the bit formulas, and the readings as unsigned carry or borrow and
signed overflow (D5). -/
def Obligations.ArithmeticFlags : Prop :=
  ∀ (v d : Word) (cin : Bool) (f : Flags),
    aluAdd v cin d f = addRule v cin d f ∧ aluSub v cin d f = subRule v cin d f ∧
    ((addRule v cin d f).2.o = true ↔
      (d.toInt + v.toInt + cin.toNat < -32768 ∨ 32767 < d.toInt + v.toInt + cin.toNat)) ∧
    ((subRule v cin d f).2.o = true ↔
      (d.toInt - v.toInt - cin.toNat < -32768 ∨ 32767 < d.toInt - v.toInt - cin.toNat))

/-- The flags of AND, TEST, OR and XOR: Z is 1 exactly when the result is 0, S is bit 15 of it, and C, O and I are left
unchanged (R152), for every form in which the instruction gives a next state. -/
def Obligations.LogicalFlags : Prop :=
  ∀ (src dst : Operand) (s t : State), ∀ p ∈ logicalInstrs src dst, exec p.1 s = .next t →
    t.flags = { z := decide (p.2 (readValue dst (afterRead src s)) (readValue src s) = 0)
                s := (p.2 (readValue dst (afterRead src s)) (readValue src s)).getLsbD 15
                c := s.flags.c, o := s.flags.o, i := s.flags.i }

/-- After CMP of two registers the conditions compare them: Z and NZ as equal, C, NC, A and BE as unsigned, L, GE, G and
LE as signed numbers (R159, R171). -/
def Obligations.CompareConditions : Prop :=
  ∀ (m n : RegNum) (s : State), regsOk s = true →
    ∃ t, exec (.cmp (.reg m) (.reg n)) s = .next t ∧
      (condHolds t.flags .z = true ↔ s.reg n = s.reg m) ∧ (condHolds t.flags .nz = true ↔ s.reg n ≠ s.reg m) ∧
      (condHolds t.flags .c = true ↔ (s.reg n).toNat < (s.reg m).toNat) ∧
      (condHolds t.flags .nc = true ↔ (s.reg m).toNat ≤ (s.reg n).toNat) ∧
      (condHolds t.flags .a = true ↔ (s.reg m).toNat < (s.reg n).toNat) ∧
      (condHolds t.flags .be = true ↔ (s.reg n).toNat ≤ (s.reg m).toNat) ∧
      (condHolds t.flags .l = true ↔ (s.reg n).toInt < (s.reg m).toInt) ∧
      (condHolds t.flags .ge = true ↔ (s.reg m).toInt ≤ (s.reg n).toInt) ∧
      (condHolds t.flags .g = true ↔ (s.reg m).toInt < (s.reg n).toInt) ∧
      (condHolds t.flags .le = true ↔ (s.reg n).toInt ≤ (s.reg m).toInt)

/-- The order of evaluation (R133, D6) where one register is used twice: the loaded or popped word wins over its
register's increment, PUSH R15 stores the old R15, and ADD sees the incremented register. -/
def Obligations.EvaluationOrder : Prop :=
  ∀ (r : RegNum) (s : State), s.mem.wf → regsOk s = true →
    (slotOk s.memMap (s.reg r) = true →
      (∃ t, exec (.mov (.autoInc .word r) (.reg r)) s = .next t ∧ t.reg r = s.wordAt (s.reg r)) ∧
      (∃ t, exec (.add (.autoInc .word r) (.reg r)) s = .next t ∧
        t.reg r = s.reg r + 2 + s.wordAt (s.reg r))) ∧
    (slotOk s.memMap (s.reg 15) = true →
      ∃ t, exec (.mov .stack (.reg 15)) s = .next t ∧ t.reg 15 = s.wordAt (s.reg 15)) ∧
    (slotOk s.memMap (pushAddr s) = true →
      ∃ t, exec (.mov (.reg 15) .stack) s = .next t ∧ t.wordAt (pushAddr s) = s.reg 15 ∧
        (pushAddr s ≠ regAddr s.regbank 15 → t.reg 15 = pushAddr s))

/-- What MOV leaves unchanged: every byte but those its source's mode advances and those it stores, the flags unless the
destination is the Flags register, and the control state unless the destination is one of its registers (R28, R154). -/
def Obligations.MovFrame : Prop :=
  ∀ (src dst : Operand) (s t : State), exec (.mov src dst) s = .next t →
    SameBytesOutside (readBytes src s ++ writeBytes dst (readValue src s) (afterRead src s)) s t ∧
    SameControlBut dst (afterRead src s) s t ∧ t.pc = s.pc ∧
    (targets dst (afterRead src s) .flags = false → t.flags = s.flags)

/-- What ADD, ADDC, SUB, SUBB, AND, OR and XOR leave unchanged: every byte but those the source's mode advances and
those of the destination, I, `pc`, and the control state unless the destination is one of its registers. -/
def Obligations.DualModifyFrame : Prop :=
  ∀ (src dst : Operand) (s t : State), ∀ p ∈ dualModifyRules src dst (readValue src s), exec p.1 s = .next t →
    SameBytesOutside (readBytes src s ++ modifyBytes dst p.2 (afterRead src s)) s t ∧
    SameControlBut dst (afterRead src s) s t ∧ t.pc = s.pc ∧ t.flags.i = s.flags.i

/-- What CMP and TEST leave unchanged: every byte but those the two modes advance, the whole control state, I and
`pc`. -/
def Obligations.DualCompareFrame : Prop :=
  ∀ (src dst : Operand) (s t : State), ∀ p ∈ dualCompareRules src dst (readValue src s), exec p.1 s = .next t →
    SameBytesOutside (readBytes src s ++ readBytes dst (afterRead src s)) s t ∧
    SameControl s t ∧ t.pc = s.pc ∧ t.flags.i = s.flags.i

/-! ### Single operand instructions (43_single_operand.md) -/

/-- SHR, SHL, ROR, ROL, ADDI and SUBI complete wherever the destination can be changed, with the count or constant one
more than the field (R93, R191): SHR is floor division of the signed value by a power of two, SHL multiplication, ROR and
ROL rotations of sixteen bits (R193 to R198). -/
def Obligations.CountCompletes : Prop :=
  ∀ (n : BitVec 3) (dst : Operand) (s : State), ∀ p ∈ countRules n dst, modifiable dst p.2 s = true →
    exec p.1 s = .next (afterModify dst p.2 s)

/-- NOT, NEG and CBW complete wherever the destination can be changed, NEG with the flags R200 prints (D15). -/
def Obligations.UnaryCompletes : Prop :=
  ∀ (dst : Operand) (s : State), ∀ p ∈ unaryRules dst, modifiable dst p.2 s = true →
    exec p.1 s = .next (afterModify dst p.2 s)

/-- A single operand instruction on a register: the register reads back as the result, every other register and byte is
as before, the flags are the rule's (R193 to R201). -/
def Obligations.SingleOnRegister : Prop :=
  ∀ (n : BitVec 3) (r : RegNum) (s : State), s.mem.wf → regsOk s = true →
    ∀ p ∈ countRules n (.reg r) ++ unaryRules (.reg r),
      ∃ t, exec p.1 s = .next t ∧ t.reg r = (p.2 (s.reg r) s.flags).1 ∧ (∀ j, j ≠ r → t.reg j = s.reg j) ∧
        t.flags = (p.2 (s.reg r) s.flags).2 ∧ SameBytesOutside (regBytes s r) s t

/-- A single operand instruction on a byte of RAM works on the zero-extended byte and stores the low byte of the result
(R124, R192; D16): no other byte changes, and the flags are those of the 16-bit result. -/
def Obligations.SingleOnByte : Prop :=
  ∀ (n : BitVec 3) (a : Word) (s : State), s.mem.wf → memClass s.memMap a = .ram →
    ∀ p ∈ countRules n (.direct .byte a) ++ unaryRules (.direct .byte a),
      ∃ t, exec p.1 s = .next t ∧
        t.byteAt a = (p.2 ((s.byteAt a).setWidth 16) s.flags).1.extractLsb' 0 8 ∧
        t.flags = (p.2 ((s.byteAt a).setWidth 16) s.flags).2 ∧ SameBytesOutside [a] s t

/-- What the nine single operand instructions leave unchanged: every byte but those of the destination, I, `pc`, and the
control state unless the destination is one of its registers. -/
def Obligations.SingleFrame : Prop :=
  ∀ (n : BitVec 3) (dst : Operand) (s t : State), ∀ p ∈ countRules n dst ++ unaryRules dst, exec p.1 s = .next t →
    SameBytesOutside (modifyBytes dst p.2 s) s t ∧ SameControlBut dst s s t ∧ t.pc = s.pc ∧
    t.flags.i = s.flags.i

/-! ### Forms that stop (60_exceptions.md R233, 41_dual_operand.md R153, 43_single_operand.md R202) -/

/-- An immediate destination is a fault for every dual and single operand instruction, before any operand access (R100,
R153, R202; D9). -/
def Obligations.ImmediateDestinationFaults : Prop :=
  ∀ (src : Operand) (v : Word) (n : BitVec 3) (s : State),
    (∀ i ∈ dualInstrs src (.imm v), exec i s = .fault .immediateDestination) ∧
    ∀ i ∈ singleInstrs n (.imm v), exec i s = .fault .immediateDestination

/-- A read-modify-write of `[R15]` is refused (R127, R132; D8). -/
def Obligations.StackDestinationRefused : Prop :=
  (∀ (src : Operand) (s : State), readable src s = true →
    ∀ i ∈ dualModifies src .stack, exec i s = .refused .rmwOnStackIndirect) ∧
  ∀ (n : BitVec 3) (s : State), ∀ i ∈ singleInstrs n .stack, exec i s = .refused .rmwOnStackIndirect

/-- An instruction that writes its destination and computes flags, on the Flags register, is refused in every mode that
reaches it (R30, R153, R202; D18). -/
def Obligations.FlagsDestinationRefused : Prop :=
  (∀ (src dst : Operand) (s : State), readable src s = true → operandAddr dst (afterRead src s) = some 0xC000 →
    operandWidth dst = .word → (regsOk s = true ∨ dst = .direct .word 0xC000) →
    ∀ i ∈ dualModifies src dst, exec i s = .refused .flagsDestination) ∧
  ∀ (n : BitVec 3) (dst : Operand) (s : State), operandAddr dst s = some 0xC000 → operandWidth dst = .word →
    (regsOk s = true ∨ dst = .direct .word 0xC000) →
    ∀ i ∈ singleInstrs n dst, exec i s = .refused .flagsDestination

/-- A byte access to Flags or REGBANK, 0xC000 to 0xC003, is refused, as source and as destination, in every mode that
reaches it (R30; D26). -/
def Obligations.ByteControlRegisterRefused : Prop :=
  ∀ (op : Operand) (a : Word) (s : State), operandAddr op s = some a → operandWidth op = .byte →
    0xC000 ≤ a.toNat → a.toNat ≤ 0xC003 → (regsOk s = true ∨ op = .direct .byte a) →
    (∀ dst, isImmediate dst = false → ∀ i ∈ dualInstrs op dst, exec i s = .refused .byteControlRegister) ∧
    (∀ v, ∀ i ∈ dualInstrs (.imm v) op, exec i s = .refused .byteControlRegister) ∧
    ∀ n, ∀ i ∈ singleInstrs n op, exec i s = .refused .byteControlRegister

/-- A word access at an odd address is a fault that names the address (R58; D2): as source, as destination, as the operand
of a taken JccL or Ccc, in every mode that reaches one; and so is, with R15 odd, every push and pop: by MOV, as the operand
[R15], by a taken Rcc and Ccc, INT and interrupt entry. Where the address is also of a class that stops, that the
misalignment comes first is the model's order (log 25; at a stack slot log 16). -/
def Obligations.MisalignedWordFaults : Prop :=
  (∀ (op : Operand) (a : Word) (s : State), operandAddr op s = some a → operandWidth op = .word → isOdd a = true →
    (regsOk s = true ∨ op = .direct .word a) →
    (∀ dst, isImmediate dst = false → ∀ i ∈ dualInstrs op dst, exec i s = .fault (.misalignedWord a)) ∧
    (∀ v, ∀ i ∈ dualInstrs (.imm v) op, exec i s = .fault (.misalignedWord a)) ∧
    (∀ n, ∀ i ∈ singleInstrs n op, exec i s = .fault (.misalignedWord a)) ∧
    ∀ p ∈ absJumps op s.flags ++ calls op s.flags, p.2 → exec p.1 s = .fault (.misalignedWord a)) ∧
  ∀ s : State, regsOk s = true → isOdd (s.reg 15) = true →
    (∀ v, exec (.mov (.imm v) .stack) s = .fault (.misalignedWord (s.reg 15 - 2))) ∧
    (∀ n, exec (.mov (.reg n) .stack) s = .fault (.misalignedWord (s.reg 15 - 2))) ∧
    (∀ dst, isImmediate dst = false → ∀ i ∈ dualInstrs .stack dst, exec i s = .fault (.misalignedWord (s.reg 15))) ∧
    (∀ v, ∀ i ∈ [Instr.cmp (.imm v) .stack, .test (.imm v) .stack],
      exec i s = .fault (.misalignedWord (s.reg 15))) ∧
    (∀ p ∈ absJumps .stack s.flags ++ calls .stack s.flags ++ returns s.flags, p.2 →
      exec p.1 s = .fault (.misalignedWord (s.reg 15))) ∧
    (∀ target, isOdd target = false → ∀ p ∈ calls (.imm target) s.flags, p.2 →
      exec p.1 s = .fault (.misalignedWord (s.reg 15 - 2))) ∧
    (∀ v, exec (.int v) s = .fault (.misalignedWord (s.reg 15 - 2))) ∧
    ∀ h, takeInterrupt h s = .fault (.misalignedWord (s.reg 15 - 2))

/-- A store of which a byte is in ROM is refused, by every instruction that writes its destination, in every mode that
reaches it (R62; D33). -/
def Obligations.RomWriteRefused : Prop :=
  ∀ (op : Operand) (a : Word) (s : State), operandAddr op s = some a → loadOk s.memMap a (operandWidth op) = true →
    someByteIs s.memMap .rom a (operandWidth op) = true → (regsOk s = true ∨ op = .direct (operandWidth op) a) →
    (∀ v, exec (.mov (.imm v) op) s = .refused .romWrite) ∧
    (∀ v, ∀ i ∈ dualModifies (.imm v) op, exec i s = .refused .romWrite) ∧
    ∀ n, ∀ i ∈ singleInstrs n op, exec i s = .refused .romWrite

/-! ### Program control (42_program_control.md) -/

/-- A relative jump completes in every state: where its column of PG Table 2-1 holds, `pc` moves by twice the signed
offset from the next instruction (R171, R172; the base is decision D11, log 2), else nothing happens (R177). -/
def Obligations.RelativeJumpCompletes : Prop :=
  ∀ (off : BitVec 7) (s : State), ∀ p ∈ relJumps off s.flags,
    (p.2 → exec p.1 s = .next { s with pc := s.pc + BitVec.ofInt 16 (2 * off.toInt) }) ∧
    (¬p.2 → exec p.1 s = .next s)

/-- A taken absolute jump sets `pc` to the value of its operand, with the read side effect of its mode (R171, R173). -/
def Obligations.TakenAbsoluteJump : Prop :=
  ∀ (op : Operand) (s : State), readable op s = true → isOdd (readValue op s) = false →
    ∀ p ∈ absJumps op s.flags, p.2 → exec p.1 s = .next { afterRead op s with pc := readValue op s }

/-- A taken return pops `pc` and nothing else (R171, R174). -/
def Obligations.TakenReturnPops : Prop :=
  ∀ s : State, readable .stack s = true → isOdd (s.wordAt (s.reg 15)) = false →
    ∀ p ∈ returns s.flags, p.2 →
      exec p.1 s = .next { s.setReg 15 (s.reg 15 + 2) with pc := s.wordAt (s.reg 15) }

/-- A taken call reads its operand, then pushes the address of the next instruction, then jumps (R171, R175; D13). -/
def Obligations.TakenCallPushesThenJumps : Prop :=
  ∀ (op : Operand) (s : State), readable op s = true → isOdd (readValue op s) = false →
    writable .stack s.pc (afterRead op s) = true →
    ∀ p ∈ calls op s.flags, p.2 →
      exec p.1 s = .next { afterWrite .stack s.pc (afterRead op s) with pc := readValue op s }

/-- INT pushes the address of the next instruction and jumps through entry `v` of the vector table; I and the other
flags stay as they are (R176, R229). -/
def Obligations.SoftwareInterrupt : Prop :=
  ∀ (v : BitVec 7) (s : State), writable .stack s.pc s = true →
    isOdd ((afterWrite .stack s.pc s).wordAt (BitVec.ofNat 16 (2 * v.toNat))) = false →
    exec (.int v) s = .next { afterWrite .stack s.pc s with
      pc := (afterWrite .stack s.pc s).wordAt (BitVec.ofNat 16 (2 * v.toNat)) }

/-- A transfer to an odd address is a fault: a taken absolute jump, a taken call before its push, a taken return, INT and
interrupt entry with an odd handler address (R33, R176, R178, R224; D3). -/
def Obligations.OddTargetFaults : Prop :=
  (∀ (op : Operand) (s : State), readable op s = true → isOdd (readValue op s) = true →
    ∀ p ∈ absJumps op s.flags ++ calls op s.flags, p.2 → exec p.1 s = .fault .oddPC) ∧
  (∀ s : State, readable .stack s = true → isOdd (s.wordAt (s.reg 15)) = true →
    ∀ p ∈ returns s.flags, p.2 → exec p.1 s = .fault .oddPC) ∧
  (∀ (v : BitVec 7) (s : State), writable .stack s.pc s = true →
    isOdd ((afterWrite .stack s.pc s).wordAt (BitVec.ofNat 16 (2 * v.toNat))) = true →
    exec (.int v) s = .fault .oddPC) ∧
  ∀ (h : Fin 64) (s : State), writable .stack s.pc s = true →
    isOdd ((afterWrite .stack s.pc s).wordAt (BitVec.ofNat 16 (2 * h))) = true → takeInterrupt h s = .fault .oddPC

/-- A jump, call or return whose condition is false does nothing, whatever its operand: no access, no increment, no pop,
no push, no fault (R177; D12). -/
def Obligations.NotTakenDoesNothing : Prop :=
  ∀ (off : BitVec 7) (op : Operand) (s : State),
    ∀ p ∈ relJumps off s.flags ++ absJumps op s.flags ++ calls op s.flags ++ returns s.flags,
      ¬p.2 → exec p.1 s = .next s

/-- What the program control instructions leave unchanged: every flag and the whole control state; every byte for a
relative jump; every byte but those of an advanced register for an absolute jump or return; and the stack slot and R15
as well for a call or INT (R170). -/
def Obligations.ControlFrame : Prop :=
  ∀ (off v : BitVec 7) (op : Operand) (s t : State),
    (∀ p ∈ relJumps off s.flags ++ absJumps op s.flags ++ calls op s.flags ++ returns s.flags ++
      [(Instr.int v, True)], exec p.1 s = .next t → SameControl s t ∧ t.flags = s.flags) ∧
    (∀ p ∈ relJumps off s.flags, exec p.1 s = .next t → SameBytesOutside [] s t) ∧
    (∀ p ∈ absJumps op s.flags, exec p.1 s = .next t → SameBytesOutside (readBytes op s) s t) ∧
    (∀ p ∈ returns s.flags, exec p.1 s = .next t → SameBytesOutside (readBytes .stack s) s t) ∧
    (∀ p ∈ calls op s.flags, exec p.1 s = .next t →
      SameBytesOutside (readBytes op s ++ writeBytes .stack s.pc (afterRead op s)) s t) ∧
    (exec (.int v) s = .next t → SameBytesOutside (writeBytes .stack s.pc s) s t)

/-- A call and the return that follows it come back to the next instruction with R15, the flags and every byte but the
stack slot as they were (R26, R174, R175, R180). -/
def Obligations.CallThenReturn : Prop :=
  ∀ (target : Word) (s : State), s.mem.wf → writable .stack s.pc s = true → isOdd target = false →
    isOdd s.pc = false → pushAddr s ≠ regAddr s.regbank 15 →
    ∃ u v, exec (.call (.imm target)) s = .next u ∧ u.pc = target ∧
      exec .ret u = .next v ∧ v.pc = s.pc ∧ v.reg 15 = s.reg 15 ∧ v.flags = s.flags ∧ SameControl s v ∧
      SameBytesOutside (bytesAt (pushAddr s) .word) s v

/-! ### Flags and interrupts (10_state.md, 44_misc_and_macros.md) -/

/-- The table of which instructions write which flags, over every instruction: what a row does not list is unchanged,
MOV to the Flags register writes all five as data, and interrupt entry clears I alone (R28, R30). -/
def Obligations.FlagsWrittenByInstruction : Prop :=
  (∀ (i : Instr) (s t : State), exec i s = .next t → FlagsKept i s t) ∧
  ∀ (h : Fin 64) (s t : State), takeInterrupt h s = .next t → t.flags = { s.flags with i := false }

/-- Only STI, CLI and a MOV to the Flags register change I (R28, R234). -/
def Obligations.InterruptFlagWriters : Prop :=
  ∀ (i : Instr) (s t : State), exec i s = .next t → t.flags.i ≠ s.flags.i →
    i = .sti ∨ i = .cli ∨ ∃ src dst, i = .mov src dst ∧ targets dst (afterRead src s) .flags = true

/-- PUSH [0xC000] and POP [0xC000], the two flag steps of PG's handler template, restore the five flags and R15
whatever the flags were in between (R30, R217, R218, R230). -/
def Obligations.FlagsSavedByPushAndPop : Prop :=
  ∀ (s : State) (f : Flags), s.mem.wf → writable .stack s.flags.toWord s = true →
    pushAddr s ≠ regAddr s.regbank 15 →
    ∃ u v, exec (.mov (.direct .word 0xC000) .stack) s = .next u ∧
      exec (.mov .stack (.direct .word 0xC000)) (u.withFlags f) = .next v ∧
      v.flags = s.flags ∧ v.reg 15 = s.reg 15 ∧ SameBytesOutside (bytesAt (pushAddr s) .word) s v

/-- STC: word 0xDFC2, sets C and nothing else, from every state (R212). -/
def Obligations.StcSetsCarry : Prop :=
  encode .stc = [0xDFC2] ∧ decode 0xDFC2 0 0 = .ok .stc ∧
  (∀ s : State, exec .stc s = .next (s.withFlags { s.flags with c := true })) ∧
  ({ Flags.ofWord 0x0000 with c := true } : Flags).toWord = 0x0002

/-- CLC: word 0xDFC3, clears C and nothing else, from every state (R213). -/
def Obligations.ClcClearsCarry : Prop :=
  encode .clc = [0xDFC3] ∧ decode 0xDFC3 0 0 = .ok .clc ∧
  (∀ s : State, exec .clc s = .next (s.withFlags { s.flags with c := false })) ∧
  ({ Flags.ofWord 0x001F with c := false } : Flags).toWord = 0x001D

/-- STI sets I and CLI clears it, with no other flag changed; STI with I already 1 changes nothing; after CLI no interrupt
is taken at the boundary that follows, and the latches stay (R210, R211). That STI marks an STI shadow is how R225's
parameter is carried (log 3, log 14). -/
def Obligations.StiAndCli : Prop :=
  ∀ s : State,
    (s.flags.i = false →
      exec .sti s = .next { s with flags := { s.flags with i := true }, stiShadow := true }) ∧
    (s.flags.i = true → exec .sti s = .next s) ∧
    exec .cli s = .next { s with flags := { s.flags with i := false } } ∧
    ∀ t, exec .cli s = .next t → irqTaken t = none ∧ t.pending = s.pending

/-- Only an STI that sets I starts an STI shadow, and no other instruction keeps one: after a step of the CPU, the shadow
stands only if that step ran STI with I at 0; a move of the environment leaves it (R210, R225; log 14). -/
def Obligations.ShadowOnlyAfterSti : Prop :=
  (∀ (i : Instr) (s t : State), s.stiShadow = false → exec i s = .next t →
    (t.stiShadow = true ↔ i = .sti ∧ s.flags.i = false)) ∧
  ∀ s t : State, step s = .next t →
    (envMove s ≠ none → t.stiShadow = s.stiShadow) ∧
    (envMove s = none → t.stiShadow = true → irqTaken s = none ∧ s.flags.i = false ∧
      ∃ p, fetchInstr (boundaryPassed (turnTaken s)) = .next p ∧ p.1 = .sti)

/-! ### Control and device registers (10_state.md, 20_memory.md) -/

/-- The Flags register as memory: a word read gives I, S, O, C, Z in bits 4..0 and zeros above, a word written sets them
from those bits, whatever the others (R27, R30; D18). -/
def Obligations.FlagsRegisterAsMemory : Prop :=
  (∀ (s : State) (n : RegNum), s.mem.wf → regsOk s = true →
    ∃ t, exec (.mov (.direct .word 0xC000) (.reg n)) s = .next t ∧ t.flags = s.flags ∧
      (t.reg n).toNat = s.flags.z.toNat + 2 * s.flags.c.toNat + 4 * s.flags.o.toNat + 8 * s.flags.s.toNat +
        16 * s.flags.i.toNat) ∧
  ∀ (s : State) (v : Word), exec (.mov (.imm v) (.direct .word 0xC000)) s =
    .next { s with flags := { z := v.getLsbD 0, c := v.getLsbD 1, o := v.getLsbD 2, s := v.getLsbD 3,
                              i := v.getLsbD 4 } }

/-- A word written to Interrupt Enable is held (R34; D21) and recorded as a device write, and one to the register at
0xC024 is recorded (R61; D33). The record is the model's own (log 11, log 21). -/
def Obligations.DeviceRegisterWrites : Prop :=
  ∀ (s : State) (v : Word),
    exec (.mov (.imm v) (.direct .word 0xC00E)) s =
      .next { s with intEnable := v, devWrites := { addr := 0xC00E, width := .word, value := v } :: s.devWrites } ∧
    exec (.mov (.imm v) (.direct .word 0xC024)) s =
      .next { s with devWrites := { addr := 0xC024, width := .word, value := v } :: s.devWrites }

/-- A read of a device register completes and gives a free value, of REGBANK its upper eleven bits and five free ones:
the model's form of values the spec leaves open (log 9, log 10, log 11). -/
def Obligations.DeviceRegisterReads : Prop :=
  ∀ (s : State) (n : RegNum), s.mem.wf → regsOk s = true →
    exec (.mov (.direct .word 0xC024) (.reg n)) s = .next (s.drawn.setReg n (Config.deviceWord s.draws 0xC024)) ∧
    exec (.mov (.direct .word 0xC00E) (.reg n)) s =
      .next (s.drawn.setReg n (Config.intEnableRead s.draws s.intEnable)) ∧
    ∃ t, exec (.mov (.direct .word 0xC002) (.reg n)) s = .next t ∧ t.regbank = s.regbank ∧
      ∀ k, 5 ≤ k → (t.reg n).getLsbD k = s.regbank.getLsbD k
end

