-- ==== Sys2Proof/Laws/State.lean ====
section
/-! SUPPORT. One lemma per field per update of the state, each true by rfl. -/

namespace Sys2Proof.Machine

@[simp] theorem State.setByte_regbank (s : State) (a : Word) (v : Byte) : (s.setByte a v).regbank = s.regbank := rfl
@[simp] theorem State.setByte_flags (s : State) (a : Word) (v : Byte) : (s.setByte a v).flags = s.flags := rfl
@[simp] theorem State.setByte_pc (s : State) (a : Word) (v : Byte) : (s.setByte a v).pc = s.pc := rfl
@[simp] theorem State.setByte_intEnable (s : State) (a : Word) (v : Byte) : (s.setByte a v).intEnable = s.intEnable := rfl
@[simp] theorem State.setByte_pending (s : State) (a : Word) (v : Byte) : (s.setByte a v).pending = s.pending := rfl
@[simp] theorem State.setByte_stiShadow (s : State) (a : Word) (v : Byte) : (s.setByte a v).stiShadow = s.stiShadow := rfl
@[simp] theorem State.setByte_devWrites (s : State) (a : Word) (v : Byte) : (s.setByte a v).devWrites = s.devWrites := rfl
@[simp] theorem State.setByte_draws (s : State) (a : Word) (v : Byte) : (s.setByte a v).draws = s.draws := rfl
@[simp] theorem State.setByte_memMap (s : State) (a : Word) (v : Byte) : (s.setByte a v).memMap = s.memMap := rfl
@[simp] theorem State.setByte_turns (s : State) (a : Word) (v : Byte) : (s.setByte a v).turns = s.turns := rfl

@[simp] theorem State.setWord_regbank (s : State) (a v : Word) : (s.setWord a v).regbank = s.regbank := rfl
@[simp] theorem State.setWord_flags (s : State) (a v : Word) : (s.setWord a v).flags = s.flags := rfl
@[simp] theorem State.setWord_pc (s : State) (a v : Word) : (s.setWord a v).pc = s.pc := rfl
@[simp] theorem State.setWord_intEnable (s : State) (a v : Word) : (s.setWord a v).intEnable = s.intEnable := rfl
@[simp] theorem State.setWord_pending (s : State) (a v : Word) : (s.setWord a v).pending = s.pending := rfl
@[simp] theorem State.setWord_stiShadow (s : State) (a v : Word) : (s.setWord a v).stiShadow = s.stiShadow := rfl
@[simp] theorem State.setWord_devWrites (s : State) (a v : Word) : (s.setWord a v).devWrites = s.devWrites := rfl
@[simp] theorem State.setWord_draws (s : State) (a v : Word) : (s.setWord a v).draws = s.draws := rfl
@[simp] theorem State.setWord_memMap (s : State) (a v : Word) : (s.setWord a v).memMap = s.memMap := rfl
@[simp] theorem State.setWord_turns (s : State) (a v : Word) : (s.setWord a v).turns = s.turns := rfl

@[simp] theorem State.setReg_regbank (s : State) (i : RegNum) (v : Word) : (s.setReg i v).regbank = s.regbank := rfl
@[simp] theorem State.setReg_flags (s : State) (i : RegNum) (v : Word) : (s.setReg i v).flags = s.flags := rfl
@[simp] theorem State.setReg_pc (s : State) (i : RegNum) (v : Word) : (s.setReg i v).pc = s.pc := rfl
@[simp] theorem State.setReg_intEnable (s : State) (i : RegNum) (v : Word) : (s.setReg i v).intEnable = s.intEnable := rfl
@[simp] theorem State.setReg_pending (s : State) (i : RegNum) (v : Word) : (s.setReg i v).pending = s.pending := rfl
@[simp] theorem State.setReg_stiShadow (s : State) (i : RegNum) (v : Word) : (s.setReg i v).stiShadow = s.stiShadow := rfl
@[simp] theorem State.setReg_devWrites (s : State) (i : RegNum) (v : Word) : (s.setReg i v).devWrites = s.devWrites := rfl
@[simp] theorem State.setReg_draws (s : State) (i : RegNum) (v : Word) : (s.setReg i v).draws = s.draws := rfl
@[simp] theorem State.setReg_memMap (s : State) (i : RegNum) (v : Word) : (s.setReg i v).memMap = s.memMap := rfl
@[simp] theorem State.setReg_turns (s : State) (i : RegNum) (v : Word) : (s.setReg i v).turns = s.turns := rfl

@[simp] theorem State.withFlags_mem (s : State) (f : Flags) : (s.withFlags f).mem = s.mem := rfl
@[simp] theorem State.withFlags_regbank (s : State) (f : Flags) : (s.withFlags f).regbank = s.regbank := rfl
@[simp] theorem State.withFlags_pc (s : State) (f : Flags) : (s.withFlags f).pc = s.pc := rfl
@[simp] theorem State.withFlags_intEnable (s : State) (f : Flags) : (s.withFlags f).intEnable = s.intEnable := rfl
@[simp] theorem State.withFlags_pending (s : State) (f : Flags) : (s.withFlags f).pending = s.pending := rfl
@[simp] theorem State.withFlags_stiShadow (s : State) (f : Flags) : (s.withFlags f).stiShadow = s.stiShadow := rfl
@[simp] theorem State.withFlags_devWrites (s : State) (f : Flags) : (s.withFlags f).devWrites = s.devWrites := rfl
@[simp] theorem State.withFlags_draws (s : State) (f : Flags) : (s.withFlags f).draws = s.draws := rfl
@[simp] theorem State.withFlags_memMap (s : State) (f : Flags) : (s.withFlags f).memMap = s.memMap := rfl
@[simp] theorem State.withFlags_turns (s : State) (f : Flags) : (s.withFlags f).turns = s.turns := rfl

@[simp] theorem State.drawn_mem (s : State) : (s.drawn).mem = s.mem := rfl
@[simp] theorem State.drawn_regbank (s : State) : (s.drawn).regbank = s.regbank := rfl
@[simp] theorem State.drawn_flags (s : State) : (s.drawn).flags = s.flags := rfl
@[simp] theorem State.drawn_pc (s : State) : (s.drawn).pc = s.pc := rfl
@[simp] theorem State.drawn_intEnable (s : State) : (s.drawn).intEnable = s.intEnable := rfl
@[simp] theorem State.drawn_pending (s : State) : (s.drawn).pending = s.pending := rfl
@[simp] theorem State.drawn_stiShadow (s : State) : (s.drawn).stiShadow = s.stiShadow := rfl
@[simp] theorem State.drawn_devWrites (s : State) : (s.drawn).devWrites = s.devWrites := rfl
@[simp] theorem State.drawn_memMap (s : State) : (s.drawn).memMap = s.memMap := rfl
@[simp] theorem State.drawn_turns (s : State) : (s.drawn).turns = s.turns := rfl

@[simp] theorem deviceStore_mem (a : Word) (w : Width) (v : Word) (s : State) : (deviceStore a w v s).mem = s.mem := rfl
@[simp] theorem deviceStore_regbank (a : Word) (w : Width) (v : Word) (s : State) : (deviceStore a w v s).regbank = s.regbank := rfl
@[simp] theorem deviceStore_flags (a : Word) (w : Width) (v : Word) (s : State) : (deviceStore a w v s).flags = s.flags := rfl
@[simp] theorem deviceStore_pc (a : Word) (w : Width) (v : Word) (s : State) : (deviceStore a w v s).pc = s.pc := rfl
@[simp] theorem deviceStore_pending (a : Word) (w : Width) (v : Word) (s : State) : (deviceStore a w v s).pending = s.pending := rfl
@[simp] theorem deviceStore_stiShadow (a : Word) (w : Width) (v : Word) (s : State) : (deviceStore a w v s).stiShadow = s.stiShadow := rfl
@[simp] theorem deviceStore_draws (a : Word) (w : Width) (v : Word) (s : State) : (deviceStore a w v s).draws = s.draws := rfl
@[simp] theorem deviceStore_memMap (a : Word) (w : Width) (v : Word) (s : State) : (deviceStore a w v s).memMap = s.memMap := rfl
@[simp] theorem deviceStore_turns (a : Word) (w : Width) (v : Word) (s : State) : (deviceStore a w v s).turns = s.turns := rfl

@[simp] theorem setIntEnable_mem (a : Word) (w : Width) (v : Word) (s : State) : (setIntEnable a w v s).mem = s.mem := rfl
@[simp] theorem setIntEnable_regbank (a : Word) (w : Width) (v : Word) (s : State) : (setIntEnable a w v s).regbank = s.regbank := rfl
@[simp] theorem setIntEnable_flags (a : Word) (w : Width) (v : Word) (s : State) : (setIntEnable a w v s).flags = s.flags := rfl
@[simp] theorem setIntEnable_pc (a : Word) (w : Width) (v : Word) (s : State) : (setIntEnable a w v s).pc = s.pc := rfl
@[simp] theorem setIntEnable_pending (a : Word) (w : Width) (v : Word) (s : State) : (setIntEnable a w v s).pending = s.pending := rfl
@[simp] theorem setIntEnable_stiShadow (a : Word) (w : Width) (v : Word) (s : State) : (setIntEnable a w v s).stiShadow = s.stiShadow := rfl
@[simp] theorem setIntEnable_devWrites (a : Word) (w : Width) (v : Word) (s : State) : (setIntEnable a w v s).devWrites = s.devWrites := rfl
@[simp] theorem setIntEnable_draws (a : Word) (w : Width) (v : Word) (s : State) : (setIntEnable a w v s).draws = s.draws := rfl
@[simp] theorem setIntEnable_memMap (a : Word) (w : Width) (v : Word) (s : State) : (setIntEnable a w v s).memMap = s.memMap := rfl
@[simp] theorem setIntEnable_turns (a : Word) (w : Width) (v : Word) (s : State) : (setIntEnable a w v s).turns = s.turns := rfl

@[simp] theorem requestInterrupt_mem (h : Fin 64) (s : State) : (requestInterrupt h s).mem = s.mem := rfl
@[simp] theorem requestInterrupt_regbank (h : Fin 64) (s : State) : (requestInterrupt h s).regbank = s.regbank := rfl
@[simp] theorem requestInterrupt_flags (h : Fin 64) (s : State) : (requestInterrupt h s).flags = s.flags := rfl
@[simp] theorem requestInterrupt_pc (h : Fin 64) (s : State) : (requestInterrupt h s).pc = s.pc := rfl
@[simp] theorem requestInterrupt_intEnable (h : Fin 64) (s : State) : (requestInterrupt h s).intEnable = s.intEnable := rfl
@[simp] theorem requestInterrupt_stiShadow (h : Fin 64) (s : State) : (requestInterrupt h s).stiShadow = s.stiShadow := rfl
@[simp] theorem requestInterrupt_devWrites (h : Fin 64) (s : State) : (requestInterrupt h s).devWrites = s.devWrites := rfl
@[simp] theorem requestInterrupt_draws (h : Fin 64) (s : State) : (requestInterrupt h s).draws = s.draws := rfl
@[simp] theorem requestInterrupt_memMap (h : Fin 64) (s : State) : (requestInterrupt h s).memMap = s.memMap := rfl
@[simp] theorem requestInterrupt_turns (h : Fin 64) (s : State) : (requestInterrupt h s).turns = s.turns := rfl

@[simp] theorem turnTaken_mem (s : State) : (turnTaken s).mem = s.mem := rfl
@[simp] theorem turnTaken_regbank (s : State) : (turnTaken s).regbank = s.regbank := rfl
@[simp] theorem turnTaken_flags (s : State) : (turnTaken s).flags = s.flags := rfl
@[simp] theorem turnTaken_pc (s : State) : (turnTaken s).pc = s.pc := rfl
@[simp] theorem turnTaken_intEnable (s : State) : (turnTaken s).intEnable = s.intEnable := rfl
@[simp] theorem turnTaken_pending (s : State) : (turnTaken s).pending = s.pending := rfl
@[simp] theorem turnTaken_stiShadow (s : State) : (turnTaken s).stiShadow = s.stiShadow := rfl
@[simp] theorem turnTaken_devWrites (s : State) : (turnTaken s).devWrites = s.devWrites := rfl
@[simp] theorem turnTaken_draws (s : State) : (turnTaken s).draws = s.draws := rfl
@[simp] theorem turnTaken_memMap (s : State) : (turnTaken s).memMap = s.memMap := rfl

@[simp] theorem boundaryPassed_mem (s : State) : (boundaryPassed s).mem = s.mem := rfl
@[simp] theorem boundaryPassed_regbank (s : State) : (boundaryPassed s).regbank = s.regbank := rfl
@[simp] theorem boundaryPassed_flags (s : State) : (boundaryPassed s).flags = s.flags := rfl
@[simp] theorem boundaryPassed_pc (s : State) : (boundaryPassed s).pc = s.pc := rfl
@[simp] theorem boundaryPassed_intEnable (s : State) : (boundaryPassed s).intEnable = s.intEnable := rfl
@[simp] theorem boundaryPassed_pending (s : State) : (boundaryPassed s).pending = s.pending := rfl
@[simp] theorem boundaryPassed_devWrites (s : State) : (boundaryPassed s).devWrites = s.devWrites := rfl
@[simp] theorem boundaryPassed_memMap (s : State) : (boundaryPassed s).memMap = s.memMap := rfl
@[simp] theorem boundaryPassed_turns (s : State) : (boundaryPassed s).turns = s.turns := rfl

@[simp] theorem State.withFlags_flags (s : State) (f : Flags) : (s.withFlags f).flags = f := rfl
@[simp] theorem State.drawn_draws (s : State) : s.drawn.draws = s.draws + 1 := rfl
@[simp] theorem State.withFlags_byteAt (s : State) (f : Flags) (a : Word) : (s.withFlags f).byteAt a = s.byteAt a := rfl
@[simp] theorem State.withFlags_wordAt (s : State) (f : Flags) (a : Word) : (s.withFlags f).wordAt a = s.wordAt a := rfl
@[simp] theorem State.withFlags_reg (s : State) (f : Flags) (i : RegNum) : (s.withFlags f).reg i = s.reg i := rfl
@[simp] theorem State.drawn_byteAt (s : State) (a : Word) : s.drawn.byteAt a = s.byteAt a := rfl
@[simp] theorem State.drawn_wordAt (s : State) (a : Word) : s.drawn.wordAt a = s.wordAt a := rfl
@[simp] theorem State.drawn_reg (s : State) (i : RegNum) : s.drawn.reg i = s.reg i := rfl
@[simp] theorem deviceStore_byteAt (a b : Word) (w : Width) (v : Word) (s : State) :
    (deviceStore a w v s).byteAt b = s.byteAt b := rfl

end Sys2Proof.Machine
end

