-- ==== Sys2Proof/Laws/Memory.lean ====
section
/-! SUPPORT. The laws of memory: a read after a write, and that every memory operation keeps the canonical form. -/

namespace Sys2Proof.Machine

/-! ### The list of cells -/

theorem Memory.read_of_lt (m : Memory) (a : Nat) (h : ∀ x ∈ m, a < x.1) : m.read a = unlistedByte a := by
  induction m with
  | nil => rfl
  | cons x m ih =>
    have hx : a < x.1 := h x (by simp)
    simp [Memory.read, Nat.ne_of_gt hx, ih fun y hy => h y (by simp [hy])]

theorem Memory.read_cons_self (m : Memory) (a : Nat) (v : Byte) (h : ∀ x ∈ m, a < x.1) :
    (Memory.cons a v m).read a = v := by
  unfold Memory.cons
  split
  · rename_i hv; rw [Memory.read_of_lt m a h, hv]
  · simp [Memory.read]

theorem Memory.read_cons_other (m : Memory) (a b : Nat) (v : Byte) (h : b ≠ a) :
    (Memory.cons a v m).read b = m.read b := by
  unfold Memory.cons
  split
  · rfl
  · simp [Memory.read, Ne.symm h]

/-- A write leaves every other address alone. -/
theorem Memory.read_write_other (m : Memory) (a b : Nat) (v : Byte) (h : b ≠ a) :
    (m.write a v).read b = m.read b := by
  induction m with
  | nil => simp [Memory.write, Memory.read_cons_other _ _ _ _ h]
  | cons x m ih =>
    obtain ⟨c, y⟩ := x
    simp only [Memory.write]
    split
    · exact Memory.read_cons_other _ _ _ _ h
    · split
      · rename_i hac
        rw [Memory.read_cons_other _ _ _ _ h]
        simp [Memory.read, ← hac, Ne.symm h]
      · simp [Memory.read, ih]

/-- In a canonical memory the cells after the first lie above it. -/
theorem Memory.tail_above {x : Host.Cell} {m : Memory} (h : Memory.wf (x :: m)) : ∀ y ∈ m, x.1 < y.1 :=
  (List.pairwise_cons.mp h.1).1

theorem Memory.wf_tail {x : Host.Cell} {m : Memory} (h : Memory.wf (x :: m)) : Memory.wf m :=
  ⟨(List.pairwise_cons.mp h.1).2, fun y hy => h.2 y (List.mem_cons_of_mem _ hy)⟩

/-- A read after a write to the same address gives the value written. -/
theorem Memory.read_write_same (m : Memory) (a : Nat) (v : Byte) (h : m.wf) : (m.write a v).read a = v := by
  induction m with
  | nil => exact Memory.read_cons_self _ _ _ (by simp)
  | cons x m ih =>
    obtain ⟨c, y⟩ := x
    have above := Memory.tail_above h
    simp only [Memory.write]
    split
    · rename_i hac
      refine Memory.read_cons_self _ _ _ fun z hz => ?_
      rcases List.mem_cons.mp hz with rfl | hz
      · exact hac
      · exact Nat.lt_trans hac (above z hz)
    · split
      · rename_i hac
        exact Memory.read_cons_self _ _ _ fun z hz => hac ▸ above z hz
      · rename_i h1 h2
        simp [Memory.read, Ne.symm h2, ih (Memory.wf_tail h)]

theorem Memory.cons_wf (m : Memory) (a : Nat) (v : Byte) (h : m.wf) (ha : a < 0x10000)
    (above : ∀ x ∈ m, a < x.1) : (Memory.cons a v m).wf := by
  unfold Memory.cons
  split
  · exact h
  · rename_i hv
    refine ⟨List.pairwise_cons.mpr ⟨above, h.1⟩, fun x hx => ?_⟩
    rcases List.mem_cons.mp hx with rfl | hx
    · exact ⟨ha, hv⟩
    · exact h.2 x hx

theorem Memory.mem_write {m : Memory} {a : Nat} {v : Byte} {x : Host.Cell} (h : x ∈ m.write a v) :
    x = (a, v) ∨ x ∈ m := by
  induction m with
  | nil =>
    simp only [Memory.write, Memory.cons] at h
    split at h
    · exact .inr h
    · exact .inl (by simpa using h)
  | cons y m ih =>
    obtain ⟨c, z⟩ := y
    simp only [Memory.write, Memory.cons] at h
    split at h
    · split at h
      · exact .inr h
      · rcases List.mem_cons.mp h with h | h
        · exact .inl h
        · exact .inr h
    · split at h
      · split at h
        · exact .inr (List.mem_cons_of_mem _ h)
        · rcases List.mem_cons.mp h with h | h
          · exact .inl h
          · exact .inr (List.mem_cons_of_mem _ h)
      · rcases List.mem_cons.mp h with h | h
        · exact .inr (by simp [h])
        · rcases ih h with h | h
          · exact .inl h
          · exact .inr (List.mem_cons_of_mem _ h)

/-- A write keeps the canonical form. -/
theorem Memory.write_wf (m : Memory) (a : Nat) (v : Byte) (h : m.wf) (ha : a < 0x10000) : (m.write a v).wf := by
  induction m with
  | nil => exact Memory.cons_wf _ _ _ h ha (by simp)
  | cons x m ih =>
    obtain ⟨c, y⟩ := x
    have above := Memory.tail_above h
    simp only [Memory.write]
    split
    · rename_i hac
      refine Memory.cons_wf _ _ _ h ha fun z hz => ?_
      rcases List.mem_cons.mp hz with rfl | hz
      · exact hac
      · exact Nat.lt_trans hac (above z hz)
    · split
      · rename_i hac
        exact Memory.cons_wf _ _ _ (Memory.wf_tail h) ha fun z hz => hac ▸ above z hz
      · rename_i h1 h2
        have hm := ih (Memory.wf_tail h)
        refine ⟨List.pairwise_cons.mpr ⟨fun z hz => ?_, hm.1⟩, fun z hz => ?_⟩
        · rcases Memory.mem_write hz with rfl | hz
          · show c < a; omega
          · exact above z hz
        · rcases List.mem_cons.mp hz with rfl | hz
          · exact h.2 _ (by simp)
          · exact hm.2 z hz

/-! ### Bytes, words and registers of a state -/

theorem State.setByte_wf {s : State} (h : s.mem.wf) (a : Word) (v : Byte) : (s.setByte a v).mem.wf :=
  Memory.write_wf _ _ _ h (by omega)

theorem State.setWord_wf {s : State} (h : s.mem.wf) (a v : Word) : (s.setWord a v).mem.wf :=
  State.setByte_wf (State.setByte_wf h _ _) _ _

theorem State.setReg_wf {s : State} (h : s.mem.wf) (i : RegNum) (v : Word) : (s.setReg i v).mem.wf :=
  State.setWord_wf h _ _

theorem State.reset_wf : State.reset.mem.wf := by decide

theorem State.byteAt_setByte_same {s : State} (h : s.mem.wf) (a : Word) (v : Byte) : (s.setByte a v).byteAt a = v :=
  Memory.read_write_same _ _ _ h

theorem State.byteAt_setByte_other (s : State) (a b : Word) (v : Byte) (h : b ≠ a) :
    (s.setByte a v).byteAt b = s.byteAt b :=
  Memory.read_write_other _ _ _ _ fun e => h (BitVec.eq_of_toNat_eq e)

/-- A word store changes only its two bytes. -/
theorem State.byteAt_setWord_other (s : State) (a b v : Word) (h0 : b ≠ a) (h1 : b ≠ a + 1) :
    (s.setWord a v).byteAt b = s.byteAt b := by
  rw [State.setWord, State.byteAt_setByte_other _ _ _ _ h1, State.byteAt_setByte_other _ _ _ _ h0]

/-- Masking with 0xFFE0 clears the low five bits. -/
theorem and_ffe0 (x : Word) : x &&& 0xFFE0#16 = (x >>> 5) <<< 5 := by
  ext k hk
  interval_cases k <;> simp

/-- The window address of a register is the window base plus twice the number (R22): no carry, since the base has its
low five bits clear. -/
theorem regAddr_toNat (rb : Word) (i : RegNum) : (regAddr rb i).toNat = rb.toNat / 32 * 32 + 2 * i.toNat := by
  have hi : i.toNat < 16 := i.isLt
  have hrb : rb.toNat < 65536 := rb.isLt
  have h1 : ((rb >>> 5) <<< 5 : Word).toNat = (rb.toNat / 32) <<< 5 := by
    simp [BitVec.toNat_shiftLeft, BitVec.toNat_ushiftRight, Nat.shiftLeft_eq, Nat.shiftRight_eq_div_pow]; omega
  have h2 : (i.setWidth 16 <<< 1 : Word).toNat = 2 * i.toNat := by
    simp [BitVec.toNat_shiftLeft, Nat.shiftLeft_eq]; omega
  rw [regAddr, and_ffe0, BitVec.toNat_or, h1, h2, ← Nat.shiftLeft_add_eq_or_of_lt (by omega), Nat.shiftLeft_eq]

/-- A register's address is even. -/
theorem regAddr_even (rb : Word) (i : RegNum) : isOdd (regAddr rb i) = false := by
  simp only [isOdd, BitVec.getLsbD, regAddr_toNat, Nat.testBit_zero]
  simp; omega

/-! ### Reading back -/

theorem isOdd_eq (a : Word) : isOdd a = decide (a.toNat % 2 = 1) := by
  simp [isOdd, BitVec.getLsbD, Nat.testBit_zero]

theorem isOdd_add_two (a : Word) : isOdd (a + 2) = isOdd a := by
  have := a.isLt
  rw [isOdd_eq, isOdd_eq]
  simp [BitVec.toNat_add]

/-- The two bytes of a word, put together again, are the word (R53, R55). -/
theorem wordOfBytes_evenByte_oddByte (v : Word) : wordOfBytes (evenByte v) (oddByte v) = v := by
  have := v.isLt
  have h : wordOfBytes (evenByte v) (oddByte v) = v.extractLsb' 8 8 ++ v.extractLsb' 0 8 := rfl
  apply BitVec.eq_of_toNat_eq
  rw [h, BitVec.toNat_append]
  simp only [BitVec.extractLsb'_toNat, Nat.shiftRight_eq_div_pow]
  rw [← Nat.shiftLeft_add_eq_or_of_lt (by omega), Nat.shiftLeft_eq]
  omega

theorem add_one_ne (a : Word) : a + 1 ≠ a := by
  have := a.isLt
  intro h
  have := congrArg BitVec.toNat h
  simp [BitVec.toNat_add] at this
  omega

theorem State.byteAt_setWord_even {s : State} (h : s.mem.wf) (a v : Word) : (s.setWord a v).byteAt a = evenByte v := by
  rw [State.setWord, State.byteAt_setByte_other _ _ _ _ (add_one_ne a).symm, State.byteAt_setByte_same h]

theorem State.byteAt_setWord_odd {s : State} (h : s.mem.wf) (a v : Word) : (s.setWord a v).byteAt (a + 1) = oddByte v := by
  rw [State.setWord, State.byteAt_setByte_same (State.setByte_wf h _ _)]

theorem State.wordAt_setWord_same {s : State} (h : s.mem.wf) (a v : Word) : (s.setWord a v).wordAt a = v := by
  rw [State.wordAt, State.byteAt_setWord_even h, State.byteAt_setWord_odd h, wordOfBytes_evenByte_oddByte]

theorem State.wordAt_setWord_other (s : State) (a b v : Word) (ha : isOdd a = false) (hb : isOdd b = false)
    (h : b ≠ a) : (s.setWord a v).wordAt b = s.wordAt b := by
  have := a.isLt
  have := b.isLt
  rw [isOdd_eq, decide_eq_false_iff_not] at ha hb
  have h' : b.toNat ≠ a.toNat := fun e => h (BitVec.eq_of_toNat_eq e)
  rw [State.wordAt, State.wordAt, State.byteAt_setWord_other, State.byteAt_setWord_other] <;>
    first
    | exact h
    | (intro e; have := congrArg BitVec.toNat e; simp [BitVec.toNat_add] at this; omega)

theorem regAddr_injective {rb : Word} {i j : RegNum} (h : regAddr rb i = regAddr rb j) : i = j := by
  have := congrArg BitVec.toNat h
  rw [regAddr_toNat, regAddr_toNat] at this
  exact BitVec.eq_of_toNat_eq (by omega)

theorem State.reg_setReg_same {s : State} (h : s.mem.wf) (i : RegNum) (v : Word) : (s.setReg i v).reg i = v :=
  State.wordAt_setWord_same h _ _

theorem State.reg_setReg_other (s : State) (i j : RegNum) (v : Word) (h : j ≠ i) : (s.setReg i v).reg j = s.reg j :=
  State.wordAt_setWord_other _ _ _ _ (regAddr_even _ _) (regAddr_even _ _) fun e => h (regAddr_injective e)

end Sys2Proof.Machine
end

