-- ==== Sys2Proof/Laws/Ops.lean ====
section
/-! SUPPORT. For each shared operation, once, everything it can do when it answers: the iff lemmas that the proofs cite
instead of unfolding the operation. -/

namespace Sys2Proof.Machine

/-! ### Outcomes -/

@[simp] theorem bindOut_next {α β : Type} (a : α) (k : α → Out β) : bindOut (.next a) k = k a := rfl
@[simp] theorem bindOut_fault {α β : Type} (f : Fault) (k : α → Out β) : bindOut (.fault f) k = .fault f := rfl
@[simp] theorem bindOut_refused {α β : Type} (r : Refusal) (k : α → Out β) : bindOut (.refused r) k = .refused r := rfl

theorem bindOut_next_iff {α β : Type} {x : Out α} {k : α → Out β} {b : β} :
    bindOut x k = .next b ↔ ∃ a, x = .next a ∧ k a = .next b := by
  cases x <;> simp [bindOut]

@[simp] theorem stopOr_none {α : Type} (x : α) : stopOr none x = .next x := rfl

theorem stopOr_next_iff {α : Type} {c : Option Stop} {x y : α} : stopOr c x = .next y ↔ c = none ∧ x = y := by
  rcases c with _ | _ | _ <;> simp [stopOr]

/-! ### The memory map -/

theorem someByteIs_word {m : MemMap} {c : Region} {a : Word} :
    someByteIs m c a .word = true ↔ memClass m a = c ∨ memClass m (a + 1) = c := by simp [someByteIs]

theorem everyByteIs_word {m : MemMap} {c : Region} {a : Word} :
    everyByteIs m c a .word = true ↔ memClass m a = c ∧ memClass m (a + 1) = c := by simp [everyByteIs]

@[simp] theorem someByteIs_byte {m : MemMap} {c : Region} {a : Word} : someByteIs m c a .byte = (memClass m a == c) := rfl
@[simp] theorem everyByteIs_byte {m : MemMap} {c : Region} {a : Word} : everyByteIs m c a .byte = (memClass m a == c) := rfl

/-- An access all of whose bytes are of one class has none of another. -/
theorem someByteIs_of_every {m : MemMap} {c d : Region} {a : Word} {w : Width} (h : everyByteIs m c a w = true)
    (hd : c ≠ d) : someByteIs m d a w = false := by
  cases w <;> simp_all [everyByteIs, someByteIs]

theorem memClass_of_every {m : MemMap} {c : Region} {a : Word} {w : Width} (h : everyByteIs m c a w = true) :
    memClass m a = c := by
  cases w <;> simp_all [everyByteIs]

/-- An address the spec fixes has its class under every map. -/
theorem memClass_fixed {a : Word} {c : Region} (h : fixedClass a = some c) (m : MemMap) : memClass m a = c := by
  rw [memClass, h]

/-- The class of an address the spec does not fix is one of the four open ones. -/
theorem memClass_open {a : Word} (h : fixedClass a = none) (m : MemMap) :
    memClass m a ≠ .flags ∧ memClass m a ≠ .regbank := by
  rw [memClass, h]
  cases openClass m a <;> simp [regionOfOpen]

/-- Flags and REGBANK lie at their own words alone, under every map. -/
theorem memClass_control {m : MemMap} {a : Word} :
    (memClass m a = .flags ↔ a.toNat / 2 = 0x6000) ∧ (memClass m a = .regbank ↔ a.toNat / 2 = 0x6001) := by
  have ha := a.isLt
  cases h : fixedClass a with
  | none =>
    have ho := memClass_open h m
    simp only [fixedClass] at h
    simp only [ho.1, ho.2, false_iff]
    constructor <;> (intro e; split_ifs at h <;> omega)
  | some c =>
    rw [memClass_fixed h m]
    simp only [fixedClass, show intEnableAddr.toNat / 2 = 0x6007 by decide, show gpioAddr.toNat / 2 = 0x6012 by decide] at h
    split_ifs at h <;> cases h <;> simp <;> omega

/-- The registers of a window in RAM are RAM. -/
theorem everyByteIs_reg {m : MemMap} {rb : Word} (h : windowInRam m rb = true) (i : RegNum) :
    everyByteIs m .ram (regAddr rb i) .word = true := by
  have := List.all_eq_true.mp h i.toNat (List.mem_range.mpr i.isLt)
  simpa using this

/-! ### Registers -/

theorem regCheck_none_iff {s : State} : regCheck s = none ↔ regsOk s = true := by
  simp [regCheck, regsOk]

theorem readReg_next_iff {i : RegNum} {s : State} {v : Word} :
    readReg i s = .next v ↔ regsOk s = true ∧ s.reg i = v := by
  rw [readReg, stopOr_next_iff, regCheck_none_iff]

theorem writeReg_next_iff {i : RegNum} {v : Word} {s t : State} :
    writeReg i v s = .next t ↔ regsOk s = true ∧ s.setReg i v = t := by
  rw [writeReg, stopOr_next_iff, regCheck_none_iff]

/-! ### Loads and stores -/

theorem loadCheck_none_iff {m : MemMap} {a : Word} {w : Width} : loadCheck m a w = none ↔ loadOk m a w = true := by
  cases w
  · simp only [loadCheck, loadOk]
    rcases isOdd a with _ | _ <;> rcases someByteIs m .unmapped a .word with _ | _ <;> simp
  · simp only [loadCheck, loadOk]
    cases memClass m a <;> simp

theorem storeCheck_none_iff {m : MemMap} {a : Word} {w : Width} : storeCheck m a w = none ↔ storeOk m a w = true := by
  unfold storeCheck storeOk
  rcases h : loadCheck m a w with _ | c
  · simp [loadCheck_none_iff.mp h]
  · have : loadOk m a w = false := by
      rw [← Bool.not_eq_true, ← loadCheck_none_iff, h]; simp
    simp [this]

theorem modifyCheck_none_iff {m : MemMap} {a : Word} {w : Width} :
    modifyCheck m a w = none ↔ modifyOk m a w = true := by
  unfold modifyCheck modifyOk
  rcases h : storeCheck m a w with _ | c
  · simp [storeCheck_none_iff.mp h]
  · have : storeOk m a w = false := by
      rw [← Bool.not_eq_true, ← storeCheck_none_iff, h]; simp
    simp [this]

theorem slotOk_iff {m : MemMap} {a : Word} :
    slotOk m a = true ↔ isOdd a = false ∧ everyByteIs m .ram a .word = true := by simp [slotOk]

theorem stackCheck_store_none_iff {m : MemMap} {a : Word} :
    stackCheck m a (storeCheck m a .word) = none ↔ slotOk m a = true := by
  rw [slotOk_iff]
  cases hs : storeCheck m a .word with
  | none =>
    have := storeCheck_none_iff.mp hs
    simp only [storeOk, loadOk, Bool.and_eq_true, Bool.not_eq_true'] at this
    simp [stackCheck, this.1.1]
  | some c =>
    simp only [stackCheck, reduceCtorEq, false_iff, not_and]
    intro ho he
    have : storeCheck m a .word = none := storeCheck_none_iff.mpr (by
      simp [storeOk, loadOk, ho, someByteIs_of_every he])
    simp [this] at hs

theorem stackCheck_load_none_iff {m : MemMap} {a : Word} :
    stackCheck m a (loadCheck m a .word) = none ↔ slotOk m a = true := by
  rw [slotOk_iff]
  cases hs : loadCheck m a .word with
  | none =>
    have := loadCheck_none_iff.mp hs
    simp only [loadOk, Bool.and_eq_true, Bool.not_eq_true'] at this
    simp [stackCheck, this.1]
  | some c =>
    simp only [stackCheck, reduceCtorEq, false_iff, not_and]
    intro ho he
    have : loadCheck m a .word = none := loadCheck_none_iff.mpr (by simp [loadOk, ho, someByteIs_of_every he])
    simp [this] at hs

theorem load_next_iff {a : Word} {w : Width} {s : State} {p : Word × State} :
    load a w s = .next p ↔ loadOk s.memMap a w = true ∧ (loadValue a w s, afterLoad a w s) = p := by
  rw [load, stopOr_next_iff, loadCheck_none_iff]

theorem store_next_iff {a : Word} {w : Width} {v : Word} {s t : State} :
    store a w v s = .next t ↔ storeOk s.memMap a w = true ∧ storeState a w v s = t := by
  rw [store, stopOr_next_iff, storeCheck_none_iff]

/-- A load changes nothing but the draws. -/
theorem afterLoad_eq (a : Word) (w : Width) (s : State) : afterLoad a w s = s ∨ afterLoad a w s = s.drawn := by
  unfold afterLoad; split_ifs <;> simp

@[simp] theorem afterLoad_mem (a : Word) (w : Width) (s : State) : (afterLoad a w s).mem = s.mem := by
  rcases afterLoad_eq a w s with h | h <;> simp [h]
@[simp] theorem afterLoad_regbank (a : Word) (w : Width) (s : State) : (afterLoad a w s).regbank = s.regbank := by
  rcases afterLoad_eq a w s with h | h <;> simp [h]
@[simp] theorem afterLoad_flags (a : Word) (w : Width) (s : State) : (afterLoad a w s).flags = s.flags := by
  rcases afterLoad_eq a w s with h | h <;> simp [h]
@[simp] theorem afterLoad_pc (a : Word) (w : Width) (s : State) : (afterLoad a w s).pc = s.pc := by
  rcases afterLoad_eq a w s with h | h <;> simp [h]
@[simp] theorem afterLoad_intEnable (a : Word) (w : Width) (s : State) : (afterLoad a w s).intEnable = s.intEnable := by
  rcases afterLoad_eq a w s with h | h <;> simp [h]
@[simp] theorem afterLoad_pending (a : Word) (w : Width) (s : State) : (afterLoad a w s).pending = s.pending := by
  rcases afterLoad_eq a w s with h | h <;> simp [h]
@[simp] theorem afterLoad_stiShadow (a : Word) (w : Width) (s : State) : (afterLoad a w s).stiShadow = s.stiShadow := by
  rcases afterLoad_eq a w s with h | h <;> simp [h]
@[simp] theorem afterLoad_devWrites (a : Word) (w : Width) (s : State) : (afterLoad a w s).devWrites = s.devWrites := by
  rcases afterLoad_eq a w s with h | h <;> simp [h]
@[simp] theorem afterLoad_memMap (a : Word) (w : Width) (s : State) : (afterLoad a w s).memMap = s.memMap := by
  rcases afterLoad_eq a w s with h | h <;> simp [h]
@[simp] theorem afterLoad_turns (a : Word) (w : Width) (s : State) : (afterLoad a w s).turns = s.turns := by
  rcases afterLoad_eq a w s with h | h <;> simp [h]
@[simp] theorem afterLoad_reg (a : Word) (w : Width) (s : State) (i : RegNum) :
    (afterLoad a w s).reg i = s.reg i := by
  rcases afterLoad_eq a w s with h | h <;> simp [h]
@[simp] theorem afterLoad_wordAt (a b : Word) (w : Width) (s : State) :
    (afterLoad a w s).wordAt b = s.wordAt b := by
  rcases afterLoad_eq a w s with h | h <;> simp [h]
@[simp] theorem afterLoad_byteAt (a b : Word) (w : Width) (s : State) :
    (afterLoad a w s).byteAt b = s.byteAt b := by
  rcases afterLoad_eq a w s with h | h <;> simp [h]

/-- A byte of RAM or ROM is read from memory. -/
theorem loadValue_byte {a : Word} {s : State} (h : memClass s.memMap a = .ram ∨ memClass s.memMap a = .rom) :
    loadValue a .byte s = (s.byteAt a).setWidth 16 := by
  rcases h with h | h <;> simp [loadValue, locationByte, h]

/-- A word of RAM and ROM bytes is read from memory. -/
theorem loadValue_word {a : Word} {s : State} (h : memClass s.memMap a = .ram ∨ memClass s.memMap a = .rom)
    (h1 : memClass s.memMap (a + 1) = .ram ∨ memClass s.memMap (a + 1) = .rom) :
    loadValue a .word s = s.wordAt a := by
  have e : locationByte a s = s.byteAt a := by rcases h with h | h <;> simp [locationByte, h]
  have e1 : locationByte (a + 1) s = s.byteAt (a + 1) := by rcases h1 with h1 | h1 <;> rw [locationByte, h1] <;> rfl
  rw [State.wordAt, ← e, ← e1]
  rcases h with h | h <;> simp [loadValue, everyByteIs, h]

/-- A load from RAM and ROM bytes draws no free value. -/
theorem afterLoad_memory {a : Word} {w : Width} {s : State} (h : memClass s.memMap a ≠ .regbank)
    (hd : someByteIs s.memMap .device a w = false) : afterLoad a w s = s := by
  simp [afterLoad, h, hd]

/-- A word stored in RAM. -/
theorem storeState_word {a v : Word} {s : State} (h : everyByteIs s.memMap .ram a .word = true) :
    storeState a .word v s = s.setWord a v := by
  rw [everyByteIs_word] at h
  have e : setLocation a (evenByte v) s = s.setByte a (evenByte v) := by simp [setLocation, h.1]
  have e1 : setLocation (a + 1) (oddByte v) (s.setByte a (evenByte v)) = s.setWord a v := by
    rw [setLocation, State.setByte_memMap, h.2]; rfl
  rw [← e1, ← e]
  simp [storeState, everyByteIs, h.1]

/-- A byte stored in RAM. -/
theorem storeState_byte {a v : Word} {s : State} (h : memClass s.memMap a = .ram) :
    storeState a .byte v s = s.setByte a (v.extractLsb' 0 8) := by
  simp [storeState, setLocation, h]

/-- A store is to Flags, to REGBANK, or to one or two locations. -/
theorem storeState_cases (a : Word) (w : Width) (v : Word) (s : State) :
    (memClass s.memMap a = .flags ∧ storeState a w v s = s.withFlags (Flags.ofWord v)) ∨
    (memClass s.memMap a = .regbank ∧ storeState a w v s = { s with regbank := v }) ∨
    (memClass s.memMap a ≠ .flags ∧ memClass s.memMap a ≠ .regbank ∧
      ((w = .word ∧ everyByteIs s.memMap .device a .word = true ∧ storeState a w v s = deviceStore a w v s) ∨
       (w = .word ∧ everyByteIs s.memMap .device a .word = false ∧
         storeState a w v s = setLocation (a + 1) (oddByte v) (setLocation a (evenByte v) s)) ∨
       (w = .byte ∧ storeState a w v s = setLocation a (v.extractLsb' 0 8) s))) := by
  unfold storeState
  cases memClass s.memMap a <;> cases w <;> cases everyByteIs s.memMap .device a .word <;> simp

theorem setLocation_cases (a : Word) (v : Byte) (s : State) :
    (memClass s.memMap a = .device ∧ setLocation a v s = deviceStore a .byte (v.setWidth 16) s) ∨
    (memClass s.memMap a ≠ .device ∧ setLocation a v s = s.setByte a v) := by
  unfold setLocation; split <;> simp_all

@[simp] theorem setLocation_regbank (a : Word) (v : Byte) (s : State) : (setLocation a v s).regbank = s.regbank := by
  unfold setLocation; split <;> rfl
@[simp] theorem setLocation_flags (a : Word) (v : Byte) (s : State) : (setLocation a v s).flags = s.flags := by
  unfold setLocation; split <;> rfl
@[simp] theorem setLocation_pc (a : Word) (v : Byte) (s : State) : (setLocation a v s).pc = s.pc := by
  unfold setLocation; split <;> rfl
@[simp] theorem setLocation_pending (a : Word) (v : Byte) (s : State) : (setLocation a v s).pending = s.pending := by
  unfold setLocation; split <;> rfl
@[simp] theorem setLocation_stiShadow (a : Word) (v : Byte) (s : State) : (setLocation a v s).stiShadow = s.stiShadow := by
  unfold setLocation; split <;> rfl
@[simp] theorem setLocation_draws (a : Word) (v : Byte) (s : State) : (setLocation a v s).draws = s.draws := by
  unfold setLocation; split <;> rfl
@[simp] theorem setLocation_memMap (a : Word) (v : Byte) (s : State) : (setLocation a v s).memMap = s.memMap := by
  unfold setLocation; split <;> rfl
@[simp] theorem setLocation_turns (a : Word) (v : Byte) (s : State) : (setLocation a v s).turns = s.turns := by
  unfold setLocation; split <;> rfl

/-- A store changes neither `pc`, the latches, the STI shadow, the draws, the map nor the turns. -/
@[simp] theorem storeState_pc (a : Word) (w : Width) (v : Word) (s : State) :
    (storeState a w v s).pc = s.pc := by
  rcases storeState_cases a w v s with ⟨-, h⟩ | ⟨-, h⟩ | ⟨-, -, ⟨-, -, h⟩ | ⟨-, -, h⟩ | ⟨-, h⟩⟩ <;> simp [h]
@[simp] theorem storeState_pending (a : Word) (w : Width) (v : Word) (s : State) :
    (storeState a w v s).pending = s.pending := by
  rcases storeState_cases a w v s with ⟨-, h⟩ | ⟨-, h⟩ | ⟨-, -, ⟨-, -, h⟩ | ⟨-, -, h⟩ | ⟨-, h⟩⟩ <;> simp [h]
@[simp] theorem storeState_stiShadow (a : Word) (w : Width) (v : Word) (s : State) :
    (storeState a w v s).stiShadow = s.stiShadow := by
  rcases storeState_cases a w v s with ⟨-, h⟩ | ⟨-, h⟩ | ⟨-, -, ⟨-, -, h⟩ | ⟨-, -, h⟩ | ⟨-, h⟩⟩ <;> simp [h]
@[simp] theorem storeState_draws (a : Word) (w : Width) (v : Word) (s : State) :
    (storeState a w v s).draws = s.draws := by
  rcases storeState_cases a w v s with ⟨-, h⟩ | ⟨-, h⟩ | ⟨-, -, ⟨-, -, h⟩ | ⟨-, -, h⟩ | ⟨-, h⟩⟩ <;> simp [h]
@[simp] theorem storeState_memMap (a : Word) (w : Width) (v : Word) (s : State) :
    (storeState a w v s).memMap = s.memMap := by
  rcases storeState_cases a w v s with ⟨-, h⟩ | ⟨-, h⟩ | ⟨-, -, ⟨-, -, h⟩ | ⟨-, -, h⟩ | ⟨-, h⟩⟩ <;> simp [h]
@[simp] theorem storeState_turns (a : Word) (w : Width) (v : Word) (s : State) :
    (storeState a w v s).turns = s.turns := by
  rcases storeState_cases a w v s with ⟨-, h⟩ | ⟨-, h⟩ | ⟨-, -, ⟨-, -, h⟩ | ⟨-, -, h⟩ | ⟨-, h⟩⟩ <;> simp [h]

theorem setLocation_wf {s : State} (h : s.mem.wf) (a : Word) (v : Byte) : (setLocation a v s).mem.wf := by
  unfold setLocation; split
  · exact h
  · exact State.setByte_wf h _ _

/-- A store keeps the canonical form of memory. -/
theorem storeState_wf {s : State} (h : s.mem.wf) (a : Word) (w : Width) (v : Word) : (storeState a w v s).mem.wf := by
  rcases storeState_cases a w v s with ⟨-, e⟩ | ⟨-, e⟩ | ⟨-, -, ⟨-, -, e⟩ | ⟨-, -, e⟩ | ⟨-, e⟩⟩ <;> rw [e]
  · exact h
  · exact h
  · exact h
  · exact setLocation_wf (setLocation_wf h _ _) _ _
  · exact setLocation_wf h _ _

/-! ### The stack and transfers of control -/

theorem push_next_iff {v : Word} {s t : State} :
    push v s = .next t ↔
      regsOk s = true ∧ slotOk s.memMap (pushAddr s) = true ∧ (s.setReg 15 (pushAddr s)).setWord (pushAddr s) v = t := by
  simp only [push, bindOut_next_iff, readReg_next_iff, writeReg_next_iff, stopOr_next_iff, stackCheck_store_none_iff]
  constructor
  · rintro ⟨_, ⟨h, rfl⟩, _, ⟨-, rfl⟩, h2, h3⟩; exact ⟨h, h2, h3⟩
  · rintro ⟨h, h2, h3⟩; exact ⟨_, ⟨h, rfl⟩, _, ⟨h, rfl⟩, h2, h3⟩

theorem pop_next_iff {s : State} {p : Word × State} :
    pop s = .next p ↔
      regsOk s = true ∧ slotOk s.memMap (s.reg 15) = true ∧ (s.wordAt (s.reg 15), s.setReg 15 (s.reg 15 + 2)) = p := by
  simp only [pop, bindOut_next_iff, readReg_next_iff, writeReg_next_iff, stopOr_next_iff, stackCheck_load_none_iff]
  constructor
  · rintro ⟨_, ⟨h, rfl⟩, _, ⟨h2, rfl⟩, _, ⟨-, rfl⟩, h3⟩; exact ⟨h, h2, by simpa using h3⟩
  · rintro ⟨h, h2, h3⟩; exact ⟨_, ⟨h, rfl⟩, _, ⟨h2, rfl⟩, _, ⟨h, rfl⟩, by simpa using h3⟩

theorem jumpTo_next_iff {a : Word} {s t : State} :
    jumpTo a s = .next t ↔ isOdd a = false ∧ { s with pc := a } = t := by
  unfold jumpTo
  cases isOdd a <;> simp

/-- The vector table lies in RAM under every map (R62), at even addresses. -/
theorem vector_slotOk (m : MemMap) (v : BitVec 7) : slotOk m (vectorAddr v) = true := by
  have h : ∀ v, fixedClass (vectorAddr v) = some .ram ∧ fixedClass (vectorAddr v + 1) = some .ram ∧
      isOdd (vectorAddr v) = false := by decide
  obtain ⟨h0, h1, ho⟩ := h v
  exact slotOk_iff.mpr ⟨ho, everyByteIs_word.mpr ⟨memClass_fixed h0 m, memClass_fixed h1 m⟩⟩

/-- A slot can be loaded from, and the load reads memory. -/
theorem slot_load {s : State} {a : Word} (h : slotOk s.memMap a = true) :
    load a .word s = .next (s.wordAt a, s) := by
  obtain ⟨ho, he⟩ := slotOk_iff.mp h
  have hc := everyByteIs_word.mp he
  refine load_next_iff.mpr ⟨by simp [loadOk, ho, someByteIs_of_every he], ?_⟩
  rw [loadValue_word (.inl hc.1) (.inl hc.2), afterLoad_memory (by simp [hc.1]) (someByteIs_of_every he (by simp))]

end Sys2Proof.Machine
end

