-- ==== Sys2Proof/Laws/Operands.lean ====
section
/-! SUPPORT. The access functions of 40_operands.md: each answers exactly where `readable`, `writable` or `modifiable`
says, and answers what `readValue` and the `after…` functions say. -/

namespace Sys2Proof.Machine

theorem readOperand_next_iff {op : Operand} {s : State} {p : Word × State} :
    readOperand op s = .next p ↔ readable op s = true ∧ (readValue op s, afterRead op s) = p := by
  cases op with
  | reg n => simp [readOperand, readable, readValue, afterRead, bindOut_next_iff, readReg_next_iff, and_assoc]
  | imm v => simp [readOperand, readable, readValue, afterRead]
  | direct w a => simp [readOperand, readable, readValue, afterRead, load_next_iff]
  | indirect w r =>
    simp [readOperand, readable, readValue, afterRead, bindOut_next_iff, readReg_next_iff, load_next_iff, and_assoc]
  | autoInc w r =>
    simp [readOperand, readable, readValue, afterRead, bindOut_next_iff, readReg_next_iff, load_next_iff,
      writeReg_next_iff, regsOk, and_assoc]
    tauto
  | stack => simp [readOperand, readable, readValue, afterRead, pop_next_iff, and_assoc]
  | indexed w r off =>
    simp [readOperand, readable, readValue, afterRead, bindOut_next_iff, readReg_next_iff, load_next_iff, and_assoc]

theorem writeOperand_next_iff {op : Operand} {v : Word} {s t : State} :
    writeOperand op v s = .next t ↔ writable op v s = true ∧ afterWrite op v s = t := by
  cases op with
  | reg n => simp [writeOperand, writable, afterWrite, writeReg_next_iff]
  | imm v => simp [writeOperand, writable]
  | direct w a => simp [writeOperand, writable, afterWrite, store_next_iff]
  | indirect w r =>
    simp [writeOperand, writable, afterWrite, bindOut_next_iff, readReg_next_iff, store_next_iff, and_assoc]
  | autoInc w r =>
    simp [writeOperand, writable, afterWrite, bindOut_next_iff, readReg_next_iff, store_next_iff, writeReg_next_iff,
      and_assoc]
  | stack => simp [writeOperand, writable, afterWrite, push_next_iff, and_assoc]
  | indexed w r off =>
    simp [writeOperand, writable, afterWrite, bindOut_next_iff, readReg_next_iff, store_next_iff, and_assoc]

theorem modifyAt_next_iff {a : Word} {w : Width} {g : Alu} {s t : State} :
    modifyAt a w g s = .next t ↔ modifyOk s.memMap a w = true ∧ modifiedAt a w g s = t := by
  rw [modifyAt, stopOr_next_iff, modifyCheck_none_iff]

theorem modifyOperand_next_iff {op : Operand} {g : Alu} {s t : State} :
    modifyOperand op g s = .next t ↔ modifiable op g s = true ∧ afterModify op g s = t := by
  cases op with
  | reg n =>
    simp [modifyOperand, modifiable, afterModify, bindOut_next_iff, readReg_next_iff, writeReg_next_iff, and_assoc]
  | imm v => simp [modifyOperand, modifiable]
  | direct w a => simp [modifyOperand, modifiable, afterModify, modifyAt_next_iff]
  | indirect w r =>
    simp [modifyOperand, modifiable, afterModify, bindOut_next_iff, readReg_next_iff, modifyAt_next_iff, and_assoc]
  | autoInc w r =>
    simp [modifyOperand, modifiable, afterModify, bindOut_next_iff, readReg_next_iff, modifyAt_next_iff,
      writeReg_next_iff, and_assoc]
  | stack => simp [modifyOperand, modifiable]
  | indexed w r off =>
    simp [modifyOperand, modifiable, afterModify, bindOut_next_iff, readReg_next_iff, modifyAt_next_iff, and_assoc]

theorem compareOperand_next_iff {op : Operand} {g : Alu} {s t : State} :
    compareOperand op g s = .next t ↔
      readable op s = true ∧
        (afterRead op s).withFlags (g (readValue op s) (afterRead op s).flags).2 = t := by
  simp only [compareOperand, bindOut_next_iff, readOperand_next_iff]
  constructor
  · rintro ⟨_, ⟨h, rfl⟩, h2⟩; exact ⟨h, by simpa using h2⟩
  · rintro ⟨h, h2⟩; exact ⟨_, ⟨h, rfl⟩, by simpa using h2⟩

theorem withSource_next_iff {src dst : Operand} {s t : State} {k : Word → State → Out State} :
    withSource src dst s k = .next t ↔
      isImmediate dst = false ∧ readable src s = true ∧ k (readValue src s) (afterRead src s) = .next t := by
  unfold withSource
  cases isImmediate dst
  · simp only [Bool.false_eq_true, if_false, bindOut_next_iff, readOperand_next_iff, true_and]
    constructor
    · rintro ⟨_, ⟨h, rfl⟩, h2⟩; exact ⟨h, h2⟩
    · rintro ⟨h, h2⟩; exact ⟨_, ⟨h, rfl⟩, h2⟩
  · simp

/-- The Flags register is not touched by reading an operand. -/
@[simp] theorem afterRead_flags (op : Operand) (s : State) : (afterRead op s).flags = s.flags := by
  cases op <;> simp [afterRead]

@[simp] theorem afterRead_regbank (op : Operand) (s : State) : (afterRead op s).regbank = s.regbank := by
  cases op <;> simp [afterRead]

@[simp] theorem afterRead_pc (op : Operand) (s : State) : (afterRead op s).pc = s.pc := by
  cases op <;> simp [afterRead]

@[simp] theorem afterRead_pending (op : Operand) (s : State) : (afterRead op s).pending = s.pending := by
  cases op <;> simp [afterRead]

@[simp] theorem afterRead_intEnable (op : Operand) (s : State) : (afterRead op s).intEnable = s.intEnable := by
  cases op <;> simp [afterRead]

@[simp] theorem afterRead_stiShadow (op : Operand) (s : State) : (afterRead op s).stiShadow = s.stiShadow := by
  cases op <;> simp [afterRead]

@[simp] theorem afterRead_devWrites (op : Operand) (s : State) : (afterRead op s).devWrites = s.devWrites := by
  cases op <;> simp [afterRead]

@[simp] theorem afterRead_memMap (op : Operand) (s : State) : (afterRead op s).memMap = s.memMap := by
  cases op <;> simp [afterRead]

@[simp] theorem afterRead_turns (op : Operand) (s : State) : (afterRead op s).turns = s.turns := by
  cases op <;> simp [afterRead]

theorem afterRead_wf {s : State} (h : s.mem.wf) (op : Operand) : (afterRead op s).mem.wf := by
  cases op <;> simp only [afterRead, afterLoad_mem] <;>
    first | exact h | (apply State.setReg_wf; simpa using h)

end Sys2Proof.Machine
end

