-- ==== Sys2Proof/Laws/Frames.lean ====
section
/-! SUPPORT. Which bytes of memory and which control state each access function can change. -/

namespace Sys2Proof.Machine

/-! ### Bytes -/

theorem SameBytesOutside.refl (l : List Word) (s : State) : SameBytesOutside l s s := fun _ _ => rfl

theorem SameBytesOutside.trans {l l' : List Word} {s t u : State} (h : SameBytesOutside l s t)
    (h' : SameBytesOutside l' t u) : SameBytesOutside (l ++ l') s u := fun a ha => by
  rw [List.mem_append, not_or] at ha
  rw [h' a ha.2, h a ha.1]

theorem setWord_sameBytes (s : State) (a v : Word) : SameBytesOutside (bytesAt a .word) s (s.setWord a v) := fun b hb => by
  simp only [bytesAt, List.mem_cons, List.not_mem_nil, or_false, not_or] at hb
  exact State.byteAt_setWord_other _ _ _ _ hb.1 hb.2

theorem setReg_sameBytes (s : State) (i : RegNum) (v : Word) : SameBytesOutside (regBytes s i) s (s.setReg i v) :=
  setWord_sameBytes _ _ _

theorem afterLoad_sameBytes (l : List Word) (a : Word) (w : Width) (s : State) :
    SameBytesOutside l s (afterLoad a w s) := fun _ _ => by simp

/-- A byte stored at a location changes that byte, and none where the location is a device's. -/
theorem setLocation_sameBytes (a : Word) (v : Byte) (s : State) :
    SameBytesOutside (if memClass s.memMap a = .device then [] else [a]) s (setLocation a v s) := by
  unfold setLocation
  split
  · exact fun _ _ => rfl
  · exact fun b hb => State.byteAt_setByte_other _ _ _ _ (by simpa using hb)

/-- Where a store completes, a byte that is neither a device's nor a control register's is RAM. -/
theorem ram_of_storeOk {m : MemMap} {a b : Word} {w : Width} (h : storeOk m a w = true) (hb : b ∈ bytesAt a w)
    (hf : memClass m a ≠ .flags) (hr : memClass m a ≠ .regbank) (hd : memClass m b ≠ .device) : memClass m b = .ram := by
  simp only [storeOk, Bool.and_eq_true, Bool.not_eq_true'] at h
  obtain ⟨h, h2⟩ := h
  cases w
  · simp only [loadOk, Bool.and_eq_true, Bool.not_eq_true', isOdd_eq, decide_eq_false_iff_not] at h
    rw [← Bool.not_eq_true, someByteIs_word, not_or] at h h2
    have ha := a.isLt
    have hs : (a + 1).toNat / 2 = a.toNat / 2 := by simp [BitVec.toNat_add]; omega
    have hf1 : memClass m (a + 1) ≠ .flags := by rwa [Ne, memClass_control.1, hs, ← memClass_control.1]
    have hr1 : memClass m (a + 1) ≠ .regbank := by rwa [Ne, memClass_control.2, hs, ← memClass_control.2]
    simp only [bytesAt, List.mem_cons, List.not_mem_nil, or_false] at hb
    rcases hb with rfl | rfl
    · cases hm : memClass m b <;> simp_all
    · cases hm : memClass m (a + 1) <;> simp_all
  · simp only [bytesAt, List.mem_cons, List.not_mem_nil, or_false] at hb
    subst hb
    simp only [someByteIs_byte] at h2
    cases hm : memClass m b <;> simp_all [loadOk]

theorem storeState_sameBytes {a : Word} {w : Width} (v : Word) (s : State) (h : storeOk s.memMap a w = true) :
    SameBytesOutside (storedBytes s.memMap a w) s (storeState a w v s) := by
  intro b hb
  have key : b ∈ bytesAt a w → memClass s.memMap a ≠ .flags → memClass s.memMap a ≠ .regbank →
      memClass s.memMap b = .device := fun h1 hf hr => by
    by_contra hd
    exact hb (by simp [storedBytes, h1, ram_of_storeOk h h1 hf hr hd])
  have loc : ∀ (u : State) (c : Word) (x : Byte), u.memMap = s.memMap → (b = c → memClass s.memMap b = .device) →
      (setLocation c x u).byteAt b = u.byteAt b := fun u c x hu hc => by
    refine setLocation_sameBytes c x u b ?_
    rw [hu]
    split
    · simp
    · rename_i hm
      simp only [List.mem_cons, List.not_mem_nil, or_false]
      rintro rfl
      exact hm (hc rfl)
  rcases storeState_cases a w v s with ⟨-, e⟩ | ⟨-, e⟩ | ⟨hf, hr, ⟨-, -, e⟩ | ⟨rfl, -, e⟩ | ⟨rfl, e⟩⟩ <;> rw [e]
  · rfl
  · rfl
  · rfl
  · rw [loc _ _ _ (by simp) fun hc => key (by simp [bytesAt, hc]) hf hr,
      loc _ _ _ rfl fun hc => key (by simp [bytesAt, hc]) hf hr]
  · exact loc _ _ _ rfl fun hc => key (by simp [bytesAt, hc]) hf hr

theorem afterRead_sameBytes (op : Operand) (s : State) : SameBytesOutside (readBytes op s) s (afterRead op s) := by
  cases op <;> simp only [readBytes, afterRead]
  case autoInc w r =>
    exact fun b hb => by rw [setReg_sameBytes (afterLoad (s.reg r) w s) r _ b (by simpa [regBytes] using hb)]; simp
  case stack => exact setReg_sameBytes _ _ _
  all_goals first | exact .refl _ _ | exact afterLoad_sameBytes _ _ _ _

theorem afterWrite_sameBytes {op : Operand} {v : Word} {s : State} (h : writable op v s = true) :
    SameBytesOutside (writeBytes op v s) s (afterWrite op v s) := by
  cases op <;> simp only [writeBytes, afterWrite, writable, Bool.and_eq_true] at *
  · exact setReg_sameBytes _ _ _
  · exact .refl _ _
  · exact storeState_sameBytes _ _ h
  · exact storeState_sameBytes _ _ h.2
  · exact (setReg_sameBytes _ _ _).trans (setWord_sameBytes _ _ _)
  · exact (storeState_sameBytes _ _ h.1.2).trans (setReg_sameBytes _ _ _)
  · exact storeState_sameBytes _ _ h.2

theorem modifiedAt_sameBytes {a : Word} {w : Width} (g : Alu) (s : State) (h : modifyOk s.memMap a w = true) :
    SameBytesOutside (storedBytes s.memMap a w) s (modifiedAt a w g s) := fun b hb => by
  simp only [modifyOk, Bool.and_eq_true] at h
  rw [modifiedAt, State.withFlags_byteAt, storeState_sameBytes _ _ (by simpa using h.1) b (by simpa using hb),
    afterLoad_byteAt]

theorem afterModify_sameBytes {op : Operand} {g : Alu} {s : State} (h : modifiable op g s = true) :
    SameBytesOutside (modifyBytes op g s) s (afterModify op g s) := by
  cases op <;> simp only [modifyBytes, afterModify, modifiable, Bool.and_eq_true] at *
  · exact setReg_sameBytes _ _ _
  · exact .refl _ _
  · exact modifiedAt_sameBytes _ _ h
  · exact modifiedAt_sameBytes _ _ h.2
  · exact .refl _ _
  · exact (modifiedAt_sameBytes _ _ h.1.2).trans (setReg_sameBytes _ _ _)
  · exact modifiedAt_sameBytes _ _ h.2

/-! ### Canonical memory -/

theorem afterWrite_wf {s : State} (h : s.mem.wf) (op : Operand) (v : Word) : (afterWrite op v s).mem.wf := by
  cases op <;> simp only [afterWrite]
  case reg => exact State.setReg_wf h _ _
  case imm => exact h
  case stack => exact State.setWord_wf (State.setReg_wf h _ _) _ _
  case autoInc => exact State.setReg_wf (storeState_wf h _ _ _) _ _
  all_goals exact storeState_wf h _ _ _

theorem modifiedAt_wf {s : State} (h : s.mem.wf) (a : Word) (w : Width) (g : Alu) : (modifiedAt a w g s).mem.wf := by
  simp only [modifiedAt, State.withFlags_mem]
  exact storeState_wf (by simpa using h) _ _ _

theorem afterModify_wf {s : State} (h : s.mem.wf) (op : Operand) (g : Alu) : (afterModify op g s).mem.wf := by
  cases op <;> simp only [afterModify]
  case reg => exact State.setReg_wf h _ _
  case autoInc => exact State.setReg_wf (modifiedAt_wf h _ _ _) _ _
  all_goals first | exact h | exact modifiedAt_wf h _ _ _

/-! ### Control state -/

theorem SameControlBut.refl (dst : Operand) (u s : State) : SameControlBut dst u s s := by simp [SameControlBut]

/-- Where a store completes, a control register's word is stored to only through its own word. -/
theorem isIntEnable_succ {a : Word} (h : isOdd a = false) : isIntEnable (a + 1) = isIntEnable a := by
  have ha := a.isLt
  rw [isOdd_eq, decide_eq_false_iff_not] at h
  have hs : (a + 1).toNat / 2 = a.toNat / 2 := by simp [BitVec.toNat_add]; omega
  rw [isIntEnable, isIntEnable, hs]

theorem setLocation_devWrites {a : Word} {v : Byte} {s : State} (h : memClass s.memMap a ≠ .device) :
    (setLocation a v s).devWrites = s.devWrites := by rw [setLocation, if_neg h]; rfl

theorem setLocation_intEnable {a : Word} {v : Byte} {s : State}
    (h : memClass s.memMap a ≠ .device ∨ isIntEnable a = false) : (setLocation a v s).intEnable = s.intEnable := by
  unfold setLocation
  split
  · simp_all [deviceStore, setIntEnable]
  · rfl

theorem storeState_sameControlBut {dst : Operand} {a : Word} {s : State} (v : Word) (ha : operandAddr dst s = some a)
    (h : storeOk s.memMap a (operandWidth dst) = true) :
    SameControlBut dst s s (storeState a (operandWidth dst) v s) := by
  have hodd : operandWidth dst = .word → isOdd a = false := fun hw => by
    rw [hw] at h; simp only [storeOk, loadOk, Bool.and_eq_true, Bool.not_eq_true'] at h; exact h.1.1
  refine ⟨by simp, by simp, by simp, by simp, ?_⟩
  simp only [targets, targetsIntEnable, ha]
  rcases storeState_cases a (operandWidth dst) v s with
    ⟨hm, e⟩ | ⟨hm, e⟩ | ⟨hf, hr, ⟨hw, hd, e⟩ | ⟨hw, hd, e⟩ | ⟨hw, e⟩⟩ <;> rw [e]
  · exact ⟨fun _ => rfl, fun _ => ⟨rfl, rfl⟩, fun _ => rfl⟩
  · refine ⟨fun hc => ?_, fun _ => ⟨rfl, rfl⟩, fun _ => rfl⟩
    cases hw : operandWidth dst <;> simp_all [someByteIs]
  · refine ⟨fun _ => rfl, fun hc => ?_, fun hi => by simp [deviceStore, setIntEnable, hi]⟩
    rw [hw] at hc
    simp_all [everyByteIs, someByteIs]
  · rw [hw]
    refine ⟨fun _ => by simp, fun hc => ?_, fun hi => ?_⟩
    · rw [← Bool.not_eq_true, someByteIs_word, not_or] at hc
      have h2 : memClass (setLocation a (evenByte v) s).memMap (a + 1) ≠ .device := by simpa using hc.2
      rw [setLocation_devWrites h2, setLocation_devWrites hc.1, setLocation_intEnable (.inl h2),
        setLocation_intEnable (.inl hc.1)]
      exact ⟨rfl, rfl⟩
    · rw [setLocation_intEnable (.inr (isIntEnable_succ (hodd hw) ▸ hi)), setLocation_intEnable (.inr hi)]
  · rw [hw]
    refine ⟨fun _ => by simp, fun hc => ?_, fun hi => setLocation_intEnable (.inr hi)⟩
    have h2 : memClass s.memMap a ≠ .device := by simpa using hc
    exact ⟨setLocation_devWrites h2, setLocation_intEnable (.inl h2)⟩

theorem afterWrite_sameControlBut {op : Operand} {v : Word} {s : State} (h : writable op v s = true) :
    SameControlBut op s s (afterWrite op v s) := by
  cases op <;> simp only [writable, Bool.and_eq_true] at h <;> simp only [afterWrite]
  case reg => simp [SameControlBut]
  case imm => exact .refl _ _ _
  case stack => simp [SameControlBut]
  case direct => exact storeState_sameControlBut (dst := .direct _ _) v rfl h
  case indirect => exact storeState_sameControlBut (dst := .indirect _ _) v rfl h.2
  case indexed => exact storeState_sameControlBut (dst := .indexed _ _ _) v rfl h.2
  case autoInc w r => simpa [SameControlBut, operandWidth] using storeState_sameControlBut (dst := .autoInc w r) v rfl h.1.2

theorem modifiedAt_sameControlBut {dst : Operand} {a : Word} {s : State} (g : Alu) (ha : operandAddr dst s = some a)
    (h : modifyOk s.memMap a (operandWidth dst) = true) :
    SameControlBut dst s s (modifiedAt a (operandWidth dst) g s) := by
  have ho : operandAddr dst (afterLoad a (operandWidth dst) s) = operandAddr dst s := by cases dst <;> simp [operandAddr]
  have ht : ∀ c, targets dst (afterLoad a (operandWidth dst) s) c = targets dst s c := fun c => by simp [targets, ho]
  have hi : targetsIntEnable dst (afterLoad a (operandWidth dst) s) = targetsIntEnable dst s := by
    simp [targetsIntEnable, ho]
  simp only [modifyOk, Bool.and_eq_true] at h
  have := storeState_sameControlBut (s := afterLoad a (operandWidth dst) s)
    (g (loadValue a (operandWidth dst) s) s.flags).1 (ho.trans ha) (by simpa using h.1)
  simpa [SameControlBut, modifiedAt, ht, hi] using this

theorem afterModify_sameControlBut {op : Operand} {g : Alu} {s : State} (h : modifiable op g s = true) :
    SameControlBut op s s (afterModify op g s) := by
  cases op <;> simp only [modifiable, Bool.and_eq_true] at h <;> simp only [afterModify]
  case reg => simp [SameControlBut]
  case direct => exact modifiedAt_sameControlBut (dst := .direct _ _) g rfl h
  case indirect => exact modifiedAt_sameControlBut (dst := .indirect _ _) g rfl h.2
  case indexed => exact modifiedAt_sameControlBut (dst := .indexed _ _ _) g rfl h.2
  case autoInc w r => simpa [SameControlBut, operandWidth] using modifiedAt_sameControlBut (dst := .autoInc w r) g rfl h.1.2
  all_goals exact .refl _ _ _

@[simp] theorem afterWrite_pc (op : Operand) (v : Word) (s : State) : (afterWrite op v s).pc = s.pc := by
  cases op <;> simp [afterWrite]

@[simp] theorem modifiedAt_pc (a : Word) (w : Width) (g : Alu) (s : State) : (modifiedAt a w g s).pc = s.pc := by
  simp [modifiedAt]

@[simp] theorem afterModify_pc (op : Operand) (g : Alu) (s : State) : (afterModify op g s).pc = s.pc := by
  cases op <;> simp [afterModify]

/-- The flags after a store: data where its word is the Flags register, else as before (R30). -/
theorem storeState_flags {a : Word} {w : Width} (v : Word) {s : State} (h : storeOk s.memMap a w = true) :
    (storeState a w v s).flags = if someByteIs s.memMap .flags a w then Flags.ofWord v else s.flags := by
  have hs : someByteIs s.memMap .flags a w = (memClass s.memMap a == .flags) := by
    cases w
    · simp only [storeOk, loadOk, Bool.and_eq_true, Bool.not_eq_true', isOdd_eq, decide_eq_false_iff_not] at h
      have ha := a.isLt
      have hd : (a + 1).toNat / 2 = a.toNat / 2 := by simp [BitVec.toNat_add]; omega
      rw [Bool.eq_iff_iff, someByteIs_word, beq_iff_eq, memClass_control.1, memClass_control.1, hd, or_self]
    · rfl
  rw [hs]
  rcases storeState_cases a w v s with ⟨hm, e⟩ | ⟨hm, e⟩ | ⟨hm, -, ⟨-, -, e⟩ | ⟨-, -, e⟩ | ⟨-, e⟩⟩ <;> simp [e, hm]

/-- The flags after a write: data where the operand is the Flags register, else as before (R30). -/
theorem afterWrite_flags {op : Operand} {v : Word} {s : State} (h : writable op v s = true) :
    (afterWrite op v s).flags = if targets op s .flags then Flags.ofWord v else s.flags := by
  cases op <;> simp only [writable, Bool.and_eq_true] at h <;>
    simp only [afterWrite, targets, operandAddr, operandWidth, State.setReg_flags, State.setWord_flags,
      Bool.false_eq_true, if_false]
  case direct => exact storeState_flags v h
  case indirect => exact storeState_flags v h.2
  case indexed => exact storeState_flags v h.2
  case autoInc => exact storeState_flags v h.1.2

end Sys2Proof.Machine
end

