-- ==== Sys2Proof/Laws/PerInstr.lean ====
section
/-! SUPPORT. Laws of the syntax, one lemma per constructor of `Instr`. -/

/-- The shape of an instruction names that instruction: `Instr.shape` and `Shape.instr` are inverse. -/
def Sys2Proof.Laws.ShapeRoundTrip.Statement (i : Sys2Proof.Instr) : Prop := i.shape.instr = i

open Sys2Proof

theorem Sys2Proof.Laws.ShapeRoundTrip.mov (src dst : Operand) : Sys2Proof.Laws.ShapeRoundTrip.Statement (.mov src dst) := rfl
theorem Sys2Proof.Laws.ShapeRoundTrip.add (src dst : Operand) : Sys2Proof.Laws.ShapeRoundTrip.Statement (.add src dst) := rfl
theorem Sys2Proof.Laws.ShapeRoundTrip.addc (src dst : Operand) : Sys2Proof.Laws.ShapeRoundTrip.Statement (.addc src dst) := rfl
theorem Sys2Proof.Laws.ShapeRoundTrip.sub (src dst : Operand) : Sys2Proof.Laws.ShapeRoundTrip.Statement (.sub src dst) := rfl
theorem Sys2Proof.Laws.ShapeRoundTrip.subb (src dst : Operand) : Sys2Proof.Laws.ShapeRoundTrip.Statement (.subb src dst) := rfl
theorem Sys2Proof.Laws.ShapeRoundTrip.cmp (src dst : Operand) : Sys2Proof.Laws.ShapeRoundTrip.Statement (.cmp src dst) := rfl
theorem Sys2Proof.Laws.ShapeRoundTrip.and (src dst : Operand) : Sys2Proof.Laws.ShapeRoundTrip.Statement (.and src dst) := rfl
theorem Sys2Proof.Laws.ShapeRoundTrip.test (src dst : Operand) : Sys2Proof.Laws.ShapeRoundTrip.Statement (.test src dst) := rfl
theorem Sys2Proof.Laws.ShapeRoundTrip.or (src dst : Operand) : Sys2Proof.Laws.ShapeRoundTrip.Statement (.or src dst) := rfl
theorem Sys2Proof.Laws.ShapeRoundTrip.xor (src dst : Operand) : Sys2Proof.Laws.ShapeRoundTrip.Statement (.xor src dst) := rfl
theorem Sys2Proof.Laws.ShapeRoundTrip.jz (off : BitVec 7) : Sys2Proof.Laws.ShapeRoundTrip.Statement (.jz off) := rfl
theorem Sys2Proof.Laws.ShapeRoundTrip.jnz (off : BitVec 7) : Sys2Proof.Laws.ShapeRoundTrip.Statement (.jnz off) := rfl
theorem Sys2Proof.Laws.ShapeRoundTrip.jc (off : BitVec 7) : Sys2Proof.Laws.ShapeRoundTrip.Statement (.jc off) := rfl
theorem Sys2Proof.Laws.ShapeRoundTrip.jnc (off : BitVec 7) : Sys2Proof.Laws.ShapeRoundTrip.Statement (.jnc off) := rfl
theorem Sys2Proof.Laws.ShapeRoundTrip.js (off : BitVec 7) : Sys2Proof.Laws.ShapeRoundTrip.Statement (.js off) := rfl
theorem Sys2Proof.Laws.ShapeRoundTrip.jns (off : BitVec 7) : Sys2Proof.Laws.ShapeRoundTrip.Statement (.jns off) := rfl
theorem Sys2Proof.Laws.ShapeRoundTrip.jo (off : BitVec 7) : Sys2Proof.Laws.ShapeRoundTrip.Statement (.jo off) := rfl
theorem Sys2Proof.Laws.ShapeRoundTrip.jno (off : BitVec 7) : Sys2Proof.Laws.ShapeRoundTrip.Statement (.jno off) := rfl
theorem Sys2Proof.Laws.ShapeRoundTrip.ja (off : BitVec 7) : Sys2Proof.Laws.ShapeRoundTrip.Statement (.ja off) := rfl
theorem Sys2Proof.Laws.ShapeRoundTrip.jbe (off : BitVec 7) : Sys2Proof.Laws.ShapeRoundTrip.Statement (.jbe off) := rfl
theorem Sys2Proof.Laws.ShapeRoundTrip.jg (off : BitVec 7) : Sys2Proof.Laws.ShapeRoundTrip.Statement (.jg off) := rfl
theorem Sys2Proof.Laws.ShapeRoundTrip.jge (off : BitVec 7) : Sys2Proof.Laws.ShapeRoundTrip.Statement (.jge off) := rfl
theorem Sys2Proof.Laws.ShapeRoundTrip.jl (off : BitVec 7) : Sys2Proof.Laws.ShapeRoundTrip.Statement (.jl off) := rfl
theorem Sys2Proof.Laws.ShapeRoundTrip.jle (off : BitVec 7) : Sys2Proof.Laws.ShapeRoundTrip.Statement (.jle off) := rfl
theorem Sys2Proof.Laws.ShapeRoundTrip.jmp (off : BitVec 7) : Sys2Proof.Laws.ShapeRoundTrip.Statement (.jmp off) := rfl
theorem Sys2Proof.Laws.ShapeRoundTrip.jzl (t : Operand) : Sys2Proof.Laws.ShapeRoundTrip.Statement (.jzl t) := rfl
theorem Sys2Proof.Laws.ShapeRoundTrip.jnzl (t : Operand) : Sys2Proof.Laws.ShapeRoundTrip.Statement (.jnzl t) := rfl
theorem Sys2Proof.Laws.ShapeRoundTrip.jcl (t : Operand) : Sys2Proof.Laws.ShapeRoundTrip.Statement (.jcl t) := rfl
theorem Sys2Proof.Laws.ShapeRoundTrip.jncl (t : Operand) : Sys2Proof.Laws.ShapeRoundTrip.Statement (.jncl t) := rfl
theorem Sys2Proof.Laws.ShapeRoundTrip.jsl (t : Operand) : Sys2Proof.Laws.ShapeRoundTrip.Statement (.jsl t) := rfl
theorem Sys2Proof.Laws.ShapeRoundTrip.jnsl (t : Operand) : Sys2Proof.Laws.ShapeRoundTrip.Statement (.jnsl t) := rfl
theorem Sys2Proof.Laws.ShapeRoundTrip.jol (t : Operand) : Sys2Proof.Laws.ShapeRoundTrip.Statement (.jol t) := rfl
theorem Sys2Proof.Laws.ShapeRoundTrip.jnol (t : Operand) : Sys2Proof.Laws.ShapeRoundTrip.Statement (.jnol t) := rfl
theorem Sys2Proof.Laws.ShapeRoundTrip.jal (t : Operand) : Sys2Proof.Laws.ShapeRoundTrip.Statement (.jal t) := rfl
theorem Sys2Proof.Laws.ShapeRoundTrip.jbel (t : Operand) : Sys2Proof.Laws.ShapeRoundTrip.Statement (.jbel t) := rfl
theorem Sys2Proof.Laws.ShapeRoundTrip.jgl (t : Operand) : Sys2Proof.Laws.ShapeRoundTrip.Statement (.jgl t) := rfl
theorem Sys2Proof.Laws.ShapeRoundTrip.jgel (t : Operand) : Sys2Proof.Laws.ShapeRoundTrip.Statement (.jgel t) := rfl
theorem Sys2Proof.Laws.ShapeRoundTrip.jll (t : Operand) : Sys2Proof.Laws.ShapeRoundTrip.Statement (.jll t) := rfl
theorem Sys2Proof.Laws.ShapeRoundTrip.jlel (t : Operand) : Sys2Proof.Laws.ShapeRoundTrip.Statement (.jlel t) := rfl
theorem Sys2Proof.Laws.ShapeRoundTrip.jmpl (t : Operand) : Sys2Proof.Laws.ShapeRoundTrip.Statement (.jmpl t) := rfl
theorem Sys2Proof.Laws.ShapeRoundTrip.rz : Sys2Proof.Laws.ShapeRoundTrip.Statement (.rz) := rfl
theorem Sys2Proof.Laws.ShapeRoundTrip.rnz : Sys2Proof.Laws.ShapeRoundTrip.Statement (.rnz) := rfl
theorem Sys2Proof.Laws.ShapeRoundTrip.rc : Sys2Proof.Laws.ShapeRoundTrip.Statement (.rc) := rfl
theorem Sys2Proof.Laws.ShapeRoundTrip.rnc : Sys2Proof.Laws.ShapeRoundTrip.Statement (.rnc) := rfl
theorem Sys2Proof.Laws.ShapeRoundTrip.rs : Sys2Proof.Laws.ShapeRoundTrip.Statement (.rs) := rfl
theorem Sys2Proof.Laws.ShapeRoundTrip.rns : Sys2Proof.Laws.ShapeRoundTrip.Statement (.rns) := rfl
theorem Sys2Proof.Laws.ShapeRoundTrip.ro : Sys2Proof.Laws.ShapeRoundTrip.Statement (.ro) := rfl
theorem Sys2Proof.Laws.ShapeRoundTrip.rno : Sys2Proof.Laws.ShapeRoundTrip.Statement (.rno) := rfl
theorem Sys2Proof.Laws.ShapeRoundTrip.ra : Sys2Proof.Laws.ShapeRoundTrip.Statement (.ra) := rfl
theorem Sys2Proof.Laws.ShapeRoundTrip.rbe : Sys2Proof.Laws.ShapeRoundTrip.Statement (.rbe) := rfl
theorem Sys2Proof.Laws.ShapeRoundTrip.rg : Sys2Proof.Laws.ShapeRoundTrip.Statement (.rg) := rfl
theorem Sys2Proof.Laws.ShapeRoundTrip.rge : Sys2Proof.Laws.ShapeRoundTrip.Statement (.rge) := rfl
theorem Sys2Proof.Laws.ShapeRoundTrip.rl : Sys2Proof.Laws.ShapeRoundTrip.Statement (.rl) := rfl
theorem Sys2Proof.Laws.ShapeRoundTrip.rle : Sys2Proof.Laws.ShapeRoundTrip.Statement (.rle) := rfl
theorem Sys2Proof.Laws.ShapeRoundTrip.ret : Sys2Proof.Laws.ShapeRoundTrip.Statement (.ret) := rfl
theorem Sys2Proof.Laws.ShapeRoundTrip.cz (t : Operand) : Sys2Proof.Laws.ShapeRoundTrip.Statement (.cz t) := rfl
theorem Sys2Proof.Laws.ShapeRoundTrip.cnz (t : Operand) : Sys2Proof.Laws.ShapeRoundTrip.Statement (.cnz t) := rfl
theorem Sys2Proof.Laws.ShapeRoundTrip.cc (t : Operand) : Sys2Proof.Laws.ShapeRoundTrip.Statement (.cc t) := rfl
theorem Sys2Proof.Laws.ShapeRoundTrip.cnc (t : Operand) : Sys2Proof.Laws.ShapeRoundTrip.Statement (.cnc t) := rfl
theorem Sys2Proof.Laws.ShapeRoundTrip.cs (t : Operand) : Sys2Proof.Laws.ShapeRoundTrip.Statement (.cs t) := rfl
theorem Sys2Proof.Laws.ShapeRoundTrip.cns (t : Operand) : Sys2Proof.Laws.ShapeRoundTrip.Statement (.cns t) := rfl
theorem Sys2Proof.Laws.ShapeRoundTrip.co (t : Operand) : Sys2Proof.Laws.ShapeRoundTrip.Statement (.co t) := rfl
theorem Sys2Proof.Laws.ShapeRoundTrip.cno (t : Operand) : Sys2Proof.Laws.ShapeRoundTrip.Statement (.cno t) := rfl
theorem Sys2Proof.Laws.ShapeRoundTrip.ca (t : Operand) : Sys2Proof.Laws.ShapeRoundTrip.Statement (.ca t) := rfl
theorem Sys2Proof.Laws.ShapeRoundTrip.cbe (t : Operand) : Sys2Proof.Laws.ShapeRoundTrip.Statement (.cbe t) := rfl
theorem Sys2Proof.Laws.ShapeRoundTrip.cg (t : Operand) : Sys2Proof.Laws.ShapeRoundTrip.Statement (.cg t) := rfl
theorem Sys2Proof.Laws.ShapeRoundTrip.cge (t : Operand) : Sys2Proof.Laws.ShapeRoundTrip.Statement (.cge t) := rfl
theorem Sys2Proof.Laws.ShapeRoundTrip.cl (t : Operand) : Sys2Proof.Laws.ShapeRoundTrip.Statement (.cl t) := rfl
theorem Sys2Proof.Laws.ShapeRoundTrip.cle (t : Operand) : Sys2Proof.Laws.ShapeRoundTrip.Statement (.cle t) := rfl
theorem Sys2Proof.Laws.ShapeRoundTrip.call (t : Operand) : Sys2Proof.Laws.ShapeRoundTrip.Statement (.call t) := rfl
theorem Sys2Proof.Laws.ShapeRoundTrip.int (v : BitVec 7) : Sys2Proof.Laws.ShapeRoundTrip.Statement (.int v) := rfl
theorem Sys2Proof.Laws.ShapeRoundTrip.shr (n : BitVec 3) (dst : Operand) : Sys2Proof.Laws.ShapeRoundTrip.Statement (.shr n dst) := rfl
theorem Sys2Proof.Laws.ShapeRoundTrip.shl (n : BitVec 3) (dst : Operand) : Sys2Proof.Laws.ShapeRoundTrip.Statement (.shl n dst) := rfl
theorem Sys2Proof.Laws.ShapeRoundTrip.ror (n : BitVec 3) (dst : Operand) : Sys2Proof.Laws.ShapeRoundTrip.Statement (.ror n dst) := rfl
theorem Sys2Proof.Laws.ShapeRoundTrip.rol (n : BitVec 3) (dst : Operand) : Sys2Proof.Laws.ShapeRoundTrip.Statement (.rol n dst) := rfl
theorem Sys2Proof.Laws.ShapeRoundTrip.addi (n : BitVec 3) (dst : Operand) : Sys2Proof.Laws.ShapeRoundTrip.Statement (.addi n dst) := rfl
theorem Sys2Proof.Laws.ShapeRoundTrip.subi (n : BitVec 3) (dst : Operand) : Sys2Proof.Laws.ShapeRoundTrip.Statement (.subi n dst) := rfl
theorem Sys2Proof.Laws.ShapeRoundTrip.not (dst : Operand) : Sys2Proof.Laws.ShapeRoundTrip.Statement (.not dst) := rfl
theorem Sys2Proof.Laws.ShapeRoundTrip.neg (dst : Operand) : Sys2Proof.Laws.ShapeRoundTrip.Statement (.neg dst) := rfl
theorem Sys2Proof.Laws.ShapeRoundTrip.cbw (dst : Operand) : Sys2Proof.Laws.ShapeRoundTrip.Statement (.cbw dst) := rfl
theorem Sys2Proof.Laws.ShapeRoundTrip.sti : Sys2Proof.Laws.ShapeRoundTrip.Statement (.sti) := rfl
theorem Sys2Proof.Laws.ShapeRoundTrip.cli : Sys2Proof.Laws.ShapeRoundTrip.Statement (.cli) := rfl
theorem Sys2Proof.Laws.ShapeRoundTrip.stc : Sys2Proof.Laws.ShapeRoundTrip.Statement (.stc) := rfl
theorem Sys2Proof.Laws.ShapeRoundTrip.clc : Sys2Proof.Laws.ShapeRoundTrip.Statement (.clc) := rfl

/-- The same for every instruction. -/
theorem Sys2Proof.Laws.shape_instr (i : Instr) : i.shape.instr = i := by cases i <;> rfl

/-- And the other way round. -/
theorem Sys2Proof.Laws.instr_shape (sh : Shape) : sh.instr.shape = sh := by
  rcases sh with ⟨op, _, _⟩ | ⟨cc, _⟩ | ⟨cc, _⟩ | cc | ⟨cc, _⟩ | _ | ⟨op, _, _⟩ | ⟨op, _⟩ | op <;>
    first | rfl | (cases op <;> rfl) | (cases cc <;> rfl)
end

