-- ==== Sys2Proof/Laws/Step.lean ====
section
/-! SUPPORT. What the transfers of control, the entry to a handler, a fetch, a step and a move of the environment can do
when they answer. -/

namespace Sys2Proof.Machine

theorem jumpRel_next {cc : Cond} {off : BitVec 7} {s t : State} (h : jumpRel cc off s = .next t) :
    t = if condHolds s.flags cc then { s with pc := relTarget off s } else s := by
  unfold jumpRel at h
  split at h <;> cases h <;> simp_all

theorem jumpAbs_next {cc : Cond} {op : Operand} {s t : State} (h : jumpAbs cc op s = .next t) :
    (condHolds s.flags cc = false ∧ t = s) ∨
      (condHolds s.flags cc = true ∧ readable op s = true ∧ isOdd (readValue op s) = false ∧
        t = { afterRead op s with pc := readValue op s }) := by
  unfold jumpAbs at h
  split at h
  · simp only [bindOut_next_iff, readOperand_next_iff, jumpTo_next_iff] at h
    obtain ⟨_, ⟨h1, rfl⟩, h2, rfl⟩ := h
    exact .inr ⟨‹_›, h1, h2, rfl⟩
  · cases h
    exact .inl ⟨by simp_all, rfl⟩

theorem returnIf_next {cc : Cond} {s t : State} (h : returnIf cc s = .next t) :
    (condHolds s.flags cc = false ∧ t = s) ∨
      (condHolds s.flags cc = true ∧ readable .stack s = true ∧ isOdd (s.wordAt (s.reg 15)) = false ∧
        t = { s.setReg 15 (s.reg 15 + 2) with pc := s.wordAt (s.reg 15) }) := by
  unfold returnIf at h
  split at h
  · simp only [returnFromHandler, bindOut_next_iff, pop_next_iff, jumpTo_next_iff] at h
    obtain ⟨_, ⟨h1, h2, rfl⟩, h3, rfl⟩ := h
    exact .inr ⟨‹_›, by rw [readable, h1, h2]; rfl, h3, rfl⟩
  · cases h
    exact .inl ⟨by simp_all, rfl⟩

theorem callIf_next {cc : Cond} {op : Operand} {s t : State} (h : callIf cc op s = .next t) :
    (condHolds s.flags cc = false ∧ t = s) ∨
      (condHolds s.flags cc = true ∧ readable op s = true ∧ isOdd (readValue op s) = false ∧
        writable .stack s.pc (afterRead op s) = true ∧
        t = { afterWrite .stack s.pc (afterRead op s) with pc := readValue op s }) := by
  unfold callIf at h
  split at h
  · simp only [bindOut_next_iff, readOperand_next_iff] at h
    obtain ⟨_, ⟨h1, rfl⟩, h2⟩ := h
    split at h2
    · cases h2
    · simp only [bindOut_next_iff, push_next_iff] at h2
      obtain ⟨_, ⟨h3, h4, rfl⟩, h5⟩ := h2
      cases h5
      exact .inr ⟨‹_›, h1, by simp_all, by rw [writable, h3, h4]; rfl, by simp [afterWrite]⟩
  · cases h
    exact .inl ⟨by simp_all, rfl⟩

/-- Entry to a handler: the push, then the vector, which lies in RAM. -/
theorem enterHandler_next {v : BitVec 7} {maskI : Bool} {s t : State} (h : enterHandler v maskI s = .next t) :
    writable .stack s.pc s = true ∧ isOdd ((afterWrite .stack s.pc s).wordAt (vectorAddr v)) = false ∧
      t = { afterWrite .stack s.pc s with
        flags := if maskI then { s.flags with i := false } else s.flags
        pc := (afterWrite .stack s.pc s).wordAt (vectorAddr v) } := by
  simp only [enterHandler, bindOut_next_iff, push_next_iff] at h
  obtain ⟨_, ⟨h1, h2, rfl⟩, p, h3, h4⟩ := h
  rw [slot_load (by cases maskI <;> exact vector_slotOk _ _)] at h3
  cases h3
  rw [jumpTo_next_iff] at h4
  obtain ⟨h5, rfl⟩ := h4
  refine ⟨by rw [writable, h1, h2]; rfl, ?_, ?_⟩ <;> cases maskI <;> simp_all [afterWrite]

/-- A fetch answers the word at an even `pc` and moves `pc` past it. -/
theorem fetch16_next {s : State} {p : Word × State} (h : fetch16 s = .next p) :
    isOdd s.pc = false ∧ loadOk s.memMap s.pc .word = true ∧
      p = (loadValue s.pc .word s, { afterLoad s.pc .word s with pc := s.pc + 2 }) := by
  unfold fetch16 at h
  split at h
  · cases h
  · simp only [bindOut_next_iff, load_next_iff] at h
    obtain ⟨_, ⟨h1, rfl⟩, h2⟩ := h
    cases h2
    exact ⟨by simp_all, h1, by simp⟩

/-- A step of the CPU that answers has run an instruction, or has entered a handler. -/
theorem cpuStep_next_cases {s t : State} (h : cpuStep s = .next t) :
    (irqTaken s = none ∧ ∃ p, fetchInstr (boundaryPassed s) = .next p ∧ exec p.1 p.2 = .next t) ∨
      ∃ k, irqTaken s = some k ∧ takeInterrupt k (boundaryPassed s) = .next t := by
  unfold cpuStep at h
  cases hi : irqTaken s with
  | none =>
    rw [hi] at h
    simp only [instrStep, bindOut_next_iff] at h
    exact .inl ⟨rfl, h⟩
  | some k =>
    rw [hi] at h
    exact .inr ⟨k, rfl, h⟩

/-- A step that answers is the environment's action or a step of the CPU. -/
theorem step_next_cases {s t : State} (h : step s = .next t) :
    (∃ act, envMove s = some act ∧ t = environment act (turnTaken s)) ∨
      (envMove s = none ∧ cpuStep (turnTaken s) = .next t) := by
  unfold step at h
  cases he : envMove s with
  | none => rw [he] at h; exact .inr ⟨rfl, h⟩
  | some act => rw [he] at h; cases h; exact .inl ⟨act, rfl, rfl⟩

/-- The environment changes neither `pc`, REGBANK, the flags, the STI shadow, the device writes, the draws, the map nor
the turns. -/
theorem environment_same (act : EnvAction) (s : State) :
    (environment act s).pc = s.pc ∧ (environment act s).regbank = s.regbank ∧ (environment act s).flags = s.flags ∧
      (environment act s).stiShadow = s.stiShadow ∧ (environment act s).devWrites = s.devWrites ∧
      (environment act s).draws = s.draws ∧ (environment act s).memMap = s.memMap ∧
      (environment act s).turns = s.turns := by
  cases act with
  | request h => exact ⟨rfl, rfl, rfl, rfl, rfl, rfl, rfl, rfl⟩
  | read a => exact ⟨rfl, rfl, rfl, rfl, rfl, rfl, rfl, rfl⟩
  | write a v =>
    simp only [environment, environmentWrite]
    cases memClass s.memMap a <;> exact ⟨rfl, rfl, rfl, rfl, rfl, rfl, rfl, rfl⟩

theorem environment_wf {s : State} (h : s.mem.wf) (act : EnvAction) : (environment act s).mem.wf := by
  cases act with
  | request h' => exact h
  | read a => exact h
  | write a v =>
    simp only [environment, environmentWrite]
    cases memClass s.memMap a
    · exact State.setByte_wf h _ _
    all_goals exact h

/-- The environment changes a byte of memory only by writing it, and only in RAM. -/
theorem environment_byteAt (act : EnvAction) (s : State) (b : Word)
    (h : ∀ v, act = .write b v → memClass s.memMap b ≠ .ram) : (environment act s).byteAt b = s.byteAt b := by
  cases act with
  | request h' => rfl
  | read a => rfl
  | write a v =>
    simp only [environment, environmentWrite]
    cases hm : memClass s.memMap a
    · exact State.byteAt_setByte_other _ _ _ _ (by rintro rfl; exact h v rfl hm)
    all_goals rfl

theorem mem_insertVector (h k : Fin 64) (l : List (Fin 64)) : k ∈ insertVector h l ↔ k = h ∨ k ∈ l := by
  induction l with
  | nil => simp [insertVector]
  | cons x l ih =>
    simp only [insertVector]
    split_ifs with h1 h2
    · simp
    · subst h2; simp
    · simp [ih]; tauto

/-- A request keeps the latches a strictly rising list. -/
theorem insertVector_pairwise (h : Fin 64) (l : List (Fin 64)) (hl : l.Pairwise (· < ·)) :
    (insertVector h l).Pairwise (· < ·) := by
  induction l with
  | nil => simp [insertVector]
  | cons x l ih =>
    rw [List.pairwise_cons] at hl
    simp only [insertVector]
    split_ifs with h1 h2
    · refine List.pairwise_cons.mpr ⟨fun k hk => ?_, List.pairwise_cons.mpr hl⟩
      rcases List.mem_cons.mp hk with rfl | hk
      · exact h1
      · exact h1.trans (hl.1 k hk)
    · exact List.pairwise_cons.mpr hl
    · refine List.pairwise_cons.mpr ⟨fun k hk => ?_, ih hl.2⟩
      rcases (mem_insertVector h k l).mp hk with rfl | hk
      · omega
      · exact hl.1 k hk

end Sys2Proof.Machine
end

