-- ==== Sys2Proof/Tests/Slice0.lean ====
section
/-! SUPPORT. Tests, each a named theorem: the checks of WellFormed refuse what they should; every instruction's word,
written out bit by bit from the formats of 30_encoding.md R83, decodes to it; one step on small states, with the values of
the spec's own examples; and for every statement with hypotheses a state and operands that meet them together. -/

open Sys2Proof Sys2Proof.Machine

namespace Sys2Proof.Tests

/-! ### WellFormed: an ill-formed term for each check is refused -/

theorem test_wf_indirect_low_refused : Operand.wf (.indirect .word 7) = false := by decide
theorem test_wf_indirect_r15_refused : Operand.wf (.indirect .byte 15) = false := by decide
theorem test_wf_autoinc_low_refused : Operand.wf (.autoInc .word 0) = false := by decide
theorem test_wf_autoinc_r15_refused : Operand.wf (.autoInc .byte 15) = false := by decide
theorem test_wf_indexed_low_refused : Operand.wf (.indexed .word 7 0) = false := by decide
theorem test_wf_indexed_r15_accepted : Operand.wf (.indexed .byte 15 0) = true := by decide
theorem test_wf_jump_through_stack_refused : Instr.wf (.jmpl .stack) = false := by decide
theorem test_wf_call_through_stack_accepted : Instr.wf (.call .stack) = true := by decide
theorem test_wf_source_checked : Instr.wf (.add (.indirect .word 3) (.reg 0)) = false := by decide
theorem test_wf_destination_checked : Instr.wf (.shl 0 (.autoInc .byte 15)) = false := by decide

/-! ### Decoding: words written out from R83, R91, R94 and R95 -/

/-- Format D, `oooo ssssss dddddd`: source `b[r10++]` is 101010, destination R5 is 000101. -/
theorem test_decode_dual :
    decode 0b0000_101010_000101 0 0 = .ok (.mov (.autoInc .byte 10) (.reg 5)) ∧
    decode 0b0001_101010_000101 0 0 = .ok (.add (.autoInc .byte 10) (.reg 5)) ∧
    decode 0b0010_101010_000101 0 0 = .ok (.addc (.autoInc .byte 10) (.reg 5)) ∧
    decode 0b0011_101010_000101 0 0 = .ok (.sub (.autoInc .byte 10) (.reg 5)) ∧
    decode 0b0100_101010_000101 0 0 = .ok (.subb (.autoInc .byte 10) (.reg 5)) ∧
    decode 0b0101_101010_000101 0 0 = .ok (.cmp (.autoInc .byte 10) (.reg 5)) ∧
    decode 0b0110_101010_000101 0 0 = .ok (.and (.autoInc .byte 10) (.reg 5)) ∧
    decode 0b0111_101010_000101 0 0 = .ok (.test (.autoInc .byte 10) (.reg 5)) ∧
    decode 0b1000_101010_000101 0 0 = .ok (.or (.autoInc .byte 10) (.reg 5)) ∧
    decode 0b1001_101010_000101 0 0 = .ok (.xor (.autoInc .byte 10) (.reg 5)) := by
  refine ⟨rfl, rfl, rfl, rfl, rfl, rfl, rfl, rfl, rfl, rfl⟩

/-- Every operand form of R85 to R90 as the destination of MOV, the source being R1; two extension words go to source and
destination in that order (R81). -/
theorem test_decode_operands :
    decode 0b0000_000001_001111 0 0 = .ok (.mov (.reg 1) (.reg 15)) ∧
    decode 0b0000_011111_000001 0x0123 0 = .ok (.mov (.imm 0x0123) (.reg 1)) ∧
    decode 0b0000_000001_100111 0x1234 0 = .ok (.mov (.reg 1) (.direct .word 0x1234)) ∧
    decode 0b0000_000001_101111 0x1235 0 = .ok (.mov (.reg 1) (.direct .byte 0x1235)) ∧
    decode 0b0000_000001_010000 0 0 = .ok (.mov (.reg 1) (.indirect .word 8)) ∧
    decode 0b0000_000001_011110 0 0 = .ok (.mov (.reg 1) (.indirect .byte 14)) ∧
    decode 0b0000_000001_010111 0 0 = .ok (.mov (.reg 1) .stack) ∧
    decode 0b0000_000001_100110 0 0 = .ok (.mov (.reg 1) (.autoInc .word 14)) ∧
    decode 0b0000_000001_110111 0x0004 0 = .ok (.mov (.reg 1) (.indexed .word 15 0x0004)) ∧
    decode 0b0000_000001_111000 0xFFFE 0 = .ok (.mov (.reg 1) (.indexed .byte 8 0xFFFE)) ∧
    decode 0b0000_100111_101111 0xAAAA 0xBBBB = .ok (.mov (.direct .word 0xAAAA) (.direct .byte 0xBBBB)) := by
  refine ⟨rfl, rfl, rfl, rfl, rfl, rfl, rfl, rfl, rfl, rfl, rfl⟩

/-- Format J, `1100 cccc 0 ooooooo`, with offset -2. -/
theorem test_decode_jcc :
    decode 0b1100_0000_0_1111110 0 0 = .ok (.jz 0x7E) ∧
    decode 0b1100_0001_0_1111110 0 0 = .ok (.jnz 0x7E) ∧
    decode 0b1100_0010_0_1111110 0 0 = .ok (.jc 0x7E) ∧
    decode 0b1100_0011_0_1111110 0 0 = .ok (.jnc 0x7E) ∧
    decode 0b1100_0100_0_1111110 0 0 = .ok (.js 0x7E) ∧
    decode 0b1100_0101_0_1111110 0 0 = .ok (.jns 0x7E) ∧
    decode 0b1100_0110_0_1111110 0 0 = .ok (.jo 0x7E) ∧
    decode 0b1100_0111_0_1111110 0 0 = .ok (.jno 0x7E) ∧
    decode 0b1100_1000_0_1111110 0 0 = .ok (.ja 0x7E) ∧
    decode 0b1100_1001_0_1111110 0 0 = .ok (.jbe 0x7E) ∧
    decode 0b1100_1010_0_1111110 0 0 = .ok (.jg 0x7E) ∧
    decode 0b1100_1011_0_1111110 0 0 = .ok (.jge 0x7E) ∧
    decode 0b1100_1100_0_1111110 0 0 = .ok (.jl 0x7E) ∧
    decode 0b1100_1101_0_1111110 0 0 = .ok (.jle 0x7E) ∧
    decode 0b1100_1111_0_1111110 0 0 = .ok (.jmp 0x7E) := by
  refine ⟨rfl, rfl, rfl, rfl, rfl, rfl, rfl, rfl, rfl, rfl, rfl, rfl, rfl, rfl, rfl⟩

/-- Format JL, `1100 cccc 10 dddddd`, with an immediate target. -/
theorem test_decode_jccl :
    decode 0b1100_0000_10_011111 0x1234 0 = .ok (.jzl (.imm 0x1234)) ∧
    decode 0b1100_0001_10_011111 0x1234 0 = .ok (.jnzl (.imm 0x1234)) ∧
    decode 0b1100_0010_10_011111 0x1234 0 = .ok (.jcl (.imm 0x1234)) ∧
    decode 0b1100_0011_10_011111 0x1234 0 = .ok (.jncl (.imm 0x1234)) ∧
    decode 0b1100_0100_10_011111 0x1234 0 = .ok (.jsl (.imm 0x1234)) ∧
    decode 0b1100_0101_10_011111 0x1234 0 = .ok (.jnsl (.imm 0x1234)) ∧
    decode 0b1100_0110_10_011111 0x1234 0 = .ok (.jol (.imm 0x1234)) ∧
    decode 0b1100_0111_10_011111 0x1234 0 = .ok (.jnol (.imm 0x1234)) ∧
    decode 0b1100_1000_10_011111 0x1234 0 = .ok (.jal (.imm 0x1234)) ∧
    decode 0b1100_1001_10_011111 0x1234 0 = .ok (.jbel (.imm 0x1234)) ∧
    decode 0b1100_1010_10_011111 0x1234 0 = .ok (.jgl (.imm 0x1234)) ∧
    decode 0b1100_1011_10_011111 0x1234 0 = .ok (.jgel (.imm 0x1234)) ∧
    decode 0b1100_1100_10_011111 0x1234 0 = .ok (.jll (.imm 0x1234)) ∧
    decode 0b1100_1101_10_011111 0x1234 0 = .ok (.jlel (.imm 0x1234)) ∧
    decode 0b1100_1111_10_011111 0x1234 0 = .ok (.jmpl (.imm 0x1234)) := by
  refine ⟨rfl, rfl, rfl, rfl, rfl, rfl, rfl, rfl, rfl, rfl, rfl, rfl, rfl, rfl, rfl⟩

/-- Format R, `1100 cccc 10 010111`. -/
theorem test_decode_rcc :
    decode 0b1100_0000_10_010111 0 0 = .ok .rz ∧
    decode 0b1100_0001_10_010111 0 0 = .ok .rnz ∧
    decode 0b1100_0010_10_010111 0 0 = .ok .rc ∧
    decode 0b1100_0011_10_010111 0 0 = .ok .rnc ∧
    decode 0b1100_0100_10_010111 0 0 = .ok .rs ∧
    decode 0b1100_0101_10_010111 0 0 = .ok .rns ∧
    decode 0b1100_0110_10_010111 0 0 = .ok .ro ∧
    decode 0b1100_0111_10_010111 0 0 = .ok .rno ∧
    decode 0b1100_1000_10_010111 0 0 = .ok .ra ∧
    decode 0b1100_1001_10_010111 0 0 = .ok .rbe ∧
    decode 0b1100_1010_10_010111 0 0 = .ok .rg ∧
    decode 0b1100_1011_10_010111 0 0 = .ok .rge ∧
    decode 0b1100_1100_10_010111 0 0 = .ok .rl ∧
    decode 0b1100_1101_10_010111 0 0 = .ok .rle ∧
    decode 0b1100_1111_10_010111 0 0 = .ok .ret := by
  refine ⟨rfl, rfl, rfl, rfl, rfl, rfl, rfl, rfl, rfl, rfl, rfl, rfl, rfl, rfl, rfl⟩

/-- Format C, `1010 cccc 10 dddddd`, through `[r9]`. -/
theorem test_decode_ccc :
    decode 0b1010_0000_10_010001 0 0 = .ok (.cz (.indirect .word 9)) ∧
    decode 0b1010_0001_10_010001 0 0 = .ok (.cnz (.indirect .word 9)) ∧
    decode 0b1010_0010_10_010001 0 0 = .ok (.cc (.indirect .word 9)) ∧
    decode 0b1010_0011_10_010001 0 0 = .ok (.cnc (.indirect .word 9)) ∧
    decode 0b1010_0100_10_010001 0 0 = .ok (.cs (.indirect .word 9)) ∧
    decode 0b1010_0101_10_010001 0 0 = .ok (.cns (.indirect .word 9)) ∧
    decode 0b1010_0110_10_010001 0 0 = .ok (.co (.indirect .word 9)) ∧
    decode 0b1010_0111_10_010001 0 0 = .ok (.cno (.indirect .word 9)) ∧
    decode 0b1010_1000_10_010001 0 0 = .ok (.ca (.indirect .word 9)) ∧
    decode 0b1010_1001_10_010001 0 0 = .ok (.cbe (.indirect .word 9)) ∧
    decode 0b1010_1010_10_010001 0 0 = .ok (.cg (.indirect .word 9)) ∧
    decode 0b1010_1011_10_010001 0 0 = .ok (.cge (.indirect .word 9)) ∧
    decode 0b1010_1100_10_010001 0 0 = .ok (.cl (.indirect .word 9)) ∧
    decode 0b1010_1101_10_010001 0 0 = .ok (.cle (.indirect .word 9)) ∧
    decode 0b1010_1111_10_010001 0 0 = .ok (.call (.indirect .word 9)) := by
  refine ⟨rfl, rfl, rfl, rfl, rfl, rfl, rfl, rfl, rfl, rfl, rfl, rfl, rfl, rfl, rfl⟩

/-- Format I, `1010 1111 0 vvvvvvv`. -/
theorem test_decode_int :
    decode 0b1010_1111_0_1001000 0 0 = .ok (.int 72) ∧
    decode 0b1010_1111_0_1111111 0 0 = .ok (.int 127) := by
  refine ⟨rfl, rfl⟩

/-- Format S with a count or constant, `1101 xxx nnn dddddd`: n = 5, destination `[r9 + 0x0040]`. -/
theorem test_decode_count :
    decode 0b1101_000_101_110001 0x0040 0 = .ok (.shr 5 (.indexed .word 9 0x0040)) ∧
    decode 0b1101_001_101_110001 0x0040 0 = .ok (.shl 5 (.indexed .word 9 0x0040)) ∧
    decode 0b1101_010_101_110001 0x0040 0 = .ok (.ror 5 (.indexed .word 9 0x0040)) ∧
    decode 0b1101_011_101_110001 0x0040 0 = .ok (.rol 5 (.indexed .word 9 0x0040)) ∧
    decode 0b1101_100_101_110001 0x0040 0 = .ok (.addi 5 (.indexed .word 9 0x0040)) ∧
    decode 0b1101_101_101_110001 0x0040 0 = .ok (.subi 5 (.indexed .word 9 0x0040)) := by
  refine ⟨rfl, rfl, rfl, rfl, rfl, rfl⟩

/-- Format S without: NOT 000, NEG 001, CBW 100 under 1101111. -/
theorem test_decode_unary :
    decode 0b1101_111_000_000011 0 0 = .ok (.not (.reg 3)) ∧
    decode 0b1101_111_001_000011 0 0 = .ok (.neg (.reg 3)) ∧
    decode 0b1101_111_100_000011 0 0 = .ok (.cbw (.reg 3)) := by
  refine ⟨rfl, rfl, rfl⟩

/-- Format M, `1101 1111 1100 00ff`. -/
theorem test_decode_misc :
    decode 0b1101_1111_1100_0000 0 0 = .ok .sti ∧
    decode 0b1101_1111_1100_0001 0 0 = .ok .cli ∧
    decode 0b1101_1111_1100_0010 0 0 = .ok .stc ∧
    decode 0b1101_1111_1100_0011 0 0 = .ok .clc := by
  refine ⟨rfl, rfl, rfl, rfl⟩

/-- A word of each row of the reserved list (R99) is refused by name. -/
theorem test_decode_reserved :
    [0xB000, 0xEFFF, 0xFFFF, 0xA0C0, 0xAE7F, 0xAE80, 0xCE00, 0xC0FF, 0xDC00, 0xDE80, 0xDEC0, 0xDF40, 0xDF80, 0xDFC4,
      0xDFFF].all (fun iw => match decode iw 0 0 with | .error (.reserved x) => x == iw | _ => false) = true := by decide

/-- The encoder writes the words the spec prints (R139, R172, R175, R194). -/
theorem test_encode_examples :
    encode (.mov (.direct .word 0x1111) (.direct .word 0x2222)) = [0x09E7, 0x1111, 0x2222] ∧
    encode (.mov (.autoInc .word 10) (.autoInc .word 8)) = [0x08A0] ∧ encode (.jnz 0x7E) = [0xC17E] ∧
    encode (.call (.imm 0x0300)) = [0xAF9F, 0x0300] ∧ encode (.shl 1 (.reg 1)) = [0xD241] := by decide

/-- The table's numbering: the first word in the low bits, bits past `nbits` zero. -/
theorem test_decode_table_word : decodeTableWord 16 0xFFFF07C1 = some (.mov (.imm 0) (.reg 1)) := by rfl

/-! ### One step on small states -/

/-- The outcome is a next state that satisfies `p`. -/
def nextIs (x : Host.Outcome State Fault Refusal) (p : State → Bool) : Bool :=
  match x with
  | .next t => p t
  | .fault _ => false
  | .refused _ => false

/-- The outcome is this fault. -/
def faultIs (x : Host.Outcome State Fault Refusal) (f : Fault) : Bool :=
  match x with
  | .fault g => decide (g = f)
  | .next _ => false
  | .refused _ => false

/-- The outcome is this refusal. -/
def refusalIs (x : Host.Outcome State Fault Refusal) (r : Refusal) : Bool :=
  match x with
  | .refused q => decide (q = r)
  | .next _ => false
  | .fault _ => false

/-- A state at 0x0200 with REGBANK 0x0100, the given flags word and registers. -/
def start (flags : Word) (regs : List (RegNum × Word)) : State :=
  regs.foldl (fun s p => s.setReg p.1 p.2) { State.reset with pc := 0x0200, flags := Flags.ofWord flags }

/-- The same with words in memory. -/
def withWords (s : State) (ws : List (Word × Word)) : State := ws.foldl (fun s p => s.setWord p.1 p.2) s

/-- The step of the instruction whose words are given, placed at `pc`. -/
def run (ws : List Word) (s : State) : Host.Outcome State Fault Refusal := step (placeWords s.pc ws s)

/-- R154: `MOV r1, 0x123`. -/
theorem test_mov_example :
    nextIs (run [0x07C1, 0x0123] (start 0x1F [])) (fun t => t.reg 1 == 0x0123 && t.flags.toWord == 0x1F &&
      t.pc == 0x0204) = true := by decide
/-- R133: `MOV [r8++], [r8++]` reads at the old r8 and writes two above it. -/
theorem test_mov_autoinc_twice :
    nextIs (run [0x0820] (withWords (start 0 [(8, 0x0400)]) [(0x0400, 0xBEEF)])) (fun t =>
      t.wordAt 0x0402 == 0xBEEF && t.reg 8 == 0x0404) = true := by decide
/-- R155: 0x7FFF + 1 overflows without carry. -/
theorem test_add_overflow :
    nextIs (run [0x1081] (start 0 [(1, 0x7FFF), (2, 1)])) (fun t => t.reg 1 == 0x8000 && t.flags.toWord == 0x0C) =
      true := by decide
/-- R153: `ADD b[r9], r0` with M[r9] = 0xFF and r0 = 1 stores 0 but sets neither Z nor C. -/
theorem test_add_byte_destination :
    nextIs (run [0x1019] (withWords (start 0 [(9, 0x0400), (0, 1)]) [(0x0400, 0xAAFF)])) (fun t =>
      t.wordAt 0x0400 == 0xAA00 && t.flags.toWord == 0) = true := by decide
/-- R156: 0xFFFF + 0xFFFF + 1. -/
theorem test_addc_all_ones :
    nextIs (run [0x20C1] (start 0x02 [(1, 0xFFFF), (3, 0xFFFF)])) (fun t => t.reg 1 == 0xFFFF &&
      t.flags.toWord == 0x0A) = true := by decide
/-- R157: `SUB r0, r2` with borrow. -/
theorem test_sub_example :
    nextIs (run [0x3080] (start 0 [(0, 3), (2, 5)])) (fun t => t.reg 0 == 0xFFFE && t.flags.toWord == 0x0A) = true := by
  decide
/-- R158: 0x8000 - 0 - 1 overflows without borrow. -/
theorem test_subb_overflow :
    nextIs (run [0x40C1] (start 0x02 [(1, 0x8000), (3, 0)])) (fun t => t.reg 1 == 0x7FFF && t.flags.toWord == 0x04) =
      true := by decide
/-- R159: `CMP r1, 0x123` of equals; R1 keeps its value. -/
theorem test_cmp_example :
    nextIs (run [0x57C1, 0x0123] (start 0x0E [(1, 0x0123)])) (fun t => t.reg 1 == 0x0123 && t.flags.toWord == 0x01) =
      true := by decide
/-- R160: `AND r1, 0xf80`. -/
theorem test_and_example :
    nextIs (run [0x67C1, 0x0F80] (start 0x06 [(1, 0x1234)])) (fun t => t.reg 1 == 0x0200 && t.flags.toWord == 0x06) =
      true := by decide
/-- R161: `TEST r1, 0x8002`. -/
theorem test_test_example :
    nextIs (run [0x77C1, 0x8002] (start 0 [(1, 0x8000)])) (fun t => t.reg 1 == 0x8000 && t.flags.toWord == 0x08) =
      true := by decide
/-- R162: `OR r0, r2`. -/
theorem test_or_example :
    nextIs (run [0x8080] (start 0 [(0, 0x00F0), (2, 0x8001)])) (fun t => t.reg 0 == 0x80F1 && t.flags.toWord == 0x08) =
      true := by decide
/-- R163: `XOR r0, r2`. -/
theorem test_xor_example :
    nextIs (run [0x9080] (start 0 [(0, 0xFFFF), (2, 0x0F0F)])) (fun t => t.reg 0 == 0xF0F0 &&
      t.flags.toWord == 0x08) = true := by decide
/-- R193: `SHR r0, 1` shifts the sign in. -/
theorem test_shr_example :
    nextIs (run [0xD000] (start 0 [(0, 0x8003)])) (fun t => t.reg 0 == 0xC001 && t.flags.toWord == 0x0A) = true := by
  decide
/-- R194: `SHL r1, 2`. -/
theorem test_shl_example :
    nextIs (run [0xD241] (start 0 [(1, 0x4001)])) (fun t => t.reg 1 == 0x0004 && t.flags.toWord == 0x02) = true := by
  decide
/-- R195: `ROR r1, 1`; the old carry does not enter. -/
theorem test_ror_example :
    nextIs (run [0xD401] (start 0x02 [(1, 0x0001)])) (fun t => t.reg 1 == 0x8000 && t.flags.toWord == 0x0A) = true := by
  decide
/-- R196: `ROL r1, 2`. -/
theorem test_rol_example :
    nextIs (run [0xD641] (start 0 [(1, 0x8001)])) (fun t => t.reg 1 == 0x0006 && t.flags.toWord == 0) = true := by
  decide
/-- R197: `ADDI r6, 2` sets S and neither O nor C. -/
theorem test_addi_example :
    nextIs (run [0xD846] (start 0x02 [(6, 0x7FFF)])) (fun t => t.reg 6 == 0x8001 && t.flags.toWord == 0x0A) = true := by
  decide
/-- R198: `SUBI r6, 2` to zero. -/
theorem test_subi_example :
    nextIs (run [0xDA46] (start 0 [(6, 2)])) (fun t => t.reg 6 == 0 && t.flags.toWord == 0x01) = true := by decide
/-- R199: `NOT r0`. -/
theorem test_not_example :
    nextIs (run [0xDE00] (start 0 [(0, 0x00FF)])) (fun t => t.reg 0 == 0xFF00 && t.flags.toWord == 0x08) = true := by
  decide
/-- R200: `NEG r0`. -/
theorem test_neg_example :
    nextIs (run [0xDE40] (start 0 [(0, 1)])) (fun t => t.reg 0 == 0xFFFF && t.flags.toWord == 0x0A) = true := by decide
/-- R201: `CBW r0`. -/
theorem test_cbw_example :
    nextIs (run [0xDF00] (start 0 [(0, 0x1280)])) (fun t => t.reg 0 == 0xFF80 && t.flags.toWord == 0x08) = true := by
  decide
/-- R172: `JNZ` with offset -2, back over one word; with Z = 1 it falls through. -/
theorem test_jnz_example :
    nextIs (run [0xC17E] (start 0 [])) (fun t => t.pc == 0x01FE) = true ∧
    nextIs (run [0xC17E] (start 0x01 [])) (fun t => t.pc == 0x0202) = true := by decide
/-- R173: `JMP 0x1234`. -/
theorem test_jmp_long_example :
    nextIs (run [0xCF9F, 0x1234] (start 0 [])) (fun t => t.pc == 0x1234) = true := by decide
/-- R174: `RET`. -/
theorem test_ret_example :
    nextIs (run [0xCF97] (withWords (start 0 [(15, 0x0FFC)]) [(0x0FFC, 0x0206)])) (fun t => t.pc == 0x0206 &&
      t.reg 15 == 0x0FFE) = true := by decide
/-- R175: at 0x0200 `CALL 0x0300`. -/
theorem test_call_example :
    nextIs (run [0xAF9F, 0x0300] (start 0 [(15, 0x1000)])) (fun t => t.pc == 0x0300 && t.reg 15 == 0x0FFE &&
      t.wordAt 0x0FFE == 0x0204) = true := by decide
/-- R176: `INT 72`. -/
theorem test_int_example :
    nextIs (run [0xAF48] (withWords (start 0x10 [(15, 0x1000)]) [(0x0090, 0xE000)])) (fun t => t.pc == 0xE000 &&
      t.reg 15 == 0x0FFE && t.wordAt 0x0FFE == 0x0202 && t.flags.toWord == 0x10) = true := by decide
/-- R210 to R213, their examples. -/
theorem test_misc_examples :
    nextIs (run [0xDFC0] (start 0x03 [])) (fun t => t.flags.toWord == 0x13 && t.stiShadow) = true ∧
    nextIs (run [0xDFC0] (start 0x10 [])) (fun t => t.flags.toWord == 0x10 && !t.stiShadow) = true ∧
    nextIs (run [0xDFC1] (start 0x13 [])) (fun t => t.flags.toWord == 0x03) = true ∧
    nextIs (run [0xDFC2] (start 0 [])) (fun t => t.flags.toWord == 0x02) = true ∧
    nextIs (run [0xDFC3] (start 0x1F [])) (fun t => t.flags.toWord == 0x1D) = true := by decide
/-- R217, R218: `PUSH r0` and `POP r0`. -/
theorem test_push_pop_examples :
    nextIs (run [0x0017] (start 0 [(15, 0x1000), (0, 0xBEEF)])) (fun t => t.reg 15 == 0x0FFE &&
      t.byteAt 0x0FFE == 0xEF && t.byteAt 0x0FFF == 0xBE) = true ∧
    nextIs (run [0x05C0] (withWords (start 0 [(15, 0x0FFE)]) [(0x0FFE, 0xBEEF)])) (fun t => t.reg 0 == 0xBEEF &&
      t.reg 15 == 0x1000) = true := by decide
/-- Interrupt entry, row h = 3 of 95_test_vectors.md 2.10. -/
theorem test_interrupt_entry :
    nextIs (takeInterrupt 3 { withWords (start 0x13 [(15, 0x1000)]) [(0x0006, 0x0300)] with
        pc := 0x0210, pending := [3, 5] }) (fun t => t.pc == 0x0300 && t.reg 15 == 0x0FFE &&
      t.wordAt 0x0FFE == 0x0210 && t.flags.toWord == 0x03 && t.pending == [5]) = true := by decide
/-- R226: a request sets the latch, in order and once. -/
theorem test_request_interrupt :
    (requestInterrupt 5 (requestInterrupt 9 (requestInterrupt 5 State.reset))).pending = [5, 9] := by decide
/-- R241, R65: the environment's write to RAM between two steps is what the CPU's next load reads. -/
theorem test_environment_write :
    (match step { placeWords 0x0200 [0x09C1, 0x0401] (start 0 []) with turns := [.env (.write 0x0402 0xAB)] } with
     | .next t => t.byteAt 0x0402 == 0xAB && t.pc == 0x0200 && t.turns == []
     | _ => false) = true ∧
    nextIs (run [0x09C1, 0x0402] (environment (.write 0x0402 0xAB) (start 0 []))) (fun t => t.reg 1 == 0x00AB) = true ∧
    (environment (.write 0xFFF0 0xAB) (start 0 [])) = start 0 [] ∧
    (environment (.write 0xC00F 0xAB) (start 0 [])).intEnable = 0xAB00 := by decide
/-- R62, D30: under a map with nothing there, an access is refused; the addresses R62 fixes stay; a word of which one byte
is ROM is not written. -/
theorem test_memory_map :
    refusalIs (run [0x09C1, 0x2000] { start 0 [] with memMap := [⟨0x0200, 0x0203, .ram⟩] }) .unmapped = true ∧
    nextIs (run [0x09C1, 0x0400] { start 0 [] with memMap := [⟨0x0200, 0x0203, .rom⟩] }) (fun t => t.reg 1 == 0) = true ∧
    refusalIs (run [0x0067, 0x2000] { start 0 [] with memMap := [⟨0x0200, 0x2000, .ram⟩, ⟨0x2001, 0x2001, .rom⟩] })
      .romWrite = true ∧
    (State.reset.memMap.all fun r => r.first.toNat ≤ r.last.toNat) = true := by decide
/-- R53, R55: a word of which only the odd byte is a device's: the even byte is stored in RAM, the odd byte recorded. -/
theorem test_mixed_word :
    nextIs (run [0x07E7, 0xABCD, 0x2000] { start 0 [] with
      memMap := [⟨0x0200, 0x2000, .ram⟩, ⟨0x2001, 0x2001, .device⟩] }) (fun t => t.byteAt 0x2000 == 0xCD &&
        t.byteAt 0x2001 == 0 && t.devWrites == [⟨0x2001, .byte, 0xAB⟩]) = true := by decide
/-- The stops of R233 that a form reaches. -/
theorem test_stops :
    faultIs (run [0x001F, 0x0000] (start 0 [])) .immediateDestination = true ∧
    faultIs (run [0x0410] (start 0 [(8, 0x0401)])) (.misalignedWord 0x0401) = true ∧
    faultIs (run [0xB000] (start 0 [])) (.reservedInstruction 0xB000) = true ∧
    faultIs (run [0xCF9F, 0x1235] (start 0 [])) .oddPC = true ∧
    refusalIs (run [0x1057] (start 0 [])) .rmwOnStackIndirect = true ∧
    refusalIs (run [0x8067, 0xC000] (start 0 [])) .flagsDestination = true ∧
    refusalIs (run [0x006F, 0xC003] (start 0 [])) .byteControlRegister = true ∧
    refusalIs (run [0x0027, 0xFFF0] (start 0 [])) .romWrite = true ∧
    refusalIs (run [0x0080] { start 0 [] with regbank := 0xC000 }) .windowNotInRam = true := by decide
/-- The first step after reset runs the word at 0xFFF0 (R250). -/
theorem test_reset_runs_rom_word :
    nextIs (step (State.reset.withFetchWord 16 0xCF7F)) (fun t => t.pc == 0xFFF0) = true := by decide

/-! ### Witnesses: a state and operands that meet all hypotheses of a statement together -/

/-- The state most witnesses use: stack at 0x1000, R8 to R14 pointing into RAM, MOV r1, 0x0123 at 0x0200. -/
def wit : State :=
  withWords (start 0x13 [(8, 0x0400), (9, 0x0501), (10, 0xC002), (11, 0xFFF0), (12, 0xC000), (13, 0xBFFE), (15, 0x1000)])
    [(0x0200, 0x07C1), (0x0202, 0x0123), (0x0400, 0x0204), (0x0FFE, 0x0300), (0x1000, 0x0206)]

/-- The operand forms, at ends of their ranges. -/
def forms : List Operand :=
  [.reg 0, .reg 15, .direct .word 0x0000, .direct .word 0xBFFE, .direct .byte 0xBFFF, .indirect .word 8,
    .indirect .byte 9, .autoInc .word 13, .autoInc .byte 9, .indexed .word 15 0xFFFE, .indexed .byte 8 0xFFFF]

theorem test_wit_wf : wit.mem.wf ∧ regsOk wit = true ∧ wit.Inv := by decide

theorem test_witness_DecodeOfEncode :
    Instr.wf (.mov (.indexed .byte 15 0xFFFF) (.autoInc .word 14)) = true ∧ Instr.wf (.jzl (.direct .byte 0)) = true := by
  decide

theorem test_witness_EncodeOfDecode :
    decodeWords [0x07C1, 0x0123, 0xFFFF] = .ok (.mov (.imm 0x0123) (.reg 1), [0xFFFF]) := by rfl

theorem test_witness_DecodeBytesOfEncodeBytes :
    Instr.wf (.mov (.direct .word 0x1234) (.direct .byte 0xFFFF)) = true ∧
    decodeBytes (encodeBytes (.jmpl (.imm 0x1234)) ++ [7]) = .ok (.jmpl (.imm 0x1234), [7]) := ⟨by decide, by rfl⟩

theorem test_witness_ReservedWords :
    isReserved 0x0000 = false ∧ isReserved 0xDFC3 = false ∧
    (let s := withWords wit [(0x0200, 0xDFC4)]
     envMove s = none ∧ irqTaken s = none ∧ isOdd s.pc = false ∧ wordInMemory s s.pc = true ∧
       isReserved (s.wordAt s.pc) = true) ∧
    (let s := withWords State.reset [(0xFFF0, 0xB000)]
     envMove s = none ∧ irqTaken s = none ∧ isOdd s.pc = false ∧ wordInMemory s s.pc = true ∧
       isReserved (s.wordAt s.pc) = true) := by decide

theorem test_witness_StepRunsDecodedInstruction :
    envMove wit = none ∧ irqTaken wit = none ∧ isOdd wit.pc = false ∧
    decodeWords [wit.wordAt wit.pc, wit.wordAt (wit.pc + 2), wit.wordAt (wit.pc + 4)] =
      .ok (.mov (.imm 0x0123) (.reg 1), [0]) ∧
    ∀ k, k < (encode (.mov (.imm 0x0123) (.reg 1))).length →
      wordInMemory wit (wit.pc + BitVec.ofNat 16 (2 * k)) = true :=
  ⟨by decide, by decide, by decide, by rfl, by decide⟩

theorem test_witness_StepOfOneAgent :
    envMove wit = none ∧ envMove { wit with turns := [.cpu] } = none ∧ wit.mem.wf ∧
    envMove { wit with turns := [.env (.write 0xBFFF 7), .cpu] } = some (.write 0xBFFF 7) ∧
    memClass wit.memMap 0xBFFF = .ram ∧ memClass wit.memMap 0xC00F ≠ .ram ∧
    envMove { wit with turns := [.env (.request 63)] } = some (.request 63) ∧
    envMove { wit with turns := [.env (.read 0)] } = some (.read 0) := by decide

theorem test_witness_InterruptEntry :
    (let s := withWords wit [(0x0000, 0x0300), (0x007E, 0xFFFE)]
     [(0 : Fin 64), 63].all fun h => writable .stack s.pc s &&
      isOdd ((afterWrite .stack s.pc s).wordAt (BitVec.ofNat 16 (2 * h))) == false) = true := by decide

theorem test_witness_FetchAtOddPcFaults :
    envMove { wit with pc := 0xFFFF } = none ∧ irqTaken { wit with pc := 0xFFFF } = none ∧ isOdd (0xFFFF : Word) = true := by decide

theorem test_witness_StepKeepsInvariant :
    wit.Inv ∧ nextIs (step wit) (fun t => t.pc == 0x0204) = true ∧
    nextIs (step { wit with turns := [.env (.request 0)] }) (fun t => t.pending == [0]) = true := by decide

theorem test_witness_StepWritesOnlyRam :
    nextIs (step wit) (fun _ => true) = true ∧ memClass wit.memMap 0xFFF0 ≠ .ram ∧ memClass wit.memMap 0xC000 ≠ .ram := by decide

theorem test_witness_StepClearsOnlyTheTakenLatch :
    irqTaken { wit with pending := [3], flags := Flags.ofWord 0 } = none ∧
    nextIs (step { wit with pending := [3], flags := Flags.ofWord 0 }) (fun t => t.pending == [3]) = true ∧
    envMove { wit with turns := [.env (.request 0)] } = some (.request 0) ∧
    nextIs (step { wit with turns := [.env (.request 0)] }) (fun t => t.pending == [0]) = true ∧
    nextIs (step { wit with turns := [.env (.write 0 1)] }) (fun t => t.pending == []) = true ∧
    nextIs (step { wit with turns := [.env (.read 0)] }) (fun t => t.pending == []) = true := by decide

theorem test_witness_RegisterFourteenExample : wit.regbank = 0x0100 := by decide

theorem test_witness_RegistersAreMemory : wit.mem.wf ∧ regsOk wit = true ∧ (15 : RegNum) ≠ 0 := by decide

theorem test_witness_RegbankSwitchesWindow : ∀ k, 5 ≤ k → (0x0160 : Word).getLsbD k = (0x017F : Word).getLsbD k := by
  intro k hk
  by_cases h : k < 16
  · interval_cases k <;> rfl
  · simp [BitVec.getLsbD_of_ge _ _ (Nat.not_lt.mp h)]

theorem test_witness_WindowNotInRamRefused :
    (let s := { wit with regbank := 0xC01F, flags := Flags.ofWord 0x02 }
     windowInRam s.memMap s.regbank = false ∧ readable (.imm 0) s = true ∧ readable (.direct .word 0xBFFE) s = true ∧
       isOdd (readValue (.imm 0xFFFE) s) = false ∧ s.flags.c = true ∧
       ([Operand.reg 0, .indirect .byte 14, .autoInc .word 8, .stack, .indexed .word 15 0].all usesRegister) = true) ∧
    isImmediate (.reg 0) = false ∧ windowInRam [⟨0x0120, 0x013E, .ram⟩] 0x0120 = false ∧
    (0x011F : Word).toNat < 0x0120 ∧ (0xBFFF : Word).toNat < 0xC000 := by decide

theorem test_witness_WordStoreIsLittleEndian :
    wit.mem.wf ∧ isOdd (0xBFFE : Word) = false ∧ everyByteIs wit.memMap .ram 0xBFFE .word = true ∧
    everyByteIs wit.memMap .ram 0x0000 .word = true := by decide

theorem test_witness_ByteAccess :
    wit.mem.wf ∧ regsOk wit = true ∧ memClass wit.memMap 0xBFFF = .ram ∧ memClass wit.memMap 0x0001 = .ram ∧
    memClass wit.memMap 0xFFFF = .rom := by decide

/-- Every form as source and as destination, and the stack and an immediate as source. -/
theorem test_witness_MovCompletes :
    ((.imm 0 :: .stack :: forms).all fun src => (.stack :: forms).all fun dst =>
      readable src wit && writable dst (readValue src wit) (afterRead src wit)) = true := by decide

theorem test_witness_DualModifyCompletes :
    ([.imm 0, .stack, .reg 15, .direct .byte 0xBFFF, .indirect .word 8, .autoInc .byte 9, .indexed .byte 8 0xFFFF].all
      fun src => forms.all fun dst => readable src wit && (dualModifyRules src dst (readValue src wit)).all fun p => modifiable dst p.2 (afterRead src wit)) = true := by
  decide

theorem test_witness_DualCompareCompletes :
    ((.imm 0 :: .stack :: forms).all fun src => (.stack :: forms).all fun dst => !isImmediate dst && readable src wit &&
      readable dst (afterRead src wit)) = true := by decide

theorem test_witness_RegisterToRegister : wit.mem.wf ∧ regsOk wit = true := by decide

theorem test_witness_LogicalFlags :
    ((logicalInstrs (.imm 0) (.autoInc .word 8)).all fun p => nextIs (exec p.1 wit) fun _ => true) = true := by decide

theorem test_witness_CompareConditions : regsOk wit = true := by decide

theorem test_witness_EvaluationOrder :
    wit.mem.wf ∧ regsOk wit = true ∧ slotOk wit.memMap (wit.reg 8) = true ∧
    slotOk wit.memMap (wit.reg 15) = true ∧ slotOk wit.memMap (pushAddr wit) = true ∧ pushAddr wit ≠ regAddr wit.regbank 15 := by decide

theorem test_witness_MovFrame :
    nextIs (exec (.mov (.autoInc .word 8) (.indexed .byte 15 4)) wit) (fun _ => true) = true ∧
    nextIs (exec (.mov (.imm 0) (.indirect .word 10)) wit) (fun _ => true) = true ∧
    targets (.reg 0) wit .flags = false := by decide

theorem test_witness_DualModifyFrame :
    ((dualModifyRules .stack (.autoInc .byte 9) (readValue .stack wit)).all fun p =>
      nextIs (exec p.1 wit) fun _ => true) = true := by decide

theorem test_witness_DualCompareFrame :
    ((dualCompareRules .stack (.autoInc .byte 9) (readValue .stack wit)).all fun p =>
      nextIs (exec p.1 wit) fun _ => true) = true := by decide

theorem test_witness_CountCompletes :
    (forms.all fun dst => [(0 : BitVec 3), 7].all fun n => (countRules n dst).all fun p => modifiable dst p.2 wit) =
      true := by decide

theorem test_witness_UnaryCompletes :
    (forms.all fun dst => (unaryRules dst).all fun p => modifiable dst p.2 wit) = true := by decide

theorem test_witness_SingleOnRegister : wit.mem.wf ∧ regsOk wit = true := by decide

theorem test_witness_SingleOnByte : wit.mem.wf ∧ memClass wit.memMap 0xBFFF = .ram ∧
    memClass wit.memMap 0x0000 = .ram := by decide

theorem test_witness_SingleFrame :
    ((countRules 7 (.autoInc .word 8) ++ unaryRules (.indirect .word 10)).all fun p =>
      nextIs (exec p.1 wit) fun _ => true) = true := by decide

theorem test_witness_StackDestinationRefused : readable (.autoInc .word 8) wit = true := by decide

theorem test_witness_FlagsDestinationRefused :
    readable (.imm 1) wit = true ∧ operandAddr (.indirect .word 12) (afterRead (.imm 1) wit) = some 0xC000 ∧
    operandWidth (.indirect .word 12) = .word ∧ regsOk wit = true ∧
    operandAddr (.direct .word 0xC000) { wit with regbank := 0xFFFF } = some 0xC000 := by decide

theorem test_witness_ByteControlRegisterRefused :
    operandAddr (.direct .byte 0xC000) wit = some 0xC000 ∧ operandAddr (.indexed .byte 10 1) wit = some 0xC003 ∧
    operandWidth (.indexed .byte 10 1) = .byte ∧ regsOk wit = true ∧ isImmediate (.reg 0) = false := by decide

theorem test_witness_MisalignedWordFaults :
    operandAddr (.autoInc .word 9) wit = some 0x0501 ∧ operandWidth (.autoInc .word 9) = .word ∧
    isOdd (0x0501 : Word) = true ∧ regsOk wit = true ∧ operandAddr (.direct .word 0xFFFF) wit = some 0xFFFF ∧
    isOdd (0xFFFF : Word) = true ∧ isImmediate (.reg 0) = false ∧
    (let s := wit.setReg 15 0x0001
     regsOk s = true ∧ isOdd (s.reg 15) = true ∧ s.flags.z = true) ∧ isOdd (0xFFFE : Word) = false ∧
    Flags.z wit.flags = true := by decide

theorem test_witness_RomWriteRefused :
    operandAddr (.indirect .word 11) wit = some 0xFFF0 ∧ loadOk wit.memMap 0xFFF0 .word = true ∧
    someByteIs wit.memMap .rom 0xFFF0 .word = true ∧
    regsOk wit = true ∧ operandAddr (.direct .byte 0xFFFF) wit = some 0xFFFF ∧ loadOk wit.memMap 0xFFFF .byte = true ∧
    someByteIs wit.memMap .rom 0xFFFF .byte = true := by decide

theorem test_witness_RelativeJumpCompletes : Flags.z wit.flags = true ∧ Flags.s wit.flags = false := by decide

/-- Every form gives an even value, so a target. -/
theorem test_witness_TakenAbsoluteJump :
    ([.imm 0xFFFE, .stack, .reg 8, .direct .word 0x0400, .direct .byte 0x0400, .indirect .word 8, .autoInc .byte 8,
      .indexed .word 15 0].all fun op => readable op wit && !isOdd (readValue op wit)) = true := by decide

theorem test_witness_TakenReturnPops : readable .stack wit = true ∧ isOdd (wit.wordAt (wit.reg 15)) = false := by decide

theorem test_witness_TakenCallPushesThenJumps :
    ([.imm 0xFFFE, .stack, .reg 8, .direct .word 0x0400, .direct .byte 0x0400, .indirect .word 8, .autoInc .byte 8,
      .indexed .word 15 0].all fun op => readable op wit && !isOdd (readValue op wit) &&
      writable .stack wit.pc (afterRead op wit)) = true := by decide

theorem test_witness_SoftwareInterrupt :
    (let s := withWords wit [(0x0000, 0x0300), (0x00FE, 0xFFFE)]
     [(0 : BitVec 7), 127].all fun v => writable .stack s.pc s &&
      isOdd ((afterWrite .stack s.pc s).wordAt (BitVec.ofNat 16 (2 * v.toNat))) == false) = true := by decide

theorem test_witness_OddTargetFaults :
    (readable (.imm 0x0001) wit = true ∧ isOdd (readValue (.imm 0x0001) wit) = true) ∧
    (let s := withWords wit [(0x1000, 0x0207)]
     readable .stack s = true ∧ isOdd (s.wordAt (s.reg 15)) = true) ∧
    (let s := withWords wit [(0x0000, 0x0001), (0x00FE, 0xFFFF), (0x007E, 0xFFFF)]
     ([(0 : BitVec 7), 127].all fun v => writable .stack s.pc s &&
        isOdd ((afterWrite .stack s.pc s).wordAt (BitVec.ofNat 16 (2 * v.toNat)))) = true ∧
      ([(0 : Fin 64), 63].all fun h => writable .stack s.pc s &&
        isOdd ((afterWrite .stack s.pc s).wordAt (BitVec.ofNat 16 (2 * h)))) = true) := by decide

theorem test_witness_NotTakenDoesNothing : ¬(Flags.z wit.flags = false) ∧ ¬(Flags.s wit.flags = true) := by decide

theorem test_witness_ControlFrame :
    nextIs (exec (.jmp 0x40) wit) (fun _ => true) = true ∧ nextIs (exec (.jmpl .stack) wit) (fun _ => true) = true ∧
    nextIs (exec .ret wit) (fun _ => true) = true ∧ nextIs (exec (.call (.autoInc .byte 8)) wit) (fun _ => true) = true ∧
    nextIs (exec (.int 127) wit) (fun _ => true) = true := by decide

theorem test_witness_CallThenReturn :
    wit.mem.wf ∧ writable .stack wit.pc wit = true ∧ isOdd (0x0300 : Word) = false ∧ isOdd wit.pc = false ∧
    pushAddr wit ≠ regAddr wit.regbank 15 := by decide

theorem test_witness_FlagsWrittenByInstruction :
    nextIs (exec (.mov (.imm 0x1F) (.direct .word 0xC000)) wit) (fun t => t.flags.toWord == 0x1F) = true ∧
    nextIs (exec (.shl 7 (.reg 0)) wit) (fun _ => true) = true ∧
    nextIs (takeInterrupt 63 wit) (fun _ => true) = true := by decide

theorem test_witness_InterruptFlagWriters :
    nextIs (exec .cli wit) (fun t => t.flags.i != wit.flags.i) = true ∧
    nextIs (exec (.mov (.imm 0) (.direct .word 0xC000)) wit) (fun t => t.flags.i != wit.flags.i) = true := by decide

theorem test_witness_FlagsSavedByPushAndPop :
    wit.mem.wf ∧ writable .stack wit.flags.toWord wit = true ∧ pushAddr wit ≠ regAddr wit.regbank 15 := by decide

theorem test_witness_StiAndCli :
    nextIs (exec .cli wit) (fun _ => true) = true ∧ wit.flags.i = true ∧ (start 0 []).flags.i = false := by decide

theorem test_witness_ShadowOnlyAfterSti :
    (start 0 []).stiShadow = false ∧ nextIs (exec .sti (start 0 [])) (fun t => t.stiShadow) = true ∧
    nextIs (exec .sti wit) (fun t => !t.stiShadow) = true ∧
    nextIs (run [0xDFC0] (start 0 [])) (fun t => t.stiShadow) = true ∧ envMove (start 0 []) = none ∧
    envMove { wit with turns := [.env (.request 0)], stiShadow := true } ≠ none := by decide

theorem test_witness_FlagsRegisterAsMemory : wit.mem.wf ∧ regsOk wit = true := by decide

theorem test_witness_DeviceRegisterReads : wit.mem.wf ∧ regsOk wit = true := by decide

end Sys2Proof.Tests
end

section
/-! PROOFS. The registers as memory (10_state.md): windows that R62 has in RAM under every map, MOV as its operands'
accesses, and the example of R23. -/

namespace Sys2Proof.Machine

/-- The vector table and the default register window are RAM under every map (R62). -/
theorem memClass_low {a : Word} (h : a.toNat < 0x0120) (m : MemMap) : memClass m a = .ram :=
  memClass_fixed (if_pos h) m

/-- A window that begins below 0x0120 lies in RAM under every map: it ends by 0x011F (R22, R62). -/
theorem windowInRam_low {rb : Word} (h : rb.toNat < 0x0120) (m : MemMap) : windowInRam m rb = true := by
  refine List.all_eq_true.mpr fun i _ => everyByteIs_word.mpr ?_
  have hi : (BitVec.ofNat 4 i).toNat < 16 := (BitVec.ofNat 4 i).isLt
  have ha := regAddr_toNat rb (BitVec.ofNat 4 i)
  have hOdd : (regAddr rb (BitVec.ofNat 4 i) + 1).toNat < 0x0120 := by
    rw [BitVec.toNat_add, show (1 : Word).toNat = 1 from rfl]; omega
  exact ⟨memClass_low (by omega) m, memClass_low hOdd m⟩

/-- A register of a window that begins below 0x0120 can be read under every map. -/
theorem readReg_low {s : State} (h : s.regbank.toNat < 0x0120) (i : RegNum) : readReg i s = .next (s.reg i) :=
  readReg_next_iff.mpr ⟨windowInRam_low h s.memMap, rfl⟩

/-- A word can be stored at an even address whose two bytes are RAM. -/
theorem storeOk_of_slotOk {m : MemMap} {a : Word} (h : slotOk m a = true) : storeOk m a .word = true := by
  obtain ⟨hEven, hRam⟩ := slotOk_iff.mp h
  simp [storeOk, loadOk, hEven, someByteIs_of_every hRam]

/-- The word at 0x0400 is even and RAM under every map (R62). -/
theorem slotOk_0x0400 (m : MemMap) : slotOk m 0x0400 = true :=
  slotOk_iff.mpr ⟨by decide, everyByteIs_word.mpr ⟨memClass_fixed (by decide) m, memClass_fixed (by decide) m⟩⟩

/-- MOV completes where its source can be read and its destination then written, with those two accesses as its whole
effect (R130, R131, R154). -/
theorem exec_mov_next_iff {src dst : Operand} {s t : State} :
    exec (.mov src dst) s = .next t ↔
      isImmediate dst = false ∧ readable src s = true ∧
        writable dst (readValue src s) (afterRead src s) = true ∧
        afterWrite dst (readValue src s) (afterRead src s) = t := by
  change execMov src dst s = .next t ↔ _
  rw [execMov, withSource_next_iff, writeOperand_next_iff]

/-- MOV of a register to a word of RAM stores the register's value there. -/
theorem exec_mov_reg_slot {i : RegNum} {a : Word} {s : State} (hReg : regsOk s = true)
    (hSlot : slotOk s.memMap a = true) :
    exec (.mov (.reg i) (.direct .word a)) s = .next (s.setWord a (s.reg i)) :=
  exec_mov_next_iff.mpr ⟨rfl, hReg, storeOk_of_slotOk hSlot, storeState_word (slotOk_iff.mp hSlot).2⟩

/-- With REGBANK 0x0100, R14 is the word at 0x011C (R23). -/
theorem regAddr_default_r14 : regAddr 0x0100 14 = 0x011C := by decide

/-- Settles O14: the default window is RAM under every map, so R14 can be read in every state with that REGBANK, and
what is read is the word at its address. -/
theorem registerFourteenExample : Obligations.RegisterFourteenExample := by
  refine ⟨regAddr_default_r14, fun s hBank => ?_⟩
  have hLow : s.regbank.toNat < 0x0120 := by rw [hBank]; decide
  have hR14 : s.reg 14 = s.wordAt 0x011C := by rw [State.reg, hBank, regAddr_default_r14]
  rw [← hR14]
  exact ⟨readReg_low hLow 14, exec_mov_reg_slot (windowInRam_low hLow s.memMap) (slotOk_0x0400 s.memMap)⟩

end Sys2Proof.Machine
end

section
/-! PROOFS. The flags of the logical instructions (41_dual_operand.md R152): what a read-modify-write and a compare leave
in the flags, and that they leave Z and S of the result where the operation is a logical one. -/

namespace Sys2Proof.Machine

/-! ### The flags a dual operand instruction leaves -/

/-- Changing an operand leaves the flags the operation gives for the operand's value; neither the store of the result nor
the write-back of an auto increment touches them afterwards (R132, log 26). -/
theorem afterModify_flags {op : Operand} {g : Alu} {s : State} (h : modifiable op g s = true) :
    (afterModify op g s).flags = (g (readValue op s) s.flags).2 := by
  cases op with
  | imm v => exact Bool.noConfusion h
  | stack => exact Bool.noConfusion h
  | reg | direct | indirect | autoInc | indexed => rfl

/-- An instruction that writes its destination leaves the flags its operation gives for the source value, the destination
value read after it, and the old flags. -/
theorem dualModify_next_flags {g : Word → Alu} {src dst : Operand} {s t : State}
    (h : dualModify g src dst s = .next t) :
    t.flags = (g (readValue src s) (readValue dst (afterRead src s)) s.flags).2 := by
  rw [dualModify, withSource_next_iff, modifyOperand_next_iff] at h
  obtain ⟨-, -, hModifiable, rfl⟩ := h
  rw [afterModify_flags hModifiable, afterRead_flags]

/-- An instruction that only reads its destination leaves the same flags as one that writes it. -/
theorem dualCompare_next_flags {g : Word → Alu} {src dst : Operand} {s t : State}
    (h : dualCompare g src dst s = .next t) :
    t.flags = (g (readValue src s) (readValue dst (afterRead src s)) s.flags).2 := by
  rw [dualCompare, withSource_next_iff, compareOperand_next_iff] at h
  obtain ⟨-, -, -, rfl⟩ := h
  rw [State.withFlags_flags, afterRead_flags, afterRead_flags]

/-! ### The logical instructions -/

/-- The machine's logical operation is the rule of R152: the most significant bit of a word is its bit 15. -/
theorem aluLogic_eq_logicRule (r : Word) (f : Flags) : aluLogic r f = logicRule r f := by
  rw [aluLogic, setZS, BitVec.msb_eq_getLsbD_last, logicRule]

/-- AND is the conjunction, stored in its destination (R160). -/
theorem exec_and_eq (src dst : Operand) (s : State) :
    exec (.and src dst) s = dualModify (fun v d => aluLogic (d &&& v)) src dst s := rfl

/-- TEST is the conjunction, not stored (R161). -/
theorem exec_test_eq (src dst : Operand) (s : State) :
    exec (.test src dst) s = dualCompare (fun v d => aluLogic (d &&& v)) src dst s := rfl

/-- OR is the disjunction, stored in its destination (R162). -/
theorem exec_or_eq (src dst : Operand) (s : State) :
    exec (.or src dst) s = dualModify (fun v d => aluLogic (d ||| v)) src dst s := rfl

/-- XOR is the exclusive disjunction, stored in its destination (R163). -/
theorem exec_xor_eq (src dst : Operand) (s : State) :
    exec (.xor src dst) s = dualModify (fun v d => aluLogic (d ^^^ v)) src dst s := rfl

/-- A logical instruction answers as a read-modify-write or as a compare by its operation. -/
theorem exec_logical_cases {src dst : Operand} {p : Instr × (Word → Word → Word)} (hp : p ∈ logicalInstrs src dst)
    (s : State) :
    exec p.1 s = dualModify (fun v d => aluLogic (p.2 d v)) src dst s ∨
      exec p.1 s = dualCompare (fun v d => aluLogic (p.2 d v)) src dst s := by
  simp only [logicalInstrs, List.mem_cons, List.not_mem_nil, or_false] at hp
  rcases hp with rfl | rfl | rfl | rfl
  · exact .inl (exec_and_eq src dst s)
  · exact .inr (exec_test_eq src dst s)
  · exact .inl (exec_or_eq src dst s)
  · exact .inl (exec_xor_eq src dst s)

/-- Settles O25: both kinds of logical instruction leave the flags of `aluLogic` on the result, which R152 prints bit by
bit. -/
theorem logicalFlags : Obligations.LogicalFlags := by
  intro src dst s t p hp h
  have hFlags : t.flags = (aluLogic (p.2 (readValue dst (afterRead src s)) (readValue src s)) s.flags).2 := by
    rcases exec_logical_cases hp s with hExec | hExec
    · exact dualModify_next_flags (hExec ▸ h)
    · exact dualCompare_next_flags (hExec ▸ h)
  rw [hFlags, aluLogic_eq_logicRule, logicRule]

end Sys2Proof.Machine
end

section
/-! PROOFS. The miscellaneous instructions on the carry flag (44_misc_and_macros.md R212, R213): the words of format M, and
what changing C alone does to the word of the Flags register. -/

namespace Sys2Proof

/-- A miscellaneous instruction is its one instruction word (R81, R95). -/
theorem encode_misc (op : MiscOp) : encode (Shape.misc op).instr = [(Shape.misc op).word] := by
  rw [encode, Laws.instr_shape, Shape.exts]

/-- The word of a miscellaneous operation decodes to it, whatever words follow (R95, R98). -/
theorem decode_misc_word (op : MiscOp) (e1 e2 : Word) :
    decode (Shape.misc op).word e1 e2 = .ok (Shape.misc op).instr := by
  cases op with
  | sti | cli | stc | clc => rfl

/-- The word of STC (R212). -/
theorem misc_stc_word : (Shape.misc .stc).word = 0xDFC2 := by decide

/-- The word of CLC (R213). -/
theorem misc_clc_word : (Shape.misc .clc).word = 0xDFC3 := by decide

end Sys2Proof

namespace Sys2Proof.Machine

/-- STC is the operation of R212. -/
theorem exec_stc_eq (s : State) : exec .stc s = .next (s.withFlags { s.flags with c := true }) := rfl

/-- CLC is the operation of R213. -/
theorem exec_clc_eq (s : State) : exec .clc s = .next (s.withFlags { s.flags with c := false }) := rfl

/-- Changing C alone changes bit 1 alone of the word that the Flags register reads as (R27). -/
theorem toWord_withCarry (f : Flags) (b : Bool) :
    ({ f with c := b } : Flags).toWord = f.toWord &&& 0xFFFD ||| if b then 0x0002 else 0x0000 := by
  obtain ⟨z, c, o, s, i⟩ := f
  revert z c o s i b
  decide

/-- Settles O54: STC is the word of format M with function 2, and its example is the word 0x0000 with bit 1 set. -/
theorem stcSetsCarry : Obligations.StcSetsCarry := by
  refine ⟨?_, ?_, exec_stc_eq, ?_⟩
  · rw [← misc_stc_word]; exact encode_misc .stc
  · rw [← misc_stc_word]; exact decode_misc_word .stc 0 0
  · rw [toWord_withCarry]; decide

/-- Settles O55: CLC is the word of format M with function 3, and its example is the word 0x001F with bit 1 cleared. -/
theorem clcClearsCarry : Obligations.ClcClearsCarry := by
  refine ⟨?_, ?_, exec_clc_eq, ?_⟩
  · rw [← misc_clc_word]; exact encode_misc .clc
  · rw [← misc_clc_word]; exact decode_misc_word .clc 0 0
  · rw [toWord_withCarry]; decide

end Sys2Proof.Machine
end

section
/-! PROOFS. The encoding (30_encoding.md). An operand field and its extension word name one well-formed operand; an
instruction word is cut into the fields of its format; the round trips over words and over bytes follow from these. -/

namespace Sys2Proof

/-! ### The tables of codes are one to one -/

theorem decodeCond_code (cc : Cond) : decodeCond cc.code = some cc := by cases cc <;> rfl

theorem decodeDual_code (op : DualOp) : decodeDual op.code = some op := by cases op <;> rfl

theorem decodeCount_code (op : CountOp) : decodeCount op.code = some op := by cases op <;> rfl

theorem decodeUnary_code (op : UnaryOp) : decodeUnary op.code = some op := by cases op <;> rfl

theorem code_of_decodeCond {c : BitVec 4} {cc : Cond} (h : decodeCond c = some cc) : cc.code = c := by
  have key : ∀ c, ∀ cc ∈ decodeCond c, cc.code = c := by decide
  exact key c cc h

theorem code_of_decodeDual {c : BitVec 4} {op : DualOp} (h : decodeDual c = some op) : op.code = c := by
  have key : ∀ c, ∀ op ∈ decodeDual c, op.code = c := by decide
  exact key c op h

theorem code_of_decodeCount {c : BitVec 3} {op : CountOp} (h : decodeCount c = some op) : op.code = c := by
  have key : ∀ c, ∀ op ∈ decodeCount c, op.code = c := by decide
  exact key c op h

theorem code_of_decodeUnary {c : BitVec 3} {op : UnaryOp} (h : decodeUnary c = some op) : op.code = c := by
  have key : ∀ c, ∀ op ∈ decodeUnary c, op.code = c := by decide
  exact key c op h

theorem code_of_decodeMisc {f : BitVec 6} {op : MiscOp} (h : decodeMisc f = some op) : op.code = f := by
  have key : ∀ f, ∀ op ∈ decodeMisc f, op.code = f := by decide
  exact key f op h

/-! ### Operands -/

/-- What a field decodes to is well formed, has that field, and has an extension word where the field's mode has one. -/
theorem decodeOperand_spec (f : BitVec 6) (e : Word) :
    (decodeOperand f e).wf = true ∧ (decodeOperand f e).field = f ∧
      (decodeOperand f e).ext = if needsExt f then [e] else [] := by
  simp only [decodeOperand]
  split_ifs <;> simp only [Operand.wf, Operand.field, Operand.ext, reduceCtorEq, and_true] <;> revert f <;> decide

/-- The registers that a pointer field can name, 1000 to 1110 with the leading 1 left out (R88, R138). -/
theorem pointer_code {r : RegNum} (h : isPointer r = true) :
    1#1 ++ r.extractLsb' 0 3 = r ∧ r.extractLsb' 0 3 ≠ 7 := by
  revert r; decide

theorem indexBase_code {r : RegNum} (h : isIndexBase r = true) : 1#1 ++ r.extractLsb' 0 3 = r := by
  revert r; decide

theorem width_of_bitOfWidth (w : Width) (m : BitVec 2) (x : BitVec 3) :
    widthOfBit ((m ++ bitOfWidth w ++ x).getLsbD 3) = w := by
  cases w <;> revert m x <;> decide

/-- A field of three parts has these parts: the mode, the width bit and the register code (R84). -/
theorem field_parts (m : BitVec 2) (b : BitVec 1) (x : BitVec 3) :
    (m ++ b ++ x).extractLsb' 4 2 = m ∧ (m ++ b ++ x).extractLsb' 0 3 = x := by
  revert m b x; decide

/-- The field of a well-formed operand decodes to it, with its extension word if it has one (R84 to R91). -/
theorem decodeOperand_field {o : Operand} (h : o.wf = true) (ws : List Word) :
    decodeOperand o.field ((o.ext ++ ws).getD 0 0) = o := by
  cases o with
  | reg n =>
    have hn : (0#2 ++ n : BitVec 6).extractLsb' 4 2 = 0 ∧ (0#2 ++ n : BitVec 6).extractLsb' 0 4 = n := by
      revert n; decide
    simp [decodeOperand, Operand.field, hn]
  | imm v => simp [decodeOperand, Operand.field, Operand.ext]
  | stack => rfl
  | direct w a =>
    simp only [decodeOperand, Operand.field, field_parts, width_of_bitOfWidth]; rfl
  | indirect w r =>
    obtain ⟨hr, h7⟩ := pointer_code h
    simp only [decodeOperand, Operand.field, field_parts, width_of_bitOfWidth, hr, h7]; rfl
  | autoInc w r =>
    obtain ⟨hr, h7⟩ := pointer_code h
    simp only [decodeOperand, Operand.field, field_parts, width_of_bitOfWidth, hr, h7]; rfl
  | indexed w r off =>
    simp only [decodeOperand, Operand.field, field_parts, width_of_bitOfWidth, indexBase_code h]; rfl

/-- The mode of a well-formed operand has as many extension words as the operand (R92). -/
theorem needsExt_field {o : Operand} (h : o.wf = true) : (needsExt o.field).toNat = o.ext.length := by
  rw [← decodeOperand_field h []]
  obtain ⟨-, hf, he⟩ := decodeOperand_spec o.field ((o.ext ++ []).getD 0 0)
  rw [hf, he]
  cases needsExt o.field <;> rfl

/-! ### The fields of an instruction word (R82, R83) -/

/-- Two adjacent parts of a word, put together. -/
theorem extract_append {n : Nat} (x : BitVec n) (i j k l : Nat) (h : i = j + l) :
    x.extractLsb' i k ++ x.extractLsb' j l = x.extractLsb' j (k + l) :=
  BitVec.extractLsb'_append_extractLsb'_eq_extractLsb' h

theorem extract_high {v w : Nat} (x : BitVec v) (y : BitVec w) (i l : Nat) (h : w ≤ i) :
    (x ++ y).extractLsb' i l = x.extractLsb' (i - w) l :=
  BitVec.extractLsb'_append_eq_of_le h

theorem extract_low {v w : Nat} (x : BitVec v) (y : BitVec w) (i l : Nat) (h : i + l ≤ w) :
    (x ++ y).extractLsb' i l = y.extractLsb' i l :=
  BitVec.extractLsb'_append_eq_of_add_le h

/-- Format D: opcode, source field, destination field. -/
theorem dualFormat_parts (a : BitVec 4) (b c : BitVec 6) :
    (a ++ b ++ c : Word).extractLsb' 12 4 = a ∧ srcField (a ++ b ++ c) = b ∧ dstField (a ++ b ++ c) = c := by
  have hi := extract_high (a ++ b) c
  have lo := extract_low (a ++ b) c
  simp [srcField, dstField, hi, lo, extract_high a b, extract_low a b]

/-- Formats C, JL and R: opcode, condition, two fixed bits, target field. -/
theorem condFormat_parts (a b : BitVec 4) (c : BitVec 2) (d : BitVec 6) :
    (a ++ b ++ c ++ d : Word).extractLsb' 12 4 = a ∧ (a ++ b ++ c ++ d : Word).extractLsb' 8 4 = b ∧
      (a ++ b ++ c ++ d : Word).extractLsb' 6 2 = c ∧ dstField (a ++ b ++ c ++ d) = d := by
  have hi := extract_high (a ++ b ++ c) d
  have lo := extract_low (a ++ b ++ c) d
  have hi' := extract_high (a ++ b) c
  have lo' := extract_low (a ++ b) c
  simp [dstField, hi, lo, hi', lo', extract_high a b, extract_low a b]

/-- Formats J and I: opcode, condition, one fixed bit, seven bits of offset or vector. -/
theorem offsetFormat_parts (a b : BitVec 4) (c : BitVec 1) (d : BitVec 7) :
    (a ++ b ++ c ++ d : Word).extractLsb' 12 4 = a ∧ (a ++ b ++ c ++ d : Word).extractLsb' 8 4 = b ∧
      (a ++ b ++ c ++ d : Word).extractLsb' 7 1 = c ∧ (a ++ b ++ c ++ d : Word).extractLsb' 0 7 = d := by
  have hi := extract_high (a ++ b ++ c) d
  have lo := extract_low (a ++ b ++ c) d
  have hi' := extract_high (a ++ b) c
  have lo' := extract_low (a ++ b) c
  simp [hi, lo, hi', lo', extract_high a b, extract_low a b]

/-- Formats S and M: opcode, sub-opcode, parameter, destination field. -/
theorem singleFormat_parts (a : BitVec 4) (b c : BitVec 3) (d : BitVec 6) :
    (a ++ b ++ c ++ d : Word).extractLsb' 12 4 = a ∧ (a ++ b ++ c ++ d : Word).extractLsb' 9 3 = b ∧
      (a ++ b ++ c ++ d : Word).extractLsb' 6 3 = c ∧ dstField (a ++ b ++ c ++ d) = d := by
  have hi := extract_high (a ++ b ++ c) d
  have lo := extract_low (a ++ b ++ c) d
  have hi' := extract_high (a ++ b) c
  have lo' := extract_low (a ++ b) c
  simp [dstField, hi, lo, hi', lo', extract_high a b, extract_low a b]

/-- Bit 7 of a word is a field of format J and the upper bit of the two of the formats beside it. -/
theorem bit7_eq (iw : Word) :
    iw.getLsbD 7 = (iw.extractLsb' 6 2).getLsbD 1 ∧ iw.getLsbD 7 = (iw.extractLsb' 7 1).getLsbD 0 := by simp

/-- A word with these parts is the parts of format D put together, and so for the other formats. -/
theorem dualFormat_eq {iw : Word} {a : BitVec 4} {b c : BitVec 6} (ha : iw.extractLsb' 12 4 = a)
    (hb : srcField iw = b) (hc : dstField iw = c) : a ++ b ++ c = iw := by
  rw [← ha, ← hb, ← hc, srcField, dstField, extract_append iw 12 6 4 6 rfl]
  exact (extract_append iw 6 0 10 6 rfl).trans BitVec.extractLsb'_eq_self

theorem condFormat_eq {iw : Word} {a b : BitVec 4} {c : BitVec 2} {d : BitVec 6} (ha : iw.extractLsb' 12 4 = a)
    (hb : iw.extractLsb' 8 4 = b) (hc : iw.extractLsb' 6 2 = c) (hd : dstField iw = d) : a ++ b ++ c ++ d = iw := by
  rw [← ha, ← hb, ← hc, ← hd, dstField, extract_append iw 12 8 4 4 rfl, extract_append iw 8 6 (4 + 4) 2 rfl]
  exact (extract_append iw 6 0 10 6 rfl).trans BitVec.extractLsb'_eq_self

theorem offsetFormat_eq {iw : Word} {a b : BitVec 4} {c : BitVec 1} {d : BitVec 7} (ha : iw.extractLsb' 12 4 = a)
    (hb : iw.extractLsb' 8 4 = b) (hc : iw.extractLsb' 7 1 = c) (hd : iw.extractLsb' 0 7 = d) :
    a ++ b ++ c ++ d = iw := by
  rw [← ha, ← hb, ← hc, ← hd, extract_append iw 12 8 4 4 rfl, extract_append iw 8 7 (4 + 4) 1 rfl]
  exact (extract_append iw 7 0 9 7 rfl).trans BitVec.extractLsb'_eq_self

theorem singleFormat_eq {iw : Word} {a : BitVec 4} {b c : BitVec 3} {d : BitVec 6} (ha : iw.extractLsb' 12 4 = a)
    (hb : iw.extractLsb' 9 3 = b) (hc : iw.extractLsb' 6 3 = c) (hd : dstField iw = d) : a ++ b ++ c ++ d = iw := by
  rw [← ha, ← hb, ← hc, ← hd, dstField, extract_append iw 12 9 4 3 rfl, extract_append iw 9 6 (4 + 3) 3 rfl]
  exact (extract_append iw 6 0 10 6 rfl).trans BitVec.extractLsb'_eq_self

/-- The one fixed bit of formats J and I is bit 7. -/
theorem offsetBit_eq_zero {iw : Word} (h : iw.getLsbD 7 = false) : iw.extractLsb' 7 1 = 0#1 := by
  have key : ∀ x : BitVec 1, x.getLsbD 0 = false → x = 0#1 := by decide
  exact key _ ((bit7_eq iw).2 ▸ h)

/-! ### An instruction word decodes to its shape -/

/-- The operands of a shape are well formed. -/
def Shape.wf : Shape → Bool
  | .dual _ src dst => src.wf && dst.wf
  | .jumpLong _ t => t.wfJump
  | .call _ t => t.wf
  | .count _ _ dst => dst.wf
  | .unary _ dst => dst.wf
  | .jump _ _ | .ret _ | .int _ | .misc _ => true

theorem wf_eq_shape_wf (i : Instr) : i.wf = i.shape.wf := by cases i <;> rfl

/-- A jump target is any operand but the stack operand, whose field is 0x17 (R98). -/
theorem wfJump_iff {t : Operand} : t.wfJump = true ↔ t.wf = true ∧ t.field ≠ 0x17 := by
  by_cases ht : t = .stack
  · subst ht; decide
  · have hJump : t.wfJump = t.wf := by
      cases t with
      | stack => exact absurd rfl ht
      | _ => rfl
    rw [hJump, iff_self_and]
    intro hw hf
    have hDecode := decodeOperand_field hw []
    rw [hf] at hDecode
    exact ht hDecode.symm

theorem decodeShape_dual (op : DualOp) (src dst : Operand) (e1 e2 : Word) :
    decodeShape (Shape.dual op src dst).word e1 e2 =
      some (.dual op (decodeOperand src.field e1) (decodeOperand dst.field (if needsExt src.field then e2 else e1))) := by
  obtain ⟨hOp, hSrc, hDst⟩ := dualFormat_parts op.code src.field dst.field
  simp only [decodeShape, Shape.word, hOp, hSrc, hDst, decodeDual_code]

theorem decodeShape_jump (cc : Cond) (off : BitVec 7) (e1 e2 : Word) :
    decodeShape (Shape.jump cc off).word e1 e2 = some (.jump cc off) := by
  obtain ⟨hOp, hCond, hBit, hOff⟩ := offsetFormat_parts 0xC#4 cc.code 0#1 off
  simp only [decodeShape, decodeJumpGroup, Shape.word, hOp, hCond, (bit7_eq _).2, hBit, hOff, decodeCond_code]
  rfl

theorem decodeShape_jumpLong (cc : Cond) {t : Operand} (h : t.field ≠ 0x17) (e1 e2 : Word) :
    decodeShape (Shape.jumpLong cc t).word e1 e2 = some (.jumpLong cc (decodeOperand t.field e1)) := by
  obtain ⟨hOp, hCond, hBits, hField⟩ := condFormat_parts 0xC#4 cc.code 2#2 t.field
  simp only [decodeShape, decodeJumpGroup, Shape.word, hOp, hCond, (bit7_eq _).1, hBits, hField, decodeCond_code, if_neg h]
  rfl

theorem decodeShape_ret (cc : Cond) (e1 e2 : Word) :
    decodeShape (Shape.ret cc).word e1 e2 = some (.ret cc) := by
  obtain ⟨hOp, hCond, hBits, hField⟩ := condFormat_parts 0xC#4 cc.code 2#2 0x17#6
  simp only [decodeShape, decodeJumpGroup, Shape.word, hOp, hCond, (bit7_eq _).1, hBits, hField, decodeCond_code]
  rfl

theorem decodeShape_call (cc : Cond) (t : Operand) (e1 e2 : Word) :
    decodeShape (Shape.call cc t).word e1 e2 = some (.call cc (decodeOperand t.field e1)) := by
  obtain ⟨hOp, hCond, hBits, hField⟩ := condFormat_parts 0xA#4 cc.code 2#2 t.field
  simp only [decodeShape, decodeCallGroup, Shape.word, hOp, hCond, hBits, hField, decodeCond_code]
  rfl

theorem decodeShape_int (v : BitVec 7) (e1 e2 : Word) :
    decodeShape (Shape.int v).word e1 e2 = some (.int v) := by
  obtain ⟨hOp, hCond, hBit, hVec⟩ := offsetFormat_parts 0xA#4 0xF#4 0#1 v
  have h7 : (0xA#4 ++ 0xF#4 ++ 0#1 ++ v : Word).getLsbD 7 = false := by rw [(bit7_eq _).2, hBit]; rfl
  have h2 : (0xA#4 ++ 0xF#4 ++ 0#1 ++ v : Word).extractLsb' 6 2 ≠ 2 := fun h => by
    rw [(bit7_eq _).1, h] at h7; cases h7
  simp only [decodeShape, decodeCallGroup, Shape.word, hOp, hCond, h7, hVec, if_neg h2]
  rfl

theorem decodeShape_count (op : CountOp) (n : BitVec 3) (dst : Operand) (e1 e2 : Word) :
    decodeShape (Shape.count op n dst).word e1 e2 = some (.count op n (decodeOperand dst.field e1)) := by
  obtain ⟨hOp, hSub, hParam, hDst⟩ := singleFormat_parts 0xD#4 op.code n dst.field
  simp only [decodeShape, decodeSingleGroup, Shape.word, hOp, hSub, hParam, hDst, decodeCount_code]
  rfl

theorem decodeShape_unary (op : UnaryOp) (dst : Operand) (e1 e2 : Word) :
    decodeShape (Shape.unary op dst).word e1 e2 = some (.unary op (decodeOperand dst.field e1)) := by
  obtain ⟨hOp, hSub, hParam, hDst⟩ := singleFormat_parts 0xD#4 7#3 op.code dst.field
  have h7 : op.code ≠ 7 := by cases op <;> decide
  simp only [decodeShape, decodeSingleGroup, Shape.word, hOp, hSub, hParam, hDst, decodeUnary_code, if_neg h7]
  rfl

theorem decodeShape_misc (op : MiscOp) (e1 e2 : Word) :
    decodeShape (Shape.misc op).word e1 e2 = some (.misc op) := by
  cases op <;> rfl

/-- The second operand's extension word stands after the first's, if the first has one (R81). -/
theorem getD_after_ext {o : Operand} (h : o.wf = true) (ws : List Word) :
    (if needsExt o.field then (o.ext ++ ws).getD 1 0 else (o.ext ++ ws).getD 0 0) = ws.getD 0 0 := by
  have hLength := needsExt_field h
  cases hn : needsExt o.field <;> rw [hn] at hLength
  · rw [List.length_eq_zero_iff.mp hLength.symm]; rfl
  · obtain ⟨e, he⟩ := List.length_eq_one_iff.mp hLength.symm
    rw [he]; rfl

/-- The words of a well-formed shape decode to it, whatever follows. -/
theorem decodeShape_word {sh : Shape} (h : sh.wf = true) (ws : List Word) :
    decodeShape sh.word ((sh.exts ++ ws).getD 0 0) ((sh.exts ++ ws).getD 1 0) = some sh := by
  cases sh with
  | dual op src dst =>
    obtain ⟨hSrc, hDst⟩ := Bool.and_eq_true_iff.mp h
    rw [decodeShape_dual, Shape.exts, List.append_assoc, decodeOperand_field hSrc, getD_after_ext hSrc,
      decodeOperand_field hDst]
  | jump cc off => exact decodeShape_jump ..
  | jumpLong cc t =>
    obtain ⟨hw, hf⟩ := wfJump_iff.mp h
    rw [decodeShape_jumpLong cc hf, Shape.exts, decodeOperand_field hw]
  | ret cc => exact decodeShape_ret ..
  | call cc t => rw [decodeShape_call, Shape.exts, decodeOperand_field h]
  | int v => exact decodeShape_int ..
  | count op n dst => rw [decodeShape_count, Shape.exts, decodeOperand_field h]
  | unary op dst => rw [decodeShape_unary, Shape.exts, decodeOperand_field h]
  | misc op => exact decodeShape_misc ..

/-- The decoder counts the extension words of a well-formed shape right (R92). -/
theorem extCount_word {sh : Shape} (h : sh.wf = true) : extCount sh.word = sh.exts.length := by
  cases sh with
  | dual op src dst =>
    obtain ⟨hSrc, hDst⟩ := Bool.and_eq_true_iff.mp h
    obtain ⟨-, hSrcField, hDstField⟩ := dualFormat_parts op.code src.field dst.field
    simp only [extCount, decodeShape_dual]
    simp only [Shape.word, hSrcField, hDstField, needsExt_field hSrc, needsExt_field hDst, Shape.exts,
      List.length_append]
  | jump cc off => simp only [extCount, decodeShape_jump]; rfl
  | jumpLong cc t =>
    obtain ⟨hw, hf⟩ := wfJump_iff.mp h
    obtain ⟨-, -, -, hField⟩ := condFormat_parts 0xC#4 cc.code 2#2 t.field
    simp only [extCount, decodeShape_jumpLong cc hf]
    simp only [Shape.word, hField, needsExt_field hw, Shape.exts]
  | ret cc => simp only [extCount, decodeShape_ret]; rfl
  | call cc t =>
    obtain ⟨-, -, -, hField⟩ := condFormat_parts 0xA#4 cc.code 2#2 t.field
    simp only [extCount, decodeShape_call]
    simp only [Shape.word, hField, needsExt_field h, Shape.exts]
  | int v => simp only [extCount, decodeShape_int]; rfl
  | count op n dst =>
    obtain ⟨-, -, -, hField⟩ := singleFormat_parts 0xD#4 op.code n dst.field
    simp only [extCount, decodeShape_count]
    simp only [Shape.word, hField, needsExt_field h, Shape.exts]
  | unary op dst =>
    obtain ⟨-, -, -, hField⟩ := singleFormat_parts 0xD#4 7#3 op.code dst.field
    simp only [extCount, decodeShape_unary]
    simp only [Shape.word, hField, needsExt_field h, Shape.exts]
  | misc op => simp only [extCount, decodeShape_misc]; rfl

/-- Settles O1: the instruction word and its extension words decode to the shape, and as many words are used up. -/
theorem decodeOfEncode : Obligations.DecodeOfEncode := by
  intro i ws h
  rw [wf_eq_shape_wf] at h
  simp only [encode, List.cons_append, decodeWords, decode, extCount_word h, decodeShape_word h, Laws.shape_instr]
  rw [if_neg (by simp), Except.map, List.drop_left]

/-! ### A word that decodes is the word of its shape -/

/-- What the decoder answers for `iw` followed by `es` is the shape that `iw` and the first of `es` spell. -/
def Shape.SpelledBy (sh : Shape) (iw : Word) (es : List Word) : Prop :=
  sh.wf = true ∧ sh.word = iw ∧ sh.exts = es.take sh.exts.length

theorem ext_decodeOperand (f : BitVec 6) (e1 e2 : Word) :
    (decodeOperand f e1).ext = [e1, e2].take (decodeOperand f e1).ext.length := by
  rw [(decodeOperand_spec f e1).2.2]
  cases needsExt f <;> rfl

theorem decodeCallGroup_some {iw e1 : Word} {sh : Shape} (e2 : Word) (hOp : iw.extractLsb' 12 4 = 0xA)
    (h : decodeCallGroup iw e1 = some sh) : sh.SpelledBy iw [e1, e2] := by
  simp only [decodeCallGroup] at h
  split_ifs at h with hBits hInt
  · obtain ⟨cc, hCond, rfl⟩ := Option.map_eq_some_iff.mp h
    obtain ⟨hw, hField, -⟩ := decodeOperand_spec (dstField iw) e1
    exact ⟨hw, condFormat_eq hOp (code_of_decodeCond hCond).symm hBits hField.symm, ext_decodeOperand ..⟩
  · cases h
    simp only [Bool.and_eq_true, decide_eq_true_eq] at hInt
    exact ⟨rfl, offsetFormat_eq hOp hInt.2 (offsetBit_eq_zero hInt.1) rfl, rfl⟩

theorem decodeJumpGroup_some {iw e1 : Word} {sh : Shape} (e2 : Word) (hOp : iw.extractLsb' 12 4 = 0xC)
    (h : decodeJumpGroup iw e1 = some sh) : sh.SpelledBy iw [e1, e2] := by
  unfold decodeJumpGroup at h
  cases hCond : decodeCond (iw.extractLsb' 8 4) with
  | none => rw [hCond] at h; cases h
  | some cc =>
    simp only [hCond] at h
    have hCode := (code_of_decodeCond hCond).symm
    split_ifs at h with hBit hBits hRet <;> cases h
    · exact ⟨rfl, offsetFormat_eq hOp hCode (offsetBit_eq_zero hBit) rfl, rfl⟩
    · exact ⟨rfl, condFormat_eq hOp hCode hBits hRet, rfl⟩
    · obtain ⟨hw, hField, -⟩ := decodeOperand_spec (dstField iw) e1
      exact ⟨wfJump_iff.mpr ⟨hw, by rwa [hField]⟩, condFormat_eq hOp hCode hBits hField.symm, ext_decodeOperand ..⟩

theorem decodeSingleGroup_some {iw e1 : Word} {sh : Shape} (e2 : Word) (hOp : iw.extractLsb' 12 4 = 0xD)
    (h : decodeSingleGroup iw e1 = some sh) : sh.SpelledBy iw [e1, e2] := by
  obtain ⟨hw, hField, -⟩ := decodeOperand_spec (dstField iw) e1
  simp only [decodeSingleGroup] at h
  cases hCount : decodeCount (iw.extractLsb' 9 3) with
  | some op =>
    simp only [hCount] at h
    cases h
    exact ⟨hw, singleFormat_eq hOp (code_of_decodeCount hCount).symm rfl hField.symm, ext_decodeOperand ..⟩
  | none =>
    simp only [hCount] at h
    split_ifs at h with hSub hMisc
    · obtain ⟨op, hOp', rfl⟩ := Option.map_eq_some_iff.mp h
      exact ⟨rfl, singleFormat_eq hOp hSub hMisc (code_of_decodeMisc hOp').symm, rfl⟩
    · obtain ⟨op, hOp', rfl⟩ := Option.map_eq_some_iff.mp h
      exact ⟨hw, singleFormat_eq hOp hSub (code_of_decodeUnary hOp').symm hField.symm, ext_decodeOperand ..⟩

theorem decodeShape_some {iw e1 e2 : Word} {sh : Shape} (h : decodeShape iw e1 e2 = some sh) :
    sh.SpelledBy iw [e1, e2] := by
  simp only [decodeShape] at h
  cases hDual : decodeDual (iw.extractLsb' 12 4) with
  | some op =>
    simp only [hDual] at h
    cases h
    obtain ⟨hSrc, hSrcField, hSrcExt⟩ := decodeOperand_spec (srcField iw) e1
    obtain ⟨hDst, hDstField, hDstExt⟩ :=
      decodeOperand_spec (dstField iw) (if needsExt (srcField iw) then e2 else e1)
    refine ⟨Bool.and_eq_true_iff.mpr ⟨hSrc, hDst⟩,
      dualFormat_eq (code_of_decodeDual hDual).symm hSrcField.symm hDstField.symm, ?_⟩
    rw [Shape.exts, hSrcExt, hDstExt]
    cases needsExt (srcField iw) <;> cases needsExt (dstField iw) <;> rfl
  | none =>
    simp only [hDual] at h
    split_ifs at h with hCall hJump hSingle
    · exact decodeCallGroup_some e2 hCall h
    · exact decodeJumpGroup_some e2 hJump h
    · exact decodeSingleGroup_some e2 hSingle h

/-- The first words of a list, as the decoder takes them. -/
theorem take_getD (ws : List Word) {k : Nat} (h : k ≤ ws.length) (hk : k ≤ 2) :
    [ws.getD 0 0, ws.getD 1 0].take k = ws.take k := by
  match ws, k with
  | _, 0 => rfl
  | x :: _, 1 => rfl
  | x :: y :: _, 2 => rfl
  | [], k + 1 => simp at h
  | [x], k + 2 => simp at h
  | _, k + 3 => omega

theorem exts_length_le (sh : Shape) : sh.exts.length ≤ 2 := by
  have key : ∀ o : Operand, o.ext.length ≤ 1 := fun o => by cases o <;> simp [Operand.ext]
  cases sh with
  | dual op src dst =>
    have hSrc := key src
    have hDst := key dst
    simp only [Shape.exts, List.length_append]; omega
  | jumpLong _ o | call _ o | count _ _ o | unary _ o => exact (key o).trans (by decide)
  | jump | ret | int | misc => exact Nat.zero_le 2

/-- Settles O2: the shape that a word and its extension words decode to spells those words. -/
theorem encodeOfDecode : Obligations.EncodeOfDecode := by
  intro ws i rest h
  cases ws with
  | nil => cases h
  | cons iw ws =>
    simp only [decodeWords, decode] at h
    split_ifs at h with hLength
    cases hShape : decodeShape iw (ws.getD 0 0) (ws.getD 1 0) with
    | none => rw [hShape] at h; cases h
    | some sh =>
      rw [hShape] at h
      cases h
      obtain ⟨hw, hWord, hExts⟩ := decodeShape_some hShape
      have hCount := extCount_word hw
      rw [hWord] at hCount
      rw [take_getD ws (by omega) (exts_length_le sh)] at hExts
      rw [wf_eq_shape_wf, encode, Laws.instr_shape, hWord, hCount]
      exact ⟨hw, by rw [List.cons_append, ← List.take_append_drop sh.exts.length ws, ← hExts]; simp⟩

/-! ### Bytes -/

theorem wordsOfBytes_bytesOfWords (vs : List Word) (bs : List Byte) :
    wordsOfBytes (bytesOfWords vs ++ bs) = vs ++ wordsOfBytes bs := by
  induction vs with
  | nil => rfl
  | cons v vs ih =>
    simp only [bytesOfWords, List.cons_append, wordsOfBytes, ih, Machine.wordOfBytes_evenByte_oddByte]

theorem bytesOfWords_length (vs : List Word) : (bytesOfWords vs).length = 2 * vs.length := by
  induction vs with
  | nil => rfl
  | cons v vs ih => simp only [bytesOfWords, List.length_cons, ih]; omega

/-- Settles O3: the words of the bytes are the words of the instruction, and twice as many bytes are used up. -/
theorem decodeBytesOfEncodeBytes : Obligations.DecodeBytesOfEncodeBytes := by
  intro i bs h
  have hUsed : 2 * ((encode i ++ wordsOfBytes bs).length - (wordsOfBytes bs).length) =
      (bytesOfWords (encode i)).length := by
    rw [bytesOfWords_length, List.length_append]; omega
  rw [decodeBytes, encodeBytes, wordsOfBytes_bytesOfWords, decodeOfEncode i _ h, Except.map, hUsed, List.drop_left]

end Sys2Proof
end

section
/-! PROOFS. Reserved words (30_encoding.md R99): the masks of the table, read off the fields of a word, and the decoder
refuse the same words. -/

namespace Sys2Proof

theorem decodeCond_none_iff {c : BitVec 4} : decodeCond c = none ↔ c = 14 := by
  revert c; decide

theorem decodeMisc_none_iff {f : BitVec 6} : decodeMisc f = none ↔ 4 ≤ f := by
  revert f; decide

/-- Two words are equal when their four fields are. -/
theorem eq_iff_fields {x y : Word} :
    x = y ↔ x.extractLsb' 12 4 = y.extractLsb' 12 4 ∧ x.extractLsb' 8 4 = y.extractLsb' 8 4 ∧
      x.extractLsb' 6 2 = y.extractLsb' 6 2 ∧ dstField x = dstField y := by
  refine ⟨fun h => h ▸ ⟨rfl, rfl, rfl, rfl⟩, fun ⟨ha, hb, hc, hd⟩ => ?_⟩
  exact (condFormat_eq ha hb hc hd).symm.trans (condFormat_eq rfl rfl rfl rfl)

/-! ### The rows of the table by major opcode, over bits 11 to 8, 7 to 6 and 5 to 0 -/

/-- The reserved words of opcode 1010. -/
def callReserved (b : BitVec 4) (c : BitVec 2) : Prop :=
  c = 3 ∨ (c &&& 2 = 0 ∧ b ≠ 15) ∨ (b = 14 ∧ c = 2)

/-- The reserved words of opcode 1100. -/
def jumpReserved (b : BitVec 4) (c : BitVec 2) : Prop := b = 14 ∨ (c = 3 ∧ b ≠ 14)

/-- The reserved words of opcode 1101. -/
def singleReserved (b : BitVec 4) (c : BitVec 2) (d : BitVec 6) : Prop :=
  b &&& 14 = 12 ∨ (b = 14 ∧ c = 2) ∨ (b = 14 ∧ c = 3) ∨ (b = 15 ∧ c = 1) ∨ (b = 15 ∧ c = 2) ∨
    (b = 15 ∧ c = 3 ∧ 4 ≤ d)

/-- The last mask of the table compares the low six bits. -/
theorem lowBits_ge_four (iw : Word) : 4 ≤ (iw &&& 0x003F#16).toNat ↔ 4 ≤ dstField iw := by
  have h : (iw &&& 0x003F#16).toNat = iw.toNat % 64 := by
    rw [BitVec.toNat_and]; exact Nat.and_two_pow_sub_one_eq_mod iw.toNat 6
  rw [h, BitVec.le_def, dstField, BitVec.extractLsb'_toNat, Nat.shiftRight_zero]
  rfl

/-- The masks and matches of R99 pick out these fields. -/
theorem isReserved_iff (iw : Word) :
    Machine.isReserved iw = true ↔
      iw.extractLsb' 12 4 = 0xB ∨ iw.extractLsb' 12 4 = 0xE ∨ iw.extractLsb' 12 4 = 0xF ∨
      (iw.extractLsb' 12 4 = 0xA ∧ callReserved (iw.extractLsb' 8 4) (iw.extractLsb' 6 2)) ∨
      (iw.extractLsb' 12 4 = 0xC ∧ jumpReserved (iw.extractLsb' 8 4) (iw.extractLsb' 6 2)) ∨
      (iw.extractLsb' 12 4 = 0xD ∧ singleReserved (iw.extractLsb' 8 4) (iw.extractLsb' 6 2) (dstField iw)) := by
  have h4 : ∀ x : BitVec 4, x &&& 15#4 = x := by decide
  have h2 : ∀ x : BitVec 2, x &&& 3#2 = x := by decide
  simp only [Machine.isReserved, Bool.or_eq_true, Bool.and_eq_true, beq_iff_eq, bne_iff_ne, ne_eq, decide_eq_true_eq,
    lowBits_ge_four]
  simp only [eq_iff_fields, dstField, BitVec.extractLsb'_and]
  simp only [callReserved, jumpReserved, singleReserved]
  simp [h4, h2, and_or_left, or_assoc, and_assoc]

/-! ### The decoder refuses the same fields -/

theorem decodeCallGroup_none_iff (iw e : Word) :
    decodeCallGroup iw e = none ↔ callReserved (iw.extractLsb' 8 4) (iw.extractLsb' 6 2) := by
  have key : ∀ (b : BitVec 4) (c : BitVec 2),
      (if c = 2 then b = 14 else ¬(c.getLsbD 1 = false ∧ b = 15)) ↔ c = 3 ∨ (c &&& 2 = 0 ∧ b ≠ 15) ∨ (b = 14 ∧ c = 2) := by
    decide
  simp only [decodeCallGroup, callReserved, (bit7_eq iw).1, ← key]
  split_ifs <;> simp_all [decodeCond_none_iff]

theorem decodeJumpGroup_none_iff (iw e : Word) :
    decodeJumpGroup iw e = none ↔ jumpReserved (iw.extractLsb' 8 4) (iw.extractLsb' 6 2) := by
  have key : ∀ c : BitVec 2, c = 3 ↔ c.getLsbD 1 ≠ false ∧ c ≠ 2 := by decide
  simp only [decodeJumpGroup, jumpReserved, (bit7_eq iw).1, key, ne_eq, ← decodeCond_none_iff]
  cases decodeCond (iw.extractLsb' 8 4) with
  | none => simp
  | some cc => split_ifs <;> simp_all

/-- The sub-opcode and the parameter of format S are bits 11 to 9 and 8 to 6. -/
theorem singleFields_eq (iw : Word) :
    iw.extractLsb' 9 3 = (iw.extractLsb' 8 4).extractLsb' 1 3 ∧
      iw.extractLsb' 6 3 = (iw.extractLsb' 8 4).extractLsb' 0 1 ++ iw.extractLsb' 6 2 := by
  have inner : ∀ j l, j + l ≤ 4 → (iw.extractLsb' 8 4).extractLsb' j l = iw.extractLsb' (8 + j) l := fun j l h => by
    ext k hk
    simp [show j + k < 4 by omega, Nat.add_assoc]
  rw [inner 1 3 (by decide), inner 0 1 (by decide)]
  exact ⟨rfl, (extract_append iw 8 6 1 2 rfl).symm⟩

theorem decodeSingleGroup_none_iff (iw e : Word) :
    decodeSingleGroup iw e = none ↔
      singleReserved (iw.extractLsb' 8 4) (iw.extractLsb' 6 2) (dstField iw) := by
  have key : ∀ (b : BitVec 4) (c : BitVec 2) (m : Bool),
      (decodeCount (b.extractLsb' 1 3) = none ∧ (b.extractLsb' 1 3 = 7 →
        if b.extractLsb' 0 1 ++ c = 7 then m = true else decodeUnary (b.extractLsb' 0 1 ++ c) = none)) ↔
      b &&& 14 = 12 ∨ (b = 14 ∧ c = 2) ∨ (b = 14 ∧ c = 3) ∨ (b = 15 ∧ c = 1) ∨ (b = 15 ∧ c = 2) ∨
        (b = 15 ∧ c = 3 ∧ m = true) := by decide
  have hm : 4 ≤ dstField iw ↔ decide (4 ≤ dstField iw) = true := decide_eq_true_iff.symm
  rw [singleReserved, hm, ← key, decide_eq_true_iff, ← decodeMisc_none_iff, ← (singleFields_eq iw).1, ← (singleFields_eq iw).2]
  simp only [decodeSingleGroup]
  cases decodeCount (iw.extractLsb' 9 3) with
  | some op => simp
  | none => split_ifs <;> simp_all

/-- The decoder refuses a word exactly where the table of R99 takes it, whatever follows. -/
theorem decodeShape_none_iff (iw e1 e2 : Word) : decodeShape iw e1 e2 = none ↔ Machine.isReserved iw = true := by
  have key : ∀ a : BitVec 4, decodeDual a = none ↔ a = 0xB ∨ a = 0xE ∨ a = 0xF ∨ a = 0xA ∨ a = 0xC ∨ a = 0xD := by
    decide
  rw [isReserved_iff, ← decodeCallGroup_none_iff iw e1, ← decodeJumpGroup_none_iff iw e1,
    ← decodeSingleGroup_none_iff iw e1]
  have hKey := key (iw.extractLsb' 12 4)
  simp only [decodeShape]
  cases hDual : decodeDual (iw.extractLsb' 12 4) with
  | some k =>
    rw [hDual] at hKey
    simp only [reduceCtorEq, false_iff, not_or] at hKey
    simp only [hKey, false_and, or_self, reduceCtorEq]
  | none =>
    rcases hKey.mp hDual with h | h | h | h | h | h <;> simp [h]

end Sys2Proof

namespace Sys2Proof.Machine

theorem decode_reserved_iff (iw e1 e2 : Word) : decode iw e1 e2 = .error (.reserved iw) ↔ isReserved iw = true := by
  rw [← decodeShape_none_iff iw e1 e2, decode]
  cases decodeShape iw e1 e2 <;> simp

theorem decode_ok_of_not_reserved {iw : Word} (h : isReserved iw = false) (e1 e2 : Word) :
    ∃ i, decode iw e1 e2 = .ok i := by
  cases hShape : decodeShape iw e1 e2 with
  | none => rw [(decodeShape_none_iff iw e1 e2).mp hShape] at h; cases h
  | some sh => exact ⟨sh.instr, by rw [decode, hShape]⟩

/-- A reserved word has no extension words (R92). -/
theorem extCount_reserved {iw : Word} (h : isReserved iw = true) : extCount iw = 0 := by
  rw [extCount, (decodeShape_none_iff iw 0 0).mpr h]

end Sys2Proof.Machine
end

section
/-! PROOFS. The arithmetic of the model is the arithmetic that the rules print (41_dual_operand.md R151,
43_single_operand.md R193 to R201). -/

namespace Sys2Proof.Machine

/-! ### The sign bit -/

/-- Bit 15 of a word says that its unsigned value is in the upper half. -/
theorem bit15_eq (x : Word) : x.getLsbD 15 = decide (32768 ≤ x.toNat) := by
  rw [show (15 : Nat) = 16 - 1 from rfl, ← BitVec.msb_eq_getLsbD_last, BitVec.msb_eq_decide]

theorem bit15_xor (x y : Word) : (x ^^^ y).getLsbD 15 = (x.getLsbD 15 != y.getLsbD 15) := by
  rw [BitVec.getLsbD_xor]

theorem toInt_eq (x : Word) : x.toInt = if 32768 ≤ x.toNat then (x.toNat : Int) - 65536 else x.toNat := by
  rw [BitVec.toInt_eq_toNat_cond]
  split <;> split <;> omega

theorem overflows_eq_true_iff (t : Int) : overflows t = true ↔ t < -32768 ∨ 32767 < t := by simp [overflows]

/-! ### Addition and subtraction -/

theorem add_toNat (v d : Word) (cin : Bool) :
    (d + v + BitVec.ofNat 16 cin.toNat).toNat = (d.toNat + v.toNat + cin.toNat) % 65536 := by
  have := cin.toNat_lt
  simp [BitVec.toNat_add]

theorem sub_toNat (v d : Word) (cin : Bool) :
    (d - v - BitVec.ofNat 16 cin.toNat).toNat = (d.toNat + (65536 - v.toNat) + (65536 - cin.toNat)) % 65536 := by
  have := cin.toNat_lt
  have := v.isLt
  simp [BitVec.toNat_sub]
  omega

/-- The overflow bit of an addition: the operands have one sign and the result the other (R151, D5). -/
theorem addOverflow_eq (v d : Word) (cin : Bool) :
    (~~~(d ^^^ v) &&& (d ^^^ (d + v + BitVec.ofNat 16 cin.toNat))).getLsbD 15 =
      overflows (d.toInt + v.toInt + cin.toNat) := by
  have hc := cin.toNat_lt
  have hd := d.isLt
  have hv := v.isLt
  have hr := add_toNat v d cin
  rw [Bool.eq_iff_iff, overflows_eq_true_iff, BitVec.getLsbD_and, BitVec.getLsbD_not, bit15_xor, bit15_xor, bit15_eq,
    bit15_eq, bit15_eq, hr, toInt_eq, toInt_eq]
  simp
  split_ifs <;> omega

/-- The overflow bit of a subtraction: the operands differ in sign and the result has not the minuend's. -/
theorem subOverflow_eq (v d : Word) (cin : Bool) :
    ((d ^^^ v) &&& (d ^^^ (d - v - BitVec.ofNat 16 cin.toNat))).getLsbD 15 =
      overflows (d.toInt - v.toInt - cin.toNat) := by
  have hc := cin.toNat_lt
  have hd := d.isLt
  have hv := v.isLt
  have hr := sub_toNat v d cin
  rw [Bool.eq_iff_iff, overflows_eq_true_iff, BitVec.getLsbD_and, bit15_xor, bit15_xor, bit15_eq, bit15_eq, bit15_eq,
    hr, toInt_eq, toInt_eq]
  simp
  split_ifs <;> omega

theorem aluAdd_eq_addRule (v : Word) (cin : Bool) (d : Word) (f : Flags) : aluAdd v cin d f = addRule v cin d f := by
  have hr : BitVec.ofNat 16 (d.toNat + v.toNat + cin.toNat) = d + v + BitVec.ofNat 16 cin.toNat :=
    BitVec.eq_of_toNat_eq (by rw [add_toNat]; simp)
  simp only [aluAdd, addRule, setZS, hr, addOverflow_eq, BitVec.msb_eq_getLsbD_last, Nat.reducePow]

theorem aluSub_eq_subRule (v : Word) (cin : Bool) (d : Word) (f : Flags) : aluSub v cin d f = subRule v cin d f := by
  have hr : BitVec.ofInt 16 ((d.toNat : Int) - v.toNat - cin.toNat) = d - v - BitVec.ofNat 16 cin.toNat :=
    BitVec.eq_of_toNat_eq (by
      have hc := cin.toNat_lt
      have hv := v.isLt
      rw [sub_toNat, BitVec.toNat_ofInt]
      omega)
  have hb : decide ((d.toNat : Int) - v.toNat - cin.toNat < 0) = decide (d.toNat < v.toNat + cin.toNat) :=
    decide_eq_decide.mpr (by omega)
  simp only [aluSub, subRule, setZS, hr, hb, subOverflow_eq, BitVec.msb_eq_getLsbD_last]

/-- Settles O24: the two forms of the overflow bit agree, and the integer form says what it should. -/
theorem arithmeticFlags : Obligations.ArithmeticFlags := by
  intro v d cin f
  refine ⟨aluAdd_eq_addRule v cin d f, aluSub_eq_subRule v cin d f, ?_, ?_⟩
  · rw [← overflows_eq_true_iff, ← addOverflow_eq]; rfl
  · rw [← overflows_eq_true_iff, ← subOverflow_eq]; rfl

/-! ### Shifts and rotations by one to eight places -/

theorem aluShifted_eq_shiftRule (r : Word) (out : Bool) (f : Flags) : aluShifted r out f = shiftRule r out f := by
  simp only [aluShifted, shiftRule, setZS, BitVec.msb_eq_getLsbD_last]

/-- An arithmetic shift right is floor division by a power of two (R193). -/
theorem sshiftRight_eq_div (d : Word) (k : Nat) : d.sshiftRight k = BitVec.ofInt 16 (d.toInt / 2 ^ k) := by
  rw [BitVec.sshiftRight, Int.shiftRight_eq_div_pow]
  simp

/-- A shift left is multiplication by a power of two (R194). -/
theorem shiftLeft_eq_mul (d : Word) (k : Nat) : d <<< k = BitVec.ofNat 16 (d.toNat * 2 ^ k) :=
  BitVec.eq_of_toNat_eq (by rw [BitVec.toNat_shiftLeft, Nat.shiftLeft_eq, BitVec.toNat_ofNat])

/-- The result of NEG, and its flags by the subtraction from 0, are those R200 prints. -/
theorem aluNeg_eq (d : Word) (f : Flags) :
    aluNeg d f = (-d, { z := decide (d = 0), c := decide (d ≠ 0), o := decide (d = 0x8000), s := (-d).getLsbD 15,
                        i := f.i }) := by
  have hd := d.isLt
  have hr : 0 - d - BitVec.ofNat 16 false.toNat = -d := by simp
  have hz : -d = 0 ↔ d = 0 := by simp
  have hc : (0 : Word).toNat < d.toNat + false.toNat ↔ d ≠ 0 := by
    rw [Ne, ← BitVec.toNat_inj]; simp; omega
  have ho : ((0 ^^^ d) &&& (0 ^^^ -d)).getLsbD 15 = decide (d = 0x8000) := by
    rw [BitVec.getLsbD_and, bit15_xor, bit15_xor, bit15_eq, bit15_eq, bit15_eq, BitVec.toNat_neg, Bool.eq_iff_iff,
      decide_eq_true_iff, ← BitVec.toNat_inj]
    simp
    omega
  simp only [aluNeg, aluSub_eq_subRule, subRule, hr, hz, hc, ho]

end Sys2Proof.Machine
end

section
/-! PROOFS. The meaning of an instruction by its format (30_encoding.md R83): 84 arms of the dispatch are nine shapes, and
the lists of the statements are these shapes with their rules. -/

namespace Sys2Proof.Machine

/-! ### The operations of the formats -/

/-- The operation of a dual operand instruction on the source value; MOV leaves the flags. -/
def dualAlu : DualOp → Word → Alu
  | .mov, v => fun _ f => (v, f)
  | .add, v => aluAdd v false
  | .addc, v => fun d f => aluAdd v f.c d f
  | .sub, v => aluSub v false
  | .subb, v => fun d f => aluSub v f.c d f
  | .cmp, v => aluSub v false
  | .and, v => fun d => aluLogic (d &&& v)
  | .test, v => fun d => aluLogic (d &&& v)
  | .or, v => fun d => aluLogic (d ||| v)
  | .xor, v => fun d => aluLogic (d ^^^ v)

/-- What a dual operand instruction does with its destination once the source is read. -/
inductive DualRole where
  | write
  | modify
  | compare
deriving DecidableEq

/-- The ten operations have three roles (R150). -/
def dualRole : DualOp → DualRole
  | .mov => .write
  | .cmp | .test => .compare
  | .add | .addc | .sub | .subb | .and | .or | .xor => .modify

/-- The second half of a dual operand instruction: `v` is the source value. -/
def dualFinish (op : DualOp) (dst : Operand) (v : Word) (s : State) : Out State :=
  match dualRole op with
  | .write => writeOperand dst v s
  | .modify => modifyOperand dst (dualAlu op v) s
  | .compare => compareOperand dst (dualAlu op v) s

/-- The operation of a single operand instruction with the count or constant `k`. -/
def countAlu : CountOp → Nat → Alu
  | .shr => aluShr
  | .shl => aluShl
  | .ror => aluRor
  | .rol => aluRol
  | .addi => aluAddi
  | .subi => aluSubi

/-- The operation of NOT, NEG and CBW. -/
def unaryAlu : UnaryOp → Alu
  | .not => aluNot
  | .neg => aluNeg
  | .cbw => aluCbw

/-- The state after a miscellaneous instruction. -/
def miscState : MiscOp → State → State
  | .sti, s => if s.flags.i then s else { s.withFlags { s.flags with i := true } with stiShadow := true }
  | .cli, s => s.withFlags { s.flags with i := false }
  | .stc, s => s.withFlags { s.flags with c := true }
  | .clc, s => s.withFlags { s.flags with c := false }

/-- The meaning of a shape. -/
def execShape : Shape → State → Out State
  | .dual op src dst, s => withSource src dst s (dualFinish op dst)
  | .jump cc off, s => jumpRel cc off s
  | .jumpLong cc t, s => jumpAbs cc t s
  | .ret cc, s => returnIf cc s
  | .call cc t, s => callIf cc t s
  | .int v, s => enterHandler v false s
  | .count op n dst, s => modifyOperand dst (countAlu op (countOf n)) s
  | .unary op dst, s => modifyOperand dst (unaryAlu op) s
  | .misc op, s => .next (miscState op s)

/-- Every arm of the dispatch is the meaning of the instruction's shape. -/
theorem exec_eq_execShape (i : Instr) (s : State) : exec i s = execShape i.shape s := by
  cases i <;> rfl

theorem exec_instr (sh : Shape) (s : State) : exec sh.instr s = execShape sh s := by
  rw [exec_eq_execShape, Laws.instr_shape]

/-! ### The instructions of the statements -/

theorem mem_dualInstrs {src dst : Operand} {i : Instr} (h : i ∈ dualInstrs src dst) :
    ∃ op, i = (Shape.dual op src dst).instr := by
  have hMap : dualInstrs src dst = [DualOp.mov, .add, .addc, .sub, .subb, .cmp, .and, .test, .or, .xor].map
    fun op => (Shape.dual op src dst).instr := rfl
  obtain ⟨op, -, rfl⟩ := List.mem_map.mp (hMap ▸ h)
  exact ⟨op, rfl⟩

theorem role_of_mem_modify {op : DualOp} (h : op ∈ [DualOp.add, .addc, .sub, .subb, .and, .or, .xor]) :
    dualRole op = .modify := by
  have key : ∀ op ∈ [DualOp.add, .addc, .sub, .subb, .and, .or, .xor], dualRole op = .modify := by decide
  exact key op h

theorem mem_dualModifies {src dst : Operand} {i : Instr} (h : i ∈ dualModifies src dst) :
    ∃ op, dualRole op = .modify ∧ i = (Shape.dual op src dst).instr := by
  have hMap : dualModifies src dst = [DualOp.add, .addc, .sub, .subb, .and, .or, .xor].map
    fun op => (Shape.dual op src dst).instr := rfl
  obtain ⟨op, hOp, rfl⟩ := List.mem_map.mp (hMap ▸ h)
  exact ⟨op, role_of_mem_modify hOp, rfl⟩

theorem mem_singleInstrs {n : BitVec 3} {dst : Operand} {i : Instr} (h : i ∈ singleInstrs n dst) :
    ∃ g : Alu, ∀ s, exec i s = modifyOperand dst g s := by
  have hMap : singleInstrs n dst = ([CountOp.shr, .shl, .ror, .rol, .addi, .subi].map
    fun op => (Shape.count op n dst).instr) ++ [UnaryOp.not, .neg, .cbw].map fun op => (Shape.unary op dst).instr := rfl
  rw [hMap, List.mem_append, List.mem_map, List.mem_map] at h
  rcases h with ⟨op, -, rfl⟩ | ⟨op, -, rfl⟩
  · exact ⟨countAlu op (countOf n), exec_instr _⟩
  · exact ⟨unaryAlu op, exec_instr _⟩

/-! ### The rules of the statements are the model's operations -/

theorem addRule_eq (v : Word) (cin : Bool) : addRule v cin = aluAdd v cin :=
  funext fun d => funext fun f => (aluAdd_eq_addRule v cin d f).symm

theorem subRule_eq (v : Word) (cin : Bool) : subRule v cin = aluSub v cin :=
  funext fun d => funext fun f => (aluSub_eq_subRule v cin d f).symm

theorem logicRule_eq (r : Word) : logicRule r = aluLogic r :=
  funext fun f => (aluLogic_eq_logicRule r f).symm

theorem shiftRule_eq (r : Word) (out : Bool) : shiftRule r out = aluShifted r out :=
  funext fun f => (aluShifted_eq_shiftRule r out f).symm

theorem rotateRight_eq (d : Word) {k : Nat} (h : k < 16) : d.rotateRight k = (d >>> k) ||| (d <<< (16 - k)) := by
  rw [BitVec.rotateRight_def, Nat.mod_eq_of_lt h]

theorem rotateLeft_eq (d : Word) {k : Nat} (h : k < 16) : d.rotateLeft k = (d <<< k) ||| (d >>> (16 - k)) := by
  rw [BitVec.rotateLeft_def, Nat.mod_eq_of_lt h]

theorem dualModifyRules_eq (src dst : Operand) (v : Word) :
    dualModifyRules src dst v =
      [DualOp.add, .addc, .sub, .subb, .and, .or, .xor].map fun op => ((Shape.dual op src dst).instr, dualAlu op v) := by
  simp only [dualModifyRules, addRule_eq, subRule_eq, logicRule_eq]
  rfl

theorem dualCompareRules_eq (src dst : Operand) (v : Word) :
    dualCompareRules src dst v =
      [DualOp.cmp, .test].map fun op => ((Shape.dual op src dst).instr, dualAlu op v) := by
  simp only [dualCompareRules, subRule_eq, logicRule_eq]
  rfl

theorem countRules_eq (n : BitVec 3) (dst : Operand) :
    countRules n dst = [CountOp.shr, .shl, .ror, .rol, .addi, .subi].map
      fun op => ((Shape.count op n dst).instr, countAlu op (countOf n)) := by
  have hk : n.toNat + 1 < 16 := by have := n.isLt; omega
  simp only [countRules, shiftRule_eq, logicRule_eq, ← sshiftRight_eq_div, ← shiftLeft_eq_mul, rotateRight_eq _ hk,
    rotateLeft_eq _ hk]
  rfl

theorem unaryRules_eq (dst : Operand) :
    unaryRules dst = [UnaryOp.not, .neg, .cbw].map fun op => ((Shape.unary op dst).instr, unaryAlu op) := by
  simp only [unaryRules, logicRule_eq, ← aluNeg_eq]
  rfl

theorem mem_dualModifyRules {src dst : Operand} {v : Word} {p : Instr × Alu} (h : p ∈ dualModifyRules src dst v) :
    ∃ op, dualRole op = .modify ∧ p = ((Shape.dual op src dst).instr, dualAlu op v) := by
  obtain ⟨op, hOp, rfl⟩ := List.mem_map.mp (dualModifyRules_eq src dst v ▸ h)
  exact ⟨op, role_of_mem_modify hOp, rfl⟩

theorem mem_dualCompareRules {src dst : Operand} {v : Word} {p : Instr × Alu} (h : p ∈ dualCompareRules src dst v) :
    ∃ op, dualRole op = .compare ∧ p = ((Shape.dual op src dst).instr, dualAlu op v) := by
  obtain ⟨op, hOp, rfl⟩ := List.mem_map.mp (dualCompareRules_eq src dst v ▸ h)
  have hRole : ∀ op ∈ [DualOp.cmp, .test], dualRole op = .compare := by decide
  exact ⟨op, hRole op hOp, rfl⟩

theorem exec_countRules {n : BitVec 3} {dst : Operand} {p : Instr × Alu} (h : p ∈ countRules n dst) (s : State) :
    exec p.1 s = modifyOperand dst p.2 s := by
  obtain ⟨op, -, rfl⟩ := List.mem_map.mp (countRules_eq n dst ▸ h)
  exact exec_instr _ s

theorem exec_unaryRules {dst : Operand} {p : Instr × Alu} (h : p ∈ unaryRules dst) (s : State) :
    exec p.1 s = modifyOperand dst p.2 s := by
  obtain ⟨op, -, rfl⟩ := List.mem_map.mp (unaryRules_eq dst ▸ h)
  exact exec_instr _ s

theorem exec_singleRules {n : BitVec 3} {dst : Operand} {p : Instr × Alu} (h : p ∈ countRules n dst ++ unaryRules dst)
    (s : State) : exec p.1 s = modifyOperand dst p.2 s :=
  (List.mem_append.mp h).elim (exec_countRules · s) (exec_unaryRules · s)

/-! ### Conditions -/

/-- The truth column of PG Table 2-1 as the statements' lists have it (R171). -/
def condTruth (f : Flags) : Cond → Prop
  | .z => f.z = true
  | .nz => f.z = false
  | .c => f.c = true
  | .nc => f.c = false
  | .s => f.s = true
  | .ns => f.s = false
  | .o => f.o = true
  | .no => f.o = false
  | .a => f.z = false ∧ f.c = false
  | .be => f.z = true ∨ f.c = true
  | .g => f.o = f.s ∧ f.z = false
  | .ge => f.o = f.s
  | .l => f.o ≠ f.s
  | .le => f.o ≠ f.s ∨ f.z = true
  | .always => True

theorem condTruth_iff (f : Flags) (cc : Cond) : condTruth f cc ↔ condHolds f cc = true := by
  cases cc <;> simp [condTruth, condHolds]

/-- The fifteen conditions in the order of the table. -/
def conds : List Cond := [.z, .nz, .c, .nc, .s, .ns, .o, .no, .a, .be, .g, .ge, .l, .le, .always]

theorem mem_conds_map {sh : Cond → Shape} {f : Flags} {p : Instr × Prop}
    (h : p ∈ conds.map fun cc => ((sh cc).instr, condTruth f cc)) :
    ∃ cc, p.1 = (sh cc).instr ∧ (p.2 ↔ condHolds f cc = true) := by
  obtain ⟨cc, -, rfl⟩ := List.mem_map.mp h
  exact ⟨cc, rfl, condTruth_iff f cc⟩

theorem mem_relJumps {off : BitVec 7} {f : Flags} {p : Instr × Prop} (h : p ∈ relJumps off f) :
    ∃ cc, p.1 = (Shape.jump cc off).instr ∧ (p.2 ↔ condHolds f cc = true) :=
  mem_conds_map (sh := fun cc => .jump cc off) h

theorem mem_absJumps {t : Operand} {f : Flags} {p : Instr × Prop} (h : p ∈ absJumps t f) :
    ∃ cc, p.1 = (Shape.jumpLong cc t).instr ∧ (p.2 ↔ condHolds f cc = true) :=
  mem_conds_map (sh := fun cc => .jumpLong cc t) h

theorem mem_returns {f : Flags} {p : Instr × Prop} (h : p ∈ returns f) :
    ∃ cc, p.1 = (Shape.ret cc).instr ∧ (p.2 ↔ condHolds f cc = true) :=
  mem_conds_map (sh := fun cc => .ret cc) h

theorem mem_calls {t : Operand} {f : Flags} {p : Instr × Prop} (h : p ∈ calls t f) :
    ∃ cc, p.1 = (Shape.call cc t).instr ∧ (p.2 ↔ condHolds f cc = true) :=
  mem_conds_map (sh := fun cc => .call cc t) h

end Sys2Proof.Machine
end

section
/-! PROOFS. Dual and single operand instructions that complete (41_dual_operand.md, 43_single_operand.md): in every pair of
modes, on registers, and on a byte of RAM. -/

namespace Sys2Proof.Machine

/-! ### Every pair of modes -/

/-- A dual operand instruction answers what its second half answers after its source is read (R133, R153). -/
theorem exec_dual_next_iff {op : DualOp} {src dst : Operand} {s t : State} :
    exec (Shape.dual op src dst).instr s = .next t ↔
      isImmediate dst = false ∧ readable src s = true ∧
        dualFinish op dst (readValue src s) (afterRead src s) = .next t := by
  rw [exec_instr, execShape, withSource_next_iff]

theorem dualFinish_modify {op : DualOp} (h : dualRole op = .modify) (dst : Operand) (v : Word) (s : State) :
    dualFinish op dst v s = modifyOperand dst (dualAlu op v) s := by
  simp only [dualFinish, h]

theorem dualFinish_compare {op : DualOp} (h : dualRole op = .compare) (dst : Operand) (v : Word) (s : State) :
    dualFinish op dst v s = compareOperand dst (dualAlu op v) s := by
  simp only [dualFinish, h]

theorem not_immediate_of_writable {op : Operand} {v : Word} {s : State} (h : writable op v s = true) :
    isImmediate op = false := by
  cases op with
  | imm => cases h
  | _ => rfl

theorem not_immediate_of_modifiable {op : Operand} {g : Alu} {s : State} (h : modifiable op g s = true) :
    isImmediate op = false := by
  cases op with
  | imm => cases h
  | _ => rfl

/-- Settles O20: reading the source and writing the destination are the whole of MOV. -/
theorem movCompletes : Obligations.MovCompletes := fun _ _ _ hSrc hDst =>
  exec_mov_next_iff.mpr ⟨not_immediate_of_writable hDst, hSrc, hDst, rfl⟩

/-- A dual operand instruction that changes its destination completes where the destination can be changed. -/
theorem exec_dual_modify {op : DualOp} {src dst : Operand} {s : State} (hRole : dualRole op = .modify)
    (hSrc : readable src s = true) (hDst : modifiable dst (dualAlu op (readValue src s)) (afterRead src s) = true) :
    exec (Shape.dual op src dst).instr s =
      .next (afterModify dst (dualAlu op (readValue src s)) (afterRead src s)) :=
  exec_dual_next_iff.mpr ⟨not_immediate_of_modifiable hDst, hSrc,
    (dualFinish_modify hRole ..).trans (modifyOperand_next_iff.mpr ⟨hDst, rfl⟩)⟩

/-- Settles O21: the rules of the seven are the model's operations, and the destination is changed after the source is
read. -/
theorem dualModifyCompletes : Obligations.DualModifyCompletes := by
  intro src dst s hSrc p hp hDst
  obtain ⟨op, hRole, rfl⟩ := mem_dualModifyRules hp
  exact exec_dual_modify hRole hSrc hDst

/-- Settles O22: a comparison reads both operands and keeps the flags of its operation. -/
theorem dualCompareCompletes : Obligations.DualCompareCompletes := by
  intro src dst s hImm hSrc hDst p hp
  obtain ⟨op, hRole, rfl⟩ := mem_dualCompareRules hp
  refine exec_dual_next_iff.mpr ⟨hImm, hSrc, (dualFinish_compare hRole ..).trans ?_⟩
  exact compareOperand_next_iff.mpr ⟨hDst, by simp only [afterRead_flags]⟩

/-- Settles O31: each rule of the six is the model's operation for the count. -/
theorem countCompletes : Obligations.CountCompletes := fun _ _ s _ hp h =>
  (exec_countRules hp s).trans (modifyOperand_next_iff.mpr ⟨h, rfl⟩)

/-- Settles O32: each rule of the three is the model's operation. -/
theorem unaryCompletes : Obligations.UnaryCompletes := fun _ s _ hp h =>
  (exec_unaryRules hp s).trans (modifyOperand_next_iff.mpr ⟨h, rfl⟩)

/-! ### Registers -/

/-- Changing a register changes its word and the flags, and nothing else of memory (R22, R132). -/
theorem modifyOperand_reg {s : State} (hwf : s.mem.wf) (hRegs : regsOk s = true) (r : RegNum) (g : Alu) :
    ∃ t, modifyOperand (.reg r) g s = .next t ∧ t.reg r = (g (s.reg r) s.flags).1 ∧
      (∀ j, j ≠ r → t.reg j = s.reg j) ∧ t.flags = (g (s.reg r) s.flags).2 ∧ SameBytesOutside (regBytes s r) s t :=
  ⟨_, modifyOperand_next_iff.mpr ⟨hRegs, rfl⟩, State.reg_setReg_same hwf r _,
    fun j hj => State.reg_setReg_other s r j _ hj, rfl, setReg_sameBytes s r _⟩

/-- Settles O23: the source register is read without a side effect, then the destination register is written or
changed. -/
theorem registerToRegister : Obligations.RegisterToRegister := by
  intro m n s hwf hRegs
  refine ⟨⟨_, exec_mov_next_iff.mpr ⟨rfl, hRegs, hRegs, rfl⟩, State.reg_setReg_same hwf n _,
    fun j hj => State.reg_setReg_other s n j _ hj, rfl, setReg_sameBytes s n _⟩, fun p hp => ?_⟩
  obtain ⟨op, hRole, rfl⟩ := mem_dualModifyRules hp
  obtain ⟨t, hExec, hFrame⟩ := modifyOperand_reg hwf hRegs n (dualAlu op (s.reg m))
  exact ⟨t, exec_dual_next_iff.mpr ⟨rfl, hRegs, (dualFinish_modify hRole ..).trans hExec⟩, hFrame⟩

/-- Settles O33: each of the nine changes its register by its rule. -/
theorem singleOnRegister : Obligations.SingleOnRegister := by
  intro n r s hwf hRegs p hp
  rw [exec_singleRules hp]
  exact modifyOperand_reg hwf hRegs r p.2

/-! ### A byte of RAM -/

theorem modifyOk_byte_ram {m : MemMap} {a : Word} (h : memClass m a = .ram) : modifyOk m a .byte = true := by
  simp [modifyOk, storeOk, loadOk, h]

/-- The operation is applied to the zero-extended byte, and the low byte of its result is stored (R124, R192; D16). -/
theorem modifiedAt_byte_ram {a : Word} {s : State} (h : memClass s.memMap a = .ram) (g : Alu) :
    modifiedAt a .byte g s =
      (s.setByte a ((g ((s.byteAt a).setWidth 16) s.flags).1.extractLsb' 0 8)).withFlags
        (g ((s.byteAt a).setWidth 16) s.flags).2 := by
  rw [modifiedAt, loadValue_byte (.inl h), afterLoad_memory (by simp [h]) (by simp [h]), storeState_byte h]

/-- Settles O34: the byte is changed in place, by the rule on the 16-bit value. -/
theorem singleOnByte : Obligations.SingleOnByte := by
  intro n a s hwf hRam p hp
  rw [exec_singleRules hp]
  refine ⟨_, modifyOperand_next_iff.mpr ⟨modifyOk_byte_ram hRam, modifiedAt_byte_ram hRam p.2⟩, ?_, rfl, ?_⟩
  · exact State.byteAt_setByte_same hwf a _
  · exact fun b hb => State.byteAt_setByte_other s a b _ (by simpa using hb)

/-! ### Comparison -/

/-- After a subtraction without carry-in, Z says equal, C says below as unsigned numbers, and O differing from S says
below as signed numbers (R151, R171). -/
theorem subRule_compares (v d : Word) (f : Flags) :
    ((subRule v false d f).2.z = true ↔ d = v) ∧ ((subRule v false d f).2.c = true ↔ d.toNat < v.toNat) ∧
      ((subRule v false d f).2.o ≠ (subRule v false d f).2.s ↔ d.toInt < v.toInt) := by
  have hd := d.isLt
  have hv := v.isLt
  have hr := sub_toNat v d false
  have hz : d - v - BitVec.ofNat 16 false.toNat = 0 ↔ d = v := by
    rw [show BitVec.ofNat 16 false.toNat = 0#16 from rfl, BitVec.sub_zero]; exact sub_eq_zero
  refine ⟨by simp only [subRule, hz, decide_eq_true_iff], by simp [subRule], ?_⟩
  simp only [subRule]
  rw [subOverflow_eq, bit15_eq, hr, Ne, Bool.eq_iff_iff, overflows_eq_true_iff, decide_eq_true_iff, toInt_eq, toInt_eq]
  simp
  split_ifs <;> omega

/-- Where Z, C and O against S are the three comparisons of `d` with `v`, every condition of the table is the comparison it
is named for. -/
theorem condHolds_of_compares {f : Flags} {d v : Word} (hz : f.z = true ↔ d = v) (hc : f.c = true ↔ d.toNat < v.toNat)
    (hl : f.o ≠ f.s ↔ d.toInt < v.toInt) :
    (condHolds f .z = true ↔ d = v) ∧ (condHolds f .nz = true ↔ d ≠ v) ∧
      (condHolds f .c = true ↔ d.toNat < v.toNat) ∧ (condHolds f .nc = true ↔ v.toNat ≤ d.toNat) ∧
      (condHolds f .a = true ↔ v.toNat < d.toNat) ∧ (condHolds f .be = true ↔ d.toNat ≤ v.toNat) ∧
      (condHolds f .l = true ↔ d.toInt < v.toInt) ∧ (condHolds f .ge = true ↔ v.toInt ≤ d.toInt) ∧
      (condHolds f .g = true ↔ v.toInt < d.toInt) ∧ (condHolds f .le = true ↔ d.toInt ≤ v.toInt) := by
  have hNat : d = v ↔ d.toNat = v.toNat := BitVec.toNat_inj.symm
  have hInt : d = v ↔ d.toInt = v.toInt := BitVec.toInt_inj.symm
  have hz' : f.z = false ↔ d ≠ v := by rw [← Bool.not_eq_true, hz]
  have hc' : f.c = false ↔ ¬d.toNat < v.toNat := by rw [← Bool.not_eq_true, hc]
  have hl' : condHolds f .l = true ↔ d.toInt < v.toInt := by rw [condHolds, bne_iff_ne, hl]
  have hge : f.o = f.s ↔ ¬d.toInt < v.toInt := by rw [← hl, not_not]
  refine ⟨hz, ?_, hc, ?_, ?_, ?_, hl', ?_, ?_, ?_⟩
  · rw [condHolds, Bool.not_eq_true', hz']
  · rw [condHolds, Bool.not_eq_true', hc', not_lt]
  · rw [condHolds, Bool.and_eq_true, Bool.not_eq_true', Bool.not_eq_true', hz', hc', Ne, hNat]; omega
  · rw [condHolds, Bool.or_eq_true, hz, hc, hNat]; omega
  · rw [condHolds, beq_iff_eq, hge, not_lt]
  · rw [condHolds, Bool.and_eq_true, beq_iff_eq, Bool.not_eq_true', hge, hz', Ne, hInt]; omega
  · rw [condHolds, Bool.or_eq_true, bne_iff_ne, hl, hz, hInt]; omega

/-- Settles O26: a comparison leaves the flags of the subtraction, and these are the three comparisons. -/
theorem compareConditions : Obligations.CompareConditions := by
  intro m n s hRegs
  have hCmp : exec (.cmp (.reg m) (.reg n)) s = .next (s.withFlags (subRule (s.reg m) false (s.reg n) s.flags).2) :=
    dualCompareCompletes (.reg m) (.reg n) s rfl hRegs hRegs _ (List.mem_cons_self ..)
  obtain ⟨hz, hc, hl⟩ := subRule_compares (s.reg m) (s.reg n) s.flags
  exact ⟨_, hCmp, condHolds_of_compares hz hc hl⟩

/-! ### The order of evaluation (R133) -/

/-- A register whose word is an even address in RAM can be loaded through, and the load reads memory. -/
theorem slot_readable {s : State} {a : Word} (h : slotOk s.memMap a = true) :
    loadOk s.memMap a .word = true ∧ loadValue a .word s = s.wordAt a ∧ afterLoad a .word s = s := by
  obtain ⟨hOk, hEq⟩ := load_next_iff.mp (slot_load h)
  obtain ⟨hValue, hState⟩ := Prod.mk.inj hEq
  exact ⟨hOk, hValue, hState⟩

/-- After a push R15 is the slot's address, unless the word pushed went over it (R127). -/
theorem reg15_after_push {s : State} (hwf : s.mem.wf) (hSlot : slotOk s.memMap (pushAddr s) = true)
    (hOther : pushAddr s ≠ regAddr s.regbank 15) (v : Word) : (afterWrite .stack v s).reg 15 = pushAddr s :=
  (State.wordAt_setWord_other _ _ _ v (slotOk_iff.mp hSlot).1 (regAddr_even s.regbank 15) hOther.symm).trans
    (State.reg_setReg_same hwf 15 _)

/-- Settles O27: the source's increment or pop comes before the destination is written or read, the push's decrement after
the source is read. -/
theorem evaluationOrder : Obligations.EvaluationOrder := by
  intro r s hwf hRegs
  refine ⟨fun hSlot => ?_, fun hSlot => ?_, fun hSlot => ?_⟩
  · obtain ⟨hOk, hValue, hState⟩ := slot_readable hSlot
    have hSrc : readable (.autoInc .word r) s = true := by simp [readable, hRegs, hOk]
    have hRead : readValue (.autoInc .word r) s = s.wordAt (s.reg r) := hValue
    have hAfter : afterRead (.autoInc .word r) s = s.setReg r (s.reg r + 2) := by
      simp only [afterRead, hState, stepOf]
    constructor
    · refine ⟨_, exec_mov_next_iff.mpr ⟨rfl, hSrc, ?_, rfl⟩, ?_⟩
      · rw [hAfter]; exact hRegs
      · rw [hRead, hAfter]; exact State.reg_setReg_same (State.setReg_wf hwf r _) r _
    · refine ⟨_, exec_dual_modify (op := .add) rfl hSrc (by rw [hAfter]; exact hRegs), ?_⟩
      rw [hAfter, hRead]
      have hReg : (s.setReg r (s.reg r + 2)).reg r = s.reg r + 2 := State.reg_setReg_same hwf r _
      refine (State.reg_setReg_same (State.setReg_wf hwf r _) r _).trans ?_
      rw [dualAlu, hReg, aluAdd_eq_addRule]
      simp [addRule]
  · have hSrc : readable .stack s = true := by rw [readable, hRegs, hSlot]; rfl
    exact ⟨_, exec_mov_next_iff.mpr ⟨rfl, hSrc, hRegs, rfl⟩, State.reg_setReg_same (State.setReg_wf hwf 15 _) 15 _⟩
  · have hDst : writable .stack (s.reg 15) s = true := by rw [writable, hRegs, hSlot]; rfl
    refine ⟨_, exec_mov_next_iff.mpr ⟨rfl, hRegs, hDst, rfl⟩, ?_, fun hOther => ?_⟩
    · exact State.wordAt_setWord_same (State.setReg_wf hwf 15 _) _ _
    · exact reg15_after_push hwf hSlot hOther _

end Sys2Proof.Machine
end

section
/-! PROOFS. Forms that stop (60_exceptions.md R233): a check that finds a reason stops the access, the access stops its
instruction, and each statement says which reason the check finds. -/

namespace Sys2Proof.Machine

/-! ### From the check to the access -/

/-- The outcome of an operation that stops for the reason `c`. -/
def stopOut {α : Type} : Stop → Out α
  | .fault f => .fault f
  | .refuse r => .refused r

@[simp] theorem stopOr_some {α : Type} (c : Stop) (x : α) : stopOr (some c) x = stopOut c := by cases c <;> rfl

@[simp] theorem bindOut_stopOut {α β : Type} (c : Stop) (k : α → Out β) : bindOut (stopOut c) k = stopOut c := by
  cases c <;> rfl

theorem readReg_ok {s : State} (h : regsOk s = true) (i : RegNum) : readReg i s = .next (s.reg i) :=
  readReg_next_iff.mpr ⟨h, rfl⟩

theorem load_stop {a : Word} {w : Width} {s : State} {c : Stop} (h : loadCheck s.memMap a w = some c) :
    load a w s = stopOut c := by
  rw [load, h, stopOr_some]

theorem store_stop {a : Word} {w : Width} {s : State} {c : Stop} (h : storeCheck s.memMap a w = some c) (v : Word) :
    store a w v s = stopOut c := by
  rw [store, h, stopOr_some]

theorem modifyAt_stop {a : Word} {w : Width} {s : State} {c : Stop} (h : modifyCheck s.memMap a w = some c) (g : Alu) :
    modifyAt a w g s = stopOut c := by
  rw [modifyAt, h, stopOr_some]

theorem storeCheck_of_loadCheck {m : MemMap} {a : Word} {w : Width} {c : Stop} (h : loadCheck m a w = some c) :
    storeCheck m a w = some c := by
  rw [storeCheck, h]

theorem modifyCheck_of_storeCheck {m : MemMap} {a : Word} {w : Width} {c : Stop} (h : storeCheck m a w = some c) :
    modifyCheck m a w = some c := by
  rw [modifyCheck, h]

/-! ### From the access to the operand -/

/-- The effective address of `op` in `s` is `a`, and computing it does not stop: a mode that goes through a register
finds the window in RAM. -/
def Reaches (op : Operand) (s : State) (a : Word) : Prop :=
  operandAddr op s = some a ∧ (regsOk s = true ∨ op = .direct (operandWidth op) a)

/-- Where the address is reached, the operand stops as the plain access at it does. -/
theorem operand_stops_as_access {op : Operand} {s : State} {a : Word} (h : Reaches op s a) (c : Stop) :
    (load a (operandWidth op) s = stopOut c → readOperand op s = stopOut c) ∧
      (∀ v, store a (operandWidth op) v s = stopOut c → writeOperand op v s = stopOut c) ∧
      ∀ g, modifyAt a (operandWidth op) g s = stopOut c → modifyOperand op g s = stopOut c := by
  obtain ⟨ha, hReach⟩ := h
  cases op with
  | reg | imm | stack => cases ha
  | direct w b => cases ha; exact ⟨id, fun _ => id, fun _ => id⟩
  | indirect w r | autoInc w r | indexed w r off =>
    cases ha
    have hr := readReg_ok (hReach.resolve_right nofun) r
    simp only [operandWidth, readOperand, writeOperand, modifyOperand, hr, bindOut_next]
    exact ⟨fun h => by simp [h], fun v h => by simp [h], fun g h => by simp [h]⟩

theorem readOperand_stop {op : Operand} {s : State} {a : Word} {c : Stop} (h : Reaches op s a)
    (hc : loadCheck s.memMap a (operandWidth op) = some c) : readOperand op s = stopOut c :=
  (operand_stops_as_access h c).1 (load_stop hc)

theorem writeOperand_stop {op : Operand} {s : State} {a : Word} {c : Stop} (h : Reaches op s a)
    (hc : storeCheck s.memMap a (operandWidth op) = some c) (v : Word) : writeOperand op v s = stopOut c :=
  (operand_stops_as_access h c).2.1 v (store_stop hc v)

theorem modifyOperand_stop {op : Operand} {s : State} {a : Word} {c : Stop} (h : Reaches op s a)
    (hc : modifyCheck s.memMap a (operandWidth op) = some c) (g : Alu) : modifyOperand op g s = stopOut c :=
  (operand_stops_as_access h c).2.2 g (modifyAt_stop hc g)

theorem not_immediate_of_operandAddr {op : Operand} {s : State} {a : Word} (h : operandAddr op s = some a) :
    isImmediate op = false := by
  cases op with
  | imm => cases h
  | _ => rfl

theorem not_immediate_of_reaches {op : Operand} {s : State} {a : Word} (h : Reaches op s a) :
    isImmediate op = false :=
  not_immediate_of_operandAddr h.1

/-! ### From the operand to the instruction -/

theorem compareOperand_stop {op : Operand} {s : State} {c : Stop} (h : readOperand op s = stopOut c) (g : Alu) :
    compareOperand op g s = stopOut c := by
  rw [compareOperand, h, bindOut_stopOut]

/-- A dual operand instruction whose source cannot be read stops as the source does. -/
theorem exec_dual_source_stop {src dst : Operand} {s : State} {c : Stop} (hImm : isImmediate dst = false)
    (h : readOperand src s = stopOut c) : ∀ i ∈ dualInstrs src dst, exec i s = stopOut c := by
  intro i hi
  obtain ⟨op, rfl⟩ := mem_dualInstrs hi
  rw [exec_instr, execShape, withSource, hImm, h]
  exact bindOut_stopOut c _

/-- A dual operand instruction whose source can be read stops as its second half does. -/
theorem exec_dual_finish_stop {op : DualOp} {src dst : Operand} {s : State} {c : Stop} (hImm : isImmediate dst = false)
    (hSrc : readable src s = true) (h : dualFinish op dst (readValue src s) (afterRead src s) = stopOut c) :
    exec (Shape.dual op src dst).instr s = stopOut c := by
  rw [exec_instr, execShape, withSource, hImm, readOperand_next_iff.mpr ⟨hSrc, rfl⟩]
  exact h

/-- A destination at an address that cannot be loaded from stops every second half. -/
theorem dualFinish_stop {dst : Operand} {s : State} {a : Word} {c : Stop} (h : Reaches dst s a)
    (hc : loadCheck s.memMap a (operandWidth dst) = some c) (op : DualOp) (v : Word) :
    dualFinish op dst v s = stopOut c := by
  have hStore := storeCheck_of_loadCheck hc
  cases hRole : dualRole op <;> simp only [dualFinish, hRole]
  · exact writeOperand_stop h hStore v
  · exact modifyOperand_stop h (modifyCheck_of_storeCheck hStore) _
  · exact compareOperand_stop (readOperand_stop h hc) _

/-- So it stops all ten instructions with an immediate source. -/
theorem exec_dual_imm_stop {dst : Operand} {s : State} {a : Word} {c : Stop} (h : Reaches dst s a)
    (hc : loadCheck s.memMap a (operandWidth dst) = some c) (v : Word) :
    ∀ i ∈ dualInstrs (.imm v) dst, exec i s = stopOut c := by
  intro i hi
  obtain ⟨op, rfl⟩ := mem_dualInstrs hi
  exact exec_dual_finish_stop (not_immediate_of_reaches h) rfl (dualFinish_stop h hc op v)

theorem exec_single_stop {dst : Operand} {s : State} {c : Stop} (h : ∀ g, modifyOperand dst g s = stopOut c)
    (n : BitVec 3) : ∀ i ∈ singleInstrs n dst, exec i s = stopOut c := by
  intro i hi
  obtain ⟨g, hg⟩ := mem_singleInstrs hi
  rw [hg, h]

/-- The seven with a readable source stop as the change of the destination does. -/
theorem exec_dualModifies_stop {src dst : Operand} {s : State} {c : Stop} (hImm : isImmediate dst = false)
    (hSrc : readable src s = true) (h : ∀ g, modifyOperand dst g (afterRead src s) = stopOut c) :
    ∀ i ∈ dualModifies src dst, exec i s = stopOut c := by
  intro i hi
  obtain ⟨op, hRole, rfl⟩ := mem_dualModifies hi
  exact exec_dual_finish_stop hImm hSrc ((dualFinish_modify hRole ..).trans (h _))

/-- CMP and TEST with a readable source stop as the reading of the destination does. -/
theorem exec_compares_stop {src dst : Operand} {s : State} {c : Stop} (hImm : isImmediate dst = false)
    (hSrc : readable src s = true) (h : readOperand dst (afterRead src s) = stopOut c) :
    ∀ i ∈ [Instr.cmp src dst, .test src dst], exec i s = stopOut c := by
  intro i hi
  rcases List.mem_pair.mp hi with rfl | rfl
  · exact exec_dual_finish_stop (op := .cmp) hImm hSrc (compareOperand_stop h _)
  · exact exec_dual_finish_stop (op := .test) hImm hSrc (compareOperand_stop h _)

/-! ### Transfers of control that are taken -/

/-- The second half of a taken call: the target is checked, the return address pushed (R175). -/
def callTo (target : Word) (s : State) : Out State :=
  if isOdd target then .fault .oddPC else bindOut (push s.pc s) fun t => .next { t with pc := target }

theorem exec_absJump_taken {op : Operand} {s : State} {p : Instr × Prop} (hp : p ∈ absJumps op s.flags) (h : p.2) :
    exec p.1 s = bindOut (readOperand op s) fun q => jumpTo q.1 q.2 := by
  obtain ⟨cc, hInstr, hTruth⟩ := mem_absJumps hp
  rw [hInstr, exec_instr, execShape, jumpAbs, if_pos (hTruth.mp h)]

theorem exec_call_taken {op : Operand} {s : State} {p : Instr × Prop} (hp : p ∈ calls op s.flags) (h : p.2) :
    exec p.1 s = bindOut (readOperand op s) fun q => callTo q.1 q.2 := by
  obtain ⟨cc, hInstr, hTruth⟩ := mem_calls hp
  rw [hInstr, exec_instr, execShape, callIf, if_pos (hTruth.mp h)]
  rfl

theorem exec_return_taken {s : State} {p : Instr × Prop} (hp : p ∈ returns s.flags) (h : p.2) :
    exec p.1 s = bindOut (pop s) fun q => jumpTo q.1 q.2 := by
  obtain ⟨cc, hInstr, hTruth⟩ := mem_returns hp
  rw [hInstr, exec_instr, execShape, returnIf, if_pos (hTruth.mp h), returnFromHandler]

/-- A taken jump or call whose operand cannot be read stops as the operand does. -/
theorem exec_transfer_stop {op : Operand} {s : State} {c : Stop} (h : readOperand op s = stopOut c) :
    ∀ p ∈ absJumps op s.flags ++ calls op s.flags, p.2 → exec p.1 s = stopOut c := by
  intro p hp hTaken
  rcases List.mem_append.mp hp with hp | hp
  · rw [exec_absJump_taken hp hTaken, h, bindOut_stopOut]
  · rw [exec_call_taken hp hTaken, h, bindOut_stopOut]

theorem exec_return_stop {s : State} {c : Stop} (h : pop s = stopOut c) :
    ∀ p ∈ returns s.flags, p.2 → exec p.1 s = stopOut c := by
  intro p hp hTaken
  rw [exec_return_taken hp hTaken, h, bindOut_stopOut]

/-- A taken call with a readable even target stops as its push does. -/
theorem exec_call_push_stop {op : Operand} {s : State} {c : Stop} (hRead : readable op s = true)
    (hEven : isOdd (readValue op s) = false) (h : ∀ v, push v (afterRead op s) = stopOut c) :
    ∀ p ∈ calls op s.flags, p.2 → exec p.1 s = stopOut c := by
  intro p hp hTaken
  rw [exec_call_taken hp hTaken, readOperand_next_iff.mpr ⟨hRead, rfl⟩, bindOut_next, callTo, hEven, h]
  exact bindOut_stopOut c _

/-- Entry to a handler stops as its push does, for INT and for an interrupt. -/
theorem enterHandler_stop {s : State} {c : Stop} (h : ∀ v, push v s = stopOut c) (v : BitVec 7) (maskI : Bool) :
    enterHandler v maskI s = stopOut c := by
  rw [enterHandler, h, bindOut_stopOut]

theorem exec_int_stop {s : State} {c : Stop} (h : ∀ v, push v s = stopOut c) (v : BitVec 7) :
    exec (.int v) s = stopOut c :=
  enterHandler_stop h v false

theorem takeInterrupt_stop {s : State} {c : Stop} (h : ∀ v, push v s = stopOut c) (k : Fin 64) :
    takeInterrupt k s = stopOut c := by
  rw [takeInterrupt, enterHandler_stop h, bindOut_stopOut]

/-! ### Destinations that are refused by their form -/

/-- Settles O36: the form of the destination is looked at before anything else. -/
theorem immediateDestinationFaults : Obligations.ImmediateDestinationFaults := by
  refine fun src v n s => ⟨fun i hi => ?_, exec_single_stop (c := .fault .immediateDestination) (fun _ => rfl) n⟩
  obtain ⟨op, rfl⟩ := mem_dualInstrs hi
  rw [exec_instr]
  rfl

/-- Settles O37: a change of the stack operand is refused whatever the operation. -/
theorem stackDestinationRefused : Obligations.StackDestinationRefused :=
  ⟨fun _ _ hSrc => exec_dualModifies_stop (c := .refuse .rmwOnStackIndirect) rfl hSrc fun _ => rfl,
    fun n _ => exec_single_stop (c := .refuse .rmwOnStackIndirect) (fun _ => rfl) n⟩

/-! ### Destinations that are refused by their address -/

/-- The Flags register can be loaded and stored, but not as the destination of a flag-computing instruction. -/
theorem modifyCheck_flags (m : MemMap) : modifyCheck m 0xC000 .word = some (.refuse .flagsDestination) := by
  have h0 : memClass m 0xC000 = .flags := memClass_fixed (by decide) m
  have h1 : memClass m (0xC000 + 1) = .flags := memClass_fixed (by decide) m
  have hOk : storeOk m 0xC000 .word = true := by
    rw [storeOk, loadOk, someByteIs, someByteIs, h0, h1]; decide
  rw [modifyCheck, storeCheck_none_iff.mpr hOk, if_pos h0]

/-- Settles O38: in every mode the check is made at the effective address. -/
theorem flagsDestinationRefused : Obligations.FlagsDestinationRefused := by
  have stop : ∀ (dst : Operand) (s : State), operandAddr dst s = some 0xC000 → operandWidth dst = .word →
      (regsOk s = true ∨ dst = .direct .word 0xC000) →
      ∀ g, modifyOperand dst g s = stopOut (.refuse .flagsDestination) := fun dst s ha hw hReach g => by
    refine modifyOperand_stop ⟨ha, by rwa [hw]⟩ ?_ g
    rw [hw]; exact modifyCheck_flags s.memMap
  refine ⟨fun src dst s hSrc ha hw hReach => ?_, fun n dst s ha hw hReach => exec_single_stop (stop dst s ha hw hReach) n⟩
  have hReach' : regsOk (afterRead src s) = true ∨ dst = .direct .word 0xC000 := by
    simpa only [regsOk, afterRead_memMap, afterRead_regbank] using hReach
  exact exec_dualModifies_stop (not_immediate_of_operandAddr ha) hSrc (stop dst _ ha hw hReach')

/-- A byte of Flags or REGBANK is not loaded (R30). -/
theorem loadCheck_controlByte (m : MemMap) {a : Word} (h0 : 0xC000 ≤ a.toNat) (h1 : a.toNat ≤ 0xC003) :
    loadCheck m a .byte = some (.refuse .byteControlRegister) := by
  have hClass : memClass m a = .flags ∨ memClass m a = .regbank := by
    rw [memClass_control.1, memClass_control.2]; omega
  rcases hClass with h | h <;> simp only [loadCheck, h]

/-- Settles O39: a byte of the two registers can be neither read, written nor changed. -/
theorem byteControlRegisterRefused : Obligations.ByteControlRegisterRefused := by
  intro op a s ha hw h0 h1 hReach
  have hReaches : Reaches op s a := ⟨ha, by rwa [hw]⟩
  have hc : loadCheck s.memMap a (operandWidth op) = some (.refuse .byteControlRegister) := by
    rw [hw]; exact loadCheck_controlByte s.memMap h0 h1
  exact ⟨fun _ hImm => exec_dual_source_stop hImm (readOperand_stop hReaches hc), exec_dual_imm_stop hReaches hc,
    exec_single_stop (modifyOperand_stop hReaches (modifyCheck_of_storeCheck (storeCheck_of_loadCheck hc)))⟩

/-- Settles O41: what can be loaded and has a byte in ROM is not stored to. -/
theorem romWriteRefused : Obligations.RomWriteRefused := by
  intro op a s ha hLoad hRom hReach
  have hReaches : Reaches op s a := ⟨ha, hReach⟩
  have hc : storeCheck s.memMap a (operandWidth op) = some (.refuse .romWrite) := by
    rw [storeCheck, loadCheck_none_iff.mpr hLoad, if_pos hRom]
  have hImm := not_immediate_of_reaches hReaches
  have hModify : ∀ g, modifyOperand op g s = stopOut (.refuse .romWrite) :=
    modifyOperand_stop hReaches (modifyCheck_of_storeCheck hc)
  exact ⟨fun v => exec_dual_finish_stop (op := .mov) (src := .imm v) hImm rfl (writeOperand_stop hReaches hc v),
    fun v => exec_dualModifies_stop (src := .imm v) hImm rfl hModify, exec_single_stop hModify⟩

/-! ### Odd addresses (R58) -/

theorem loadCheck_odd (m : MemMap) {a : Word} (h : isOdd a = true) :
    loadCheck m a .word = some (.fault (.misalignedWord a)) := by
  rw [loadCheck, if_pos h]

theorem isOdd_sub_two (a : Word) : isOdd (a - 2) = isOdd a := by
  rw [← isOdd_add_two, BitVec.sub_add_cancel]

theorem push_odd {s : State} (hRegs : regsOk s = true) (h : isOdd (s.reg 15) = true) (v : Word) :
    push v s = stopOut (.fault (.misalignedWord (s.reg 15 - 2))) := by
  have hOdd : isOdd (s.reg 15 - 2) = true := by rwa [isOdd_sub_two]
  rw [push, readReg_ok hRegs, bindOut_next, writeReg_next_iff.mpr ⟨hRegs, rfl⟩, bindOut_next,
    storeCheck_of_loadCheck (loadCheck_odd _ hOdd), stackCheck, stopOr_some]

theorem pop_odd {s : State} (hRegs : regsOk s = true) (h : isOdd (s.reg 15) = true) :
    pop s = stopOut (.fault (.misalignedWord (s.reg 15))) := by
  rw [pop, readReg_ok hRegs, bindOut_next, loadCheck_odd _ h, stackCheck, stopOr_some, bindOut_stopOut]

/-- Settles O40: the check of a word access looks at the address first, at an operand as at a stack slot. -/
theorem misalignedWordFaults : Obligations.MisalignedWordFaults := by
  refine ⟨fun op a s ha hw hOdd hReach => ?_, fun s hRegs hOdd => ?_⟩
  · have hReaches : Reaches op s a := ⟨ha, by rwa [hw]⟩
    have hc : loadCheck s.memMap a (operandWidth op) = some (.fault (.misalignedWord a)) := by
      rw [hw]; exact loadCheck_odd s.memMap hOdd
    have hRead := readOperand_stop hReaches hc
    exact ⟨fun _ hImm => exec_dual_source_stop hImm hRead, exec_dual_imm_stop hReaches hc,
      exec_single_stop (modifyOperand_stop hReaches (modifyCheck_of_storeCheck (storeCheck_of_loadCheck hc))),
      exec_transfer_stop hRead⟩
  · have hPush := push_odd hRegs hOdd
    have hPop : readOperand .stack s = stopOut (.fault (.misalignedWord (s.reg 15))) := pop_odd hRegs hOdd
    refine ⟨fun v => ?_, fun n => ?_, fun _ hImm => exec_dual_source_stop hImm hPop,
      fun v => exec_compares_stop (src := .imm v) rfl rfl hPop, fun p hp => ?_, fun target hEven => ?_,
      exec_int_stop hPush, takeInterrupt_stop hPush⟩
    · exact exec_dual_finish_stop (op := .mov) (src := .imm v) (dst := .stack) rfl rfl (hPush v)
    · exact exec_dual_finish_stop (op := .mov) (src := .reg n) (dst := .stack) rfl hRegs (hPush _)
    · rcases List.mem_append.mp hp with hp | hp
      · exact exec_transfer_stop hPop p hp
      · exact exec_return_stop hPop p hp
    · exact exec_call_push_stop (op := .imm target) rfl hEven hPush

/-! ### The register window outside RAM (R63) -/

theorem readReg_window {s : State} (h : regsOk s = false) (i : RegNum) :
    readReg i s = stopOut (.refuse .windowNotInRam) := by
  rw [regsOk] at h
  rw [readReg, regCheck, h]
  rfl

theorem writeReg_window {s : State} (h : regsOk s = false) (i : RegNum) (v : Word) :
    writeReg i v s = stopOut (.refuse .windowNotInRam) := by
  rw [regsOk] at h
  rw [writeReg, regCheck, h]
  rfl

theorem push_window {s : State} (h : regsOk s = false) (v : Word) : push v s = stopOut (.refuse .windowNotInRam) := by
  rw [push, readReg_window h, bindOut_stopOut]

theorem pop_window {s : State} (h : regsOk s = false) : pop s = stopOut (.refuse .windowNotInRam) := by
  rw [pop, readReg_window h, bindOut_stopOut]

/-- An operand that goes through a register cannot be accessed while the window is outside RAM. -/
theorem operand_window {op : Operand} {s : State} (hUses : usesRegister op = true) (h : regsOk s = false) :
    readOperand op s = stopOut (.refuse .windowNotInRam) ∧
      (∀ v, writeOperand op v s = stopOut (.refuse .windowNotInRam)) ∧
      (op ≠ .stack → ∀ g, modifyOperand op g s = stopOut (.refuse .windowNotInRam)) := by
  cases op with
  | imm | direct => cases hUses
  | stack => exact ⟨pop_window h, push_window h, fun hne => absurd rfl hne⟩
  | reg | indirect | autoInc | indexed =>
    simp only [readOperand, writeOperand, modifyOperand, readReg_window h, writeReg_window h, bindOut_stopOut,
      implies_true, and_self]

theorem not_immediate_of_usesRegister {op : Operand} (h : usesRegister op = true) : isImmediate op = false := by
  cases op with
  | imm => cases h
  | _ => rfl

/-- Every second half stops there, but for the change of the stack operand, which is refused by its form. -/
theorem dualFinish_window {dst : Operand} {s : State} (hUses : usesRegister dst = true) (hStack : dst ≠ .stack)
    (h : regsOk s = false) (op : DualOp) (v : Word) :
    dualFinish op dst v s = stopOut (.refuse .windowNotInRam) := by
  obtain ⟨hRead, hWrite, hModify⟩ := operand_window hUses h
  cases hRole : dualRole op <;> simp only [dualFinish, hRole]
  · exact hWrite v
  · exact hModify hStack _
  · exact compareOperand_stop hRead _

/-- The map at reset has RAM up to 0xBFFF (log 4). -/
theorem memClass_reset {a : Word} (h : a.toNat < 0xC000) : memClass State.reset.memMap a = .ram := by
  by_cases hLow : a.toNat < 0x0120
  · exact memClass_low hLow _
  · have hFixed : fixedClass a = none ∨ fixedClass a = some .ram := by
      unfold fixedClass
      rw [if_neg hLow, if_pos h]
      split_ifs <;> simp
    have hOpen : openClass State.reset.memMap a = .ram := by
      rw [State.reset, openClass, if_pos]
      exact ⟨by simpa using hLow, Nat.le_of_lt_succ h⟩
    rcases hFixed with hf | hf
    · rw [memClass, hf, hOpen]; rfl
    · exact memClass_fixed hf _

theorem windowInRam_reset {rb : Word} (h : rb.toNat < 0xC000) : windowInRam State.reset.memMap rb = true := by
  refine List.all_eq_true.mpr fun i _ => everyByteIs_word.mpr ?_
  have hi : (BitVec.ofNat 4 i).toNat < 16 := (BitVec.ofNat 4 i).isLt
  have ha := regAddr_toNat rb (BitVec.ofNat 4 i)
  have hNext : (regAddr rb (BitVec.ofNat 4 i) + 1).toNat < 0xC000 := by
    rw [BitVec.toNat_add, show (1 : Word).toNat = 1 from rfl]; omega
  exact ⟨memClass_reset (by omega), memClass_reset hNext⟩

/-- Settles O17: every way to a register goes through the check of the window. -/
theorem windowNotInRamRefused : Obligations.WindowNotInRamRefused := by
  refine ⟨fun s hWindow => ?_, fun m rb h => windowInRam_low h m, fun rb h => windowInRam_reset h⟩
  have h : regsOk s = false := hWindow
  have after : ∀ src, regsOk (afterRead src s) = false := fun src => by
    simpa only [regsOk, afterRead_memMap, afterRead_regbank] using hWindow
  refine ⟨fun op hUses => ⟨fun dst hImm => ?_, fun src hSrc hStack i hi => ?_, fun n hStack => ?_, ?_⟩,
    fun src hSrc => ⟨fun i hi => ?_, ?_⟩, fun op hRead hEven => ?_, exec_return_stop (pop_window h),
    exec_int_stop (push_window h), takeInterrupt_stop (push_window h)⟩
  · exact exec_dual_source_stop hImm (operand_window hUses h).1
  · obtain ⟨o, rfl⟩ := mem_dualInstrs hi
    exact exec_dual_finish_stop (not_immediate_of_usesRegister hUses) hSrc
      (dualFinish_window hUses hStack (after src) o _)
  · exact exec_single_stop ((operand_window hUses h).2.2 hStack) n
  · exact exec_transfer_stop (operand_window hUses h).1
  · rcases List.mem_cons.mp hi with rfl | hi
    · exact exec_dual_finish_stop (op := .mov) (dst := .stack) rfl hSrc (push_window (after src) _)
    · exact exec_compares_stop (dst := .stack) rfl hSrc (pop_window (after src)) i hi
  · exact stackDestinationRefused.1 src s hSrc
  · exact exec_call_push_stop hRead hEven (push_window (after op))

end Sys2Proof.Machine
end

section
/-! PROOFS. Program control and interrupt entry (42_program_control.md, 60_exceptions.md R224): what a transfer does when
it is taken, when it is not, and when its target is odd. -/

namespace Sys2Proof.Machine

/-! ### Relative jumps -/

/-- Twice the signed offset, as a word (R93, R172). -/
theorem offset_shiftLeft (off : BitVec 7) : off.signExtend 16 <<< 1 = BitVec.ofInt 16 (2 * off.toInt) := by
  revert off; decide

theorem relTarget_eq (off : BitVec 7) (s : State) : relTarget off s = s.pc + BitVec.ofInt 16 (2 * off.toInt) := by
  rw [← offset_shiftLeft]; rfl

/-- Settles O42: a relative jump is decided by its condition alone. -/
theorem relativeJumpCompletes : Obligations.RelativeJumpCompletes := by
  intro off s p hp
  obtain ⟨cc, hInstr, hTruth⟩ := mem_relJumps hp
  rw [hTruth, hInstr, exec_instr, execShape, jumpRel, relTarget_eq]
  exact ⟨fun h => if_pos h, fun h => if_neg h⟩

/-! ### Transfers through an operand or the stack -/

theorem jumpTo_even {a : Word} (h : isOdd a = false) (s : State) : jumpTo a s = .next { s with pc := a } := by
  rw [jumpTo, h]; rfl

theorem jumpTo_odd {a : Word} (h : isOdd a = true) (s : State) : jumpTo a s = .fault .oddPC := by
  rw [jumpTo, if_pos h]

theorem pop_readable {s : State} (h : readable .stack s = true) :
    pop s = .next (s.wordAt (s.reg 15), s.setReg 15 (s.reg 15 + 2)) :=
  readOperand_next_iff.mpr ⟨h, rfl⟩

theorem push_writable {v : Word} {s : State} (h : writable .stack v s = true) :
    push v s = .next (afterWrite .stack v s) :=
  writeOperand_next_iff.mpr ⟨h, rfl⟩

/-- Settles O43: the operand is read and `pc` set to its value. -/
theorem takenAbsoluteJump : Obligations.TakenAbsoluteJump := by
  intro op s hRead hEven p hp hTaken
  rw [exec_absJump_taken hp hTaken, readOperand_next_iff.mpr ⟨hRead, rfl⟩, bindOut_next, jumpTo_even hEven]

/-- Settles O44: the word is popped and `pc` set to it. -/
theorem takenReturnPops : Obligations.TakenReturnPops := by
  intro s hRead hEven p hp hTaken
  rw [exec_return_taken hp hTaken, pop_readable hRead, bindOut_next, jumpTo_even hEven]

/-- Settles O45: the operand is read, the next instruction's address pushed, `pc` set to the value read. -/
theorem takenCallPushesThenJumps : Obligations.TakenCallPushesThenJumps := by
  intro op s hRead hEven hPush p hp hTaken
  rw [exec_call_taken hp hTaken, readOperand_next_iff.mpr ⟨hRead, rfl⟩, bindOut_next, callTo, hEven, afterRead_pc,
    push_writable hPush]
  rfl

/-! ### Entry to a handler -/

theorem vectorAddr_eq (v : BitVec 7) : vectorAddr v = BitVec.ofNat 16 (2 * v.toNat) := by
  revert v; decide

theorem vectorAddr_irq (h : Fin 64) : vectorAddr (BitVec.ofNat 7 h) = BitVec.ofNat 16 (2 * h) := by
  revert h; decide

/-- The flags in a handler: I is 0 where the entry masks interrupts (R224). -/
def entryFlags (maskI : Bool) (f : Flags) : Flags := if maskI then { f with i := false } else f

/-- Where the slot can be written, entry is the push and a jump to the vector, which can always be read (R62, R224). -/
theorem enterHandler_writable {s : State} (h : writable .stack s.pc s = true) (v : BitVec 7) (maskI : Bool) :
    enterHandler v maskI s =
      jumpTo ((afterWrite .stack s.pc s).wordAt (vectorAddr v))
        ((afterWrite .stack s.pc s).withFlags (entryFlags maskI s.flags)) := by
  rw [enterHandler, push_writable h, bindOut_next, slot_load (by cases maskI <;> exact vector_slotOk _ _)]
  cases maskI <;> rfl

/-- Settles O46: INT enters the handler with the flags as they are. -/
theorem softwareInterrupt : Obligations.SoftwareInterrupt := by
  intro v s hPush hEven
  rw [← vectorAddr_eq] at hEven ⊢
  exact (enterHandler_writable hPush v false).trans (jumpTo_even hEven _)

/-- Settles O8: entry to the handler with I cleared, then the latch. -/
theorem interruptEntry : Obligations.InterruptEntry := by
  intro h s hPush hEven
  rw [← vectorAddr_irq] at hEven ⊢
  rw [takeInterrupt, enterHandler_writable hPush, jumpTo_even hEven]
  rfl

/-- Settles O47: each kind of transfer ends in the check of its target, a call before its push. -/
theorem oddTargetFaults : Obligations.OddTargetFaults := by
  refine ⟨fun op s hRead hOdd p hp hTaken => ?_, fun s hRead hOdd p hp hTaken => ?_, fun v s hPush hOdd => ?_,
    fun h s hPush hOdd => ?_⟩
  · rcases List.mem_append.mp hp with hp | hp
    · rw [exec_absJump_taken hp hTaken, readOperand_next_iff.mpr ⟨hRead, rfl⟩, bindOut_next, jumpTo_odd hOdd]
    · rw [exec_call_taken hp hTaken, readOperand_next_iff.mpr ⟨hRead, rfl⟩, bindOut_next, callTo, if_pos hOdd]
  · rw [exec_return_taken hp hTaken, pop_readable hRead, bindOut_next, jumpTo_odd hOdd]
  · rw [← vectorAddr_eq] at hOdd
    exact (enterHandler_writable hPush v false).trans (jumpTo_odd hOdd _)
  · rw [← vectorAddr_irq] at hOdd
    rw [takeInterrupt, enterHandler_writable hPush, jumpTo_odd hOdd, bindOut_fault]

/-! ### Transfers that are not taken -/

/-- A transfer under a condition, in any of the four formats: with the condition false the state is the answer (R177). -/
theorem execShape_not_taken {s : State} {cc : Cond} (h : condHolds s.flags cc ≠ true) (off : BitVec 7) (t : Operand) :
    execShape (.jump cc off) s = .next s ∧ execShape (.jumpLong cc t) s = .next s ∧
      execShape (.call cc t) s = .next s ∧ execShape (.ret cc) s = .next s := by
  simp only [execShape, jumpRel, jumpAbs, callIf, returnIf, if_neg h, and_self]

/-- Settles O48: the condition is looked at before the operand. -/
theorem notTakenDoesNothing : Obligations.NotTakenDoesNothing := by
  intro off op s p hp hNot
  simp only [List.mem_append] at hp
  rcases hp with ((hp | hp) | hp) | hp
  · obtain ⟨cc, hInstr, hTruth⟩ := mem_relJumps hp
    rw [hInstr, exec_instr, (execShape_not_taken (mt hTruth.mpr hNot) off op).1]
  · obtain ⟨cc, hInstr, hTruth⟩ := mem_absJumps hp
    rw [hInstr, exec_instr, (execShape_not_taken (mt hTruth.mpr hNot) off op).2.1]
  · obtain ⟨cc, hInstr, hTruth⟩ := mem_calls hp
    rw [hInstr, exec_instr, (execShape_not_taken (mt hTruth.mpr hNot) off op).2.2.1]
  · obtain ⟨cc, hInstr, hTruth⟩ := mem_returns hp
    rw [hInstr, exec_instr, (execShape_not_taken (mt hTruth.mpr hNot) off op).2.2.2]

/-! ### A call and its return -/

theorem evenByte_wordAt (s : State) (a : Word) : evenByte (s.wordAt a) = s.byteAt a :=
  BitVec.extractLsb'_append_eq_right

theorem oddByte_wordAt (s : State) (a : Word) : oddByte (s.wordAt a) = s.byteAt (a + 1) :=
  BitVec.extractLsb'_append_eq_left

theorem SameBytesOutside.mono {l l' : List Word} {s t : State} (h : SameBytesOutside l s t) (hl : l ⊆ l') :
    SameBytesOutside l' s t := fun a ha => h a fun hm => ha (hl hm)

/-- A register that reads as before has its bytes as before. -/
theorem SameBytesOutside.of_reg_eq {l : List Word} {s t : State} {r : RegNum}
    (h : SameBytesOutside (regBytes s r ++ l) s t) (hBank : t.regbank = s.regbank) (hReg : t.reg r = s.reg r) :
    SameBytesOutside l s t := by
  intro b hb
  rw [State.reg, State.reg, hBank] at hReg
  by_cases hr : b ∈ regBytes s r
  · rcases List.mem_pair.mp hr with rfl | rfl
    · rw [← evenByte_wordAt, hReg, evenByte_wordAt]
    · rw [← oddByte_wordAt, hReg, oddByte_wordAt]
  · exact h b fun hm => (List.mem_append.mp hm).elim hr hb

/-- After a push whose slot is not the register's own word, the pop at the slot gives the word pushed and moves R15 back. -/
theorem pop_after_push {s : State} {v : Word} (hwf : s.mem.wf) (hPush : writable .stack v s = true)
    (hOther : pushAddr s ≠ regAddr s.regbank 15) :
    readable .stack (afterWrite .stack v s) = true ∧ readValue .stack (afterWrite .stack v s) = v ∧
      (afterRead .stack (afterWrite .stack v s)).reg 15 = s.reg 15 ∧
      SameBytesOutside (bytesAt (pushAddr s) .word) s (afterRead .stack (afterWrite .stack v s)) := by
  obtain ⟨hRegs, hSlot⟩ := Bool.and_eq_true_iff.mp hPush
  have hR15 := reg15_after_push hwf hSlot hOther v
  have hRegs' : regsOk (afterWrite .stack v s) = true := hRegs
  have hSlot' : slotOk (afterWrite .stack v s).memMap (pushAddr s) = true := hSlot
  have hBack : (afterRead .stack (afterWrite .stack v s)).reg 15 = s.reg 15 := by
    rw [afterRead, hR15, State.reg_setReg_same (afterWrite_wf hwf .stack v), pushAddr, BitVec.sub_add_cancel]
  refine ⟨by rw [readable, hR15, hRegs', hSlot']; rfl, ?_, hBack, ?_⟩
  · rw [readValue, hR15]
    exact State.wordAt_setWord_same (State.setReg_wf hwf 15 _) _ _
  · have hBytes := (afterWrite_sameBytes hPush).trans (afterRead_sameBytes .stack (afterWrite .stack v s))
    refine (hBytes.mono (l' := regBytes s 15 ++ bytesAt (pushAddr s) .word) ?_).of_reg_eq rfl hBack
    exact List.append_subset.mpr ⟨fun _ h => h, List.subset_append_left _ _⟩

/-- RET pops `pc` (R174). -/
theorem exec_ret {s : State} {a : Word} (hRead : readable .stack s = true) (hValue : readValue .stack s = a)
    (hEven : isOdd a = false) : exec .ret s = .next { afterRead .stack s with pc := a } := by
  subst hValue
  exact takenReturnPops s hRead hEven (.ret, True) (by simp [returns]) trivial

/-- Settles O50: the pop of the return undoes the push of the call. -/
theorem callThenReturn : Obligations.CallThenReturn := by
  intro target s hwf hPush hEven hPc hOther
  obtain ⟨hRead, hValue, hR15, hBytes⟩ := pop_after_push hwf hPush hOther
  have hCall : exec (.call (.imm target)) s = .next { afterWrite .stack s.pc s with pc := target } :=
    takenCallPushesThenJumps (.imm target) s rfl hEven hPush (.call (.imm target), True) (by simp [calls]) trivial
  have hRet : exec .ret { afterWrite .stack s.pc s with pc := target } =
      .next { afterRead .stack (afterWrite .stack s.pc s) with pc := s.pc } :=
    exec_ret (s := { afterWrite .stack s.pc s with pc := target }) hRead hValue hPc
  exact ⟨_, _, hCall, rfl, hRet, rfl, hR15, rfl, by simp [SameControl, afterWrite], hBytes⟩

end Sys2Proof.Machine
end

section
/-! PROOFS. Memory, the registers in it, and the control and device registers (10_state.md, 20_memory.md), through MOV with
a direct operand. -/

namespace Sys2Proof.Machine

/-! ### MOV with a direct operand -/

/-- MOV completes with the value read and the state after reading it as its second half finds them. -/
theorem exec_mov_next {src dst : Operand} {v : Word} {s u : State} (hImm : isImmediate dst = false)
    (hSrc : readable src s = true) (hValue : readValue src s = v) (hAfter : afterRead src s = u)
    (hDst : writable dst v u = true) : exec (.mov src dst) s = .next (afterWrite dst v u) := by
  subst hValue hAfter
  exact exec_mov_next_iff.mpr ⟨hImm, hSrc, hDst, rfl⟩

/-- MOV of an immediate to a direct operand is the store. -/
theorem exec_mov_imm_direct {v a : Word} {w : Width} {s : State} (h : storeOk s.memMap a w = true) :
    exec (.mov (.imm v) (.direct w a)) s = .next (storeState a w v s) :=
  exec_mov_next_iff.mpr ⟨rfl, rfl, h, rfl⟩

/-- MOV of a direct operand to a register is the load, then the write of the register. -/
theorem exec_mov_direct_reg {a : Word} {w : Width} {n : RegNum} {s : State} (h : loadOk s.memMap a w = true)
    (hRegs : regsOk s = true) :
    exec (.mov (.direct w a) (.reg n)) s = .next ((afterLoad a w s).setReg n (loadValue a w s)) := by
  refine exec_mov_next_iff.mpr ⟨rfl, h, ?_, rfl⟩
  simpa only [writable, regsOk, afterRead_memMap, afterRead_regbank] using hRegs

/-! ### RAM -/

/-- MOV of an immediate to a word of RAM sets the word. -/
theorem exec_mov_imm_slot {v a : Word} {s : State} (h : slotOk s.memMap a = true) :
    exec (.mov (.imm v) (.direct .word a)) s = .next (s.setWord a v) := by
  rw [exec_mov_imm_direct (storeOk_of_slotOk h), storeState_word (slotOk_iff.mp h).2]

/-- A register's word is a slot: an even address with both bytes in RAM (R22, R63). -/
theorem slotOk_reg {s : State} (h : regsOk s = true) (i : RegNum) : slotOk s.memMap (regAddr s.regbank i) = true :=
  slotOk_iff.mpr ⟨regAddr_even s.regbank i, everyByteIs_reg h i⟩

/-- Settles O15: the address of a register is computed without carry, and its word is RAM. -/
theorem registersAreMemory : Obligations.RegistersAreMemory := by
  refine ⟨regAddr_toNat, fun s i v hwf hRegs => ?_⟩
  have hSlot := slotOk_reg hRegs i
  obtain ⟨hLoad, hValue, hState⟩ := slot_readable hSlot
  refine ⟨_, exec_mov_imm_slot hSlot, State.reg_setReg_same hwf i v, fun j hj => State.reg_setReg_other s i j v hj,
    fun j => ?_⟩
  rw [exec_mov_direct_reg hLoad hRegs, hValue, hState, State.reg]

/-- Settles O18: the two bytes of the word are stored at the address and the next one. -/
theorem wordStoreIsLittleEndian : Obligations.WordStoreIsLittleEndian := by
  intro s a v hwf hEven hRam
  have hSlot : slotOk s.memMap a = true := slotOk_iff.mpr ⟨hEven, hRam⟩
  obtain ⟨h0, h1⟩ := everyByteIs_word.mp hRam
  have hByte0 := State.byteAt_setWord_even hwf a v
  have hByte1 := State.byteAt_setWord_odd hwf a v
  refine ⟨s.setWord a v, exec_mov_imm_slot hSlot, hByte0, hByte1, ?_, ?_, ?_,
    fun b hb hb1 => State.byteAt_setWord_other s a b v hb hb1⟩
  · exact (loadValue_word (s := s.setWord a v) (.inl h0) (.inl h1)).trans (State.wordAt_setWord_same hwf a v)
  · exact (loadValue_byte (s := s.setWord a v) (.inl h0)).trans (congrArg (BitVec.setWidth 16) hByte0)
  · exact (loadValue_byte (s := s.setWord a v) (.inl h1)).trans (congrArg (BitVec.setWidth 16) hByte1)

/-- A zero-extended byte is the byte with eight zeros above it (R124). -/
theorem setWidth_byte_halves (x : Byte) :
    (x.setWidth 16).extractLsb' 0 8 = x ∧ (x.setWidth 16).extractLsb' 8 8 = 0#8 := by
  have hx := x.isLt
  constructor <;> apply BitVec.eq_of_toNat_eq <;> simp [BitVec.extractLsb'_toNat, Nat.shiftRight_eq_div_pow] <;> omega

/-- Settles O19: a byte store sets one byte; a byte load gives the zero-extended byte. -/
theorem byteAccess : Obligations.ByteAccess := by
  refine ⟨fun s a v hwf hRam => ?_, fun s a n hwf hRegs hMem => ?_⟩
  · have hStore : storeOk s.memMap a .byte = true := by simp [storeOk, loadOk, hRam]
    refine ⟨_, exec_mov_imm_direct hStore, ?_⟩
    rw [storeState_byte hRam]
    exact ⟨State.byteAt_setByte_same hwf a _, fun b hb => State.byteAt_setByte_other s a b _ hb⟩
  · have hLoad : loadOk s.memMap a .byte = true := by rcases hMem with h | h <;> simp [loadOk, h]
    refine ⟨_, exec_mov_direct_reg hLoad hRegs, ?_⟩
    rw [State.reg_setReg_same (by simpa using hwf), loadValue_byte hMem]
    exact setWidth_byte_halves _

/-! ### The control and device words -/

/-- A word of one class that is neither ROM nor unmapped can be stored, and loaded, at an even address. -/
theorem storeOk_word {m : MemMap} {a : Word} {c : Region} (hEven : isOdd a = false) (h : everyByteIs m c a .word = true)
    (hRom : c ≠ .rom) (hUnmapped : c ≠ .unmapped) : storeOk m a .word = true := by
  simp [storeOk, loadOk, hEven, someByteIs_of_every h hRom, someByteIs_of_every h hUnmapped]

theorem loadOk_of_storeOk {m : MemMap} {a : Word} {w : Width} (h : storeOk m a w = true) : loadOk m a w = true :=
  (Bool.and_eq_true_iff.mp h).1

/-- The control and device words that the spec names have their class under every map (R62). -/
theorem everyByteIs_fixed {a : Word} {c : Region} (h : fixedClass a = some c) (h1 : fixedClass (a + 1) = some c)
    (m : MemMap) : everyByteIs m c a .word = true :=
  everyByteIs_word.mpr ⟨memClass_fixed h m, memClass_fixed h1 m⟩

theorem everyByteIs_flags (m : MemMap) : everyByteIs m .flags 0xC000 .word = true :=
  everyByteIs_fixed (by decide) (by decide) m
theorem everyByteIs_regbank (m : MemMap) : everyByteIs m .regbank 0xC002 .word = true :=
  everyByteIs_fixed (by decide) (by decide) m
theorem everyByteIs_intEnable (m : MemMap) : everyByteIs m .device 0xC00E .word = true :=
  everyByteIs_fixed (by decide) (by decide) m
theorem everyByteIs_gpio (m : MemMap) : everyByteIs m .device 0xC024 .word = true :=
  everyByteIs_fixed (by decide) (by decide) m

theorem storeOk_flags (m : MemMap) : storeOk m 0xC000 .word = true :=
  storeOk_word (by decide) (everyByteIs_flags m) (by decide) (by decide)
theorem storeOk_regbank (m : MemMap) : storeOk m 0xC002 .word = true :=
  storeOk_word (by decide) (everyByteIs_regbank m) (by decide) (by decide)
theorem storeOk_intEnable (m : MemMap) : storeOk m 0xC00E .word = true :=
  storeOk_word (by decide) (everyByteIs_intEnable m) (by decide) (by decide)
theorem storeOk_gpio (m : MemMap) : storeOk m 0xC024 .word = true :=
  storeOk_word (by decide) (everyByteIs_gpio m) (by decide) (by decide)

/-! ### What a word access does by class -/

theorem loadValue_flags {a : Word} {s : State} (h : everyByteIs s.memMap .flags a .word = true) :
    loadValue a .word s = s.flags.toWord ∧ afterLoad a .word s = s := by
  have hc := memClass_of_every h
  exact ⟨by simp only [loadValue, hc], afterLoad_memory (by simp [hc]) (someByteIs_of_every h (by decide))⟩

theorem loadValue_regbank {a : Word} {s : State} (h : everyByteIs s.memMap .regbank a .word = true) :
    loadValue a .word s = regbankValue s ∧ afterLoad a .word s = s.drawn := by
  have hc := memClass_of_every h
  exact ⟨by simp only [loadValue, hc], by rw [afterLoad, if_pos hc]⟩

theorem loadValue_device {a : Word} {s : State} (h : everyByteIs s.memMap .device a .word = true) :
    loadValue a .word s = deviceWord a s ∧ afterLoad a .word s = s.drawn := by
  have hc := memClass_of_every h
  refine ⟨by simp only [loadValue, hc, h, if_true], ?_⟩
  rw [afterLoad, if_neg (by simp [hc]), if_pos (someByteIs_word.mpr (.inl hc))]

theorem storeState_flags_word {a v : Word} {s : State} (h : everyByteIs s.memMap .flags a .word = true) :
    storeState a .word v s = s.withFlags (Flags.ofWord v) := by
  simp only [storeState, memClass_of_every h]

theorem storeState_regbank_word {a v : Word} {s : State} (h : everyByteIs s.memMap .regbank a .word = true) :
    storeState a .word v s = { s with regbank := v } := by
  simp only [storeState, memClass_of_every h]

theorem storeState_device_word {a v : Word} {s : State} (h : everyByteIs s.memMap .device a .word = true) :
    storeState a .word v s = deviceStore a .word v s := by
  simp only [storeState, memClass_of_every h, h, if_true]

/-! ### REGBANK (R24, R25) -/

/-- A register's address takes bits 15 to 5 of REGBANK alone (R22). -/
theorem regAddr_congr {rb rb' : Word} (h : ∀ k, 5 ≤ k → rb.getLsbD k = rb'.getLsbD k) (i : RegNum) :
    regAddr rb i = regAddr rb' i := by
  have hHigh : rb >>> 5 = rb' >>> 5 := BitVec.eq_of_getLsbD_eq fun k _ => by
    rw [BitVec.getLsbD_ushiftRight, BitVec.getLsbD_ushiftRight, h _ (by omega)]
  rw [regAddr, regAddr, and_ffe0, and_ffe0, hHigh]

/-- Settles O16: the store sets REGBANK and nothing else. -/
theorem regbankSwitchesWindow : Obligations.RegbankSwitchesWindow := by
  intro s v
  refine ⟨_, exec_mov_imm_direct (storeOk_regbank s.memMap), ?_⟩
  rw [storeState_regbank_word (everyByteIs_regbank s.memMap)]
  exact ⟨rfl, rfl, rfl, fun _ => rfl, fun w hw i => congrArg s.wordAt (regAddr_congr (fun k hk => (hw k hk).symm) i)⟩

/-! ### Flags (R27, R30) -/

theorem toWord_toNat (f : Flags) :
    f.toWord.toNat = f.z.toNat + 2 * f.c.toNat + 4 * f.o.toNat + 8 * f.s.toNat + 16 * f.i.toNat := by
  obtain ⟨z, c, o, s, i⟩ := f
  revert z c o s i
  decide

theorem ofWord_toWord (f : Flags) : Flags.ofWord f.toWord = f := by
  obtain ⟨z, c, o, s, i⟩ := f
  revert z c o s i
  decide

/-- Settles O58: a load of the Flags register is its word, a store sets it from the word. -/
theorem flagsRegisterAsMemory : Obligations.FlagsRegisterAsMemory := by
  refine ⟨fun s n hwf hRegs => ?_, fun s v => ?_⟩
  · obtain ⟨hValue, hState⟩ := loadValue_flags (everyByteIs_flags s.memMap)
    refine ⟨_, exec_mov_direct_reg (loadOk_of_storeOk (storeOk_flags s.memMap)) hRegs, ?_⟩
    rw [hValue, hState, State.reg_setReg_same hwf]
    exact ⟨rfl, toWord_toNat s.flags⟩
  · rw [exec_mov_imm_direct (storeOk_flags s.memMap), storeState_flags_word (everyByteIs_flags s.memMap)]
    rfl

/-- Settles O53: the push stores the word of the flags, the pop loads it and the store sets the flags from it. -/
theorem flagsSavedByPushAndPop : Obligations.FlagsSavedByPushAndPop := by
  intro s f hwf hPush hOther
  obtain ⟨hRead, hValue, hR15, hBytes⟩ := pop_after_push hwf hPush hOther
  obtain ⟨hLoad, hState⟩ := loadValue_flags (everyByteIs_flags s.memMap)
  have hSave : exec (.mov (.direct .word 0xC000) .stack) s = .next (afterWrite .stack s.flags.toWord s) :=
    exec_mov_next rfl (loadOk_of_storeOk (storeOk_flags s.memMap)) hLoad hState hPush
  have hRestore : exec (.mov .stack (.direct .word 0xC000)) ((afterWrite .stack s.flags.toWord s).withFlags f) =
      .next ((afterRead .stack (afterWrite .stack s.flags.toWord s)).withFlags s.flags) := by
    refine (exec_mov_next (s := (afterWrite .stack s.flags.toWord s).withFlags f) (dst := .direct .word 0xC000) rfl hRead
      hValue rfl (storeOk_flags s.memMap)).trans (congrArg Host.Outcome.next ?_)
    change storeState 0xC000 .word s.flags.toWord _ = _
    rw [storeState_flags_word (everyByteIs_flags _), ofWord_toWord]
    rfl
  exact ⟨_, _, hSave, hRestore, rfl, hR15, hBytes⟩

/-! ### Device registers (R34, R61) -/

/-- Settles O59: a word stored to a device register is recorded, and held if it is Interrupt Enable. -/
theorem deviceRegisterWrites : Obligations.DeviceRegisterWrites := by
  intro s v
  rw [exec_mov_imm_direct (storeOk_intEnable s.memMap), exec_mov_imm_direct (storeOk_gpio s.memMap),
    storeState_device_word (everyByteIs_intEnable s.memMap), storeState_device_word (everyByteIs_gpio s.memMap)]
  exact ⟨rfl, rfl⟩

theorem regbankValue_high (s : State) {k : Nat} (h : 5 ≤ k) : (regbankValue s).getLsbD k = s.regbank.getLsbD k := by
  have hAppend : (regbankValue s).getLsbD k = (s.regbank.extractLsb' 5 11).getLsbD (k - 5) :=
    BitVec.getLsbD_append.trans (if_neg (by omega))
  rw [hAppend, BitVec.getLsbD_extractLsb', Nat.add_sub_cancel' h]
  by_cases hk : k < 16
  · simp [show k - 5 < 11 by omega]
  · rw [BitVec.getLsbD_of_ge _ _ (by omega), Bool.and_false]

/-- Settles O60: a load of a device register is a free value, one of REGBANK has its upper eleven bits. -/
theorem deviceRegisterReads : Obligations.DeviceRegisterReads := by
  intro s n hwf hRegs
  obtain ⟨hGpio, hGpioState⟩ := loadValue_device (everyByteIs_gpio s.memMap)
  obtain ⟨hIrq, hIrqState⟩ := loadValue_device (everyByteIs_intEnable s.memMap)
  obtain ⟨hBank, hBankState⟩ := loadValue_regbank (everyByteIs_regbank s.memMap)
  rw [exec_mov_direct_reg (loadOk_of_storeOk (storeOk_gpio s.memMap)) hRegs, hGpio, hGpioState,
    exec_mov_direct_reg (loadOk_of_storeOk (storeOk_intEnable s.memMap)) hRegs, hIrq, hIrqState]
  refine ⟨rfl, rfl, _, exec_mov_direct_reg (loadOk_of_storeOk (storeOk_regbank s.memMap)) hRegs, ?_⟩
  rw [hBank, hBankState]
  exact ⟨rfl, fun k hk => by rw [State.reg_setReg_same (s := s.drawn) hwf, regbankValue_high s hk]⟩

end Sys2Proof.Machine
end

section
/-! PROOFS. What instructions leave unchanged: the frames of the access functions (Sys2Proof/Laws/Frames.lean), put together
for each family. -/

namespace Sys2Proof.Machine

/-! ### Operations and I -/

theorem dualAlu_keeps_i (op : DualOp) (v d : Word) (f : Flags) : (dualAlu op v d f).2.i = f.i := by cases op <;> rfl

theorem countAlu_keeps_i (op : CountOp) (k : Nat) (d : Word) (f : Flags) : (countAlu op k d f).2.i = f.i := by
  cases op <;> rfl

theorem unaryAlu_keeps_i (op : UnaryOp) (d : Word) (f : Flags) : (unaryAlu op d f).2.i = f.i := by cases op <;> rfl

theorem singleRules_keep_i {n : BitVec 3} {dst : Operand} {p : Instr × Alu} (h : p ∈ countRules n dst ++ unaryRules dst)
    (d : Word) (f : Flags) : (p.2 d f).2.i = f.i := by
  rw [countRules_eq, unaryRules_eq, List.mem_append, List.mem_map, List.mem_map] at h
  rcases h with ⟨op, -, rfl⟩ | ⟨op, -, rfl⟩
  · exact countAlu_keeps_i op _ d f
  · exact unaryAlu_keeps_i op d f

/-! ### Dual operand instructions -/

theorem afterRead_sameControl (op : Operand) (s : State) : SameControl s (afterRead op s) := by simp [SameControl]

theorem SameControl.trans {s t u : State} (h : SameControl s t) (h' : SameControl t u) : SameControl s u := by
  simp_all [SameControl]

/-- Reading the source first changes no control state. -/
theorem SameControlBut.before {dst src : Operand} {u s t : State} (h : SameControlBut dst u (afterRead src s) t) :
    SameControlBut dst u s t := by
  simpa [SameControlBut] using h

/-- Settles O28: the frame of reading the source, then that of writing the destination. -/
theorem movFrame : Obligations.MovFrame := by
  intro src dst s t h
  obtain ⟨-, -, hDst, rfl⟩ := exec_mov_next_iff.mp h
  refine ⟨(afterRead_sameBytes src s).trans (afterWrite_sameBytes hDst), (afterWrite_sameControlBut hDst).before,
    by simp, fun hFlags => ?_⟩
  rw [afterWrite_flags hDst, hFlags, afterRead_flags]
  rfl

/-- Settles O29: the frame of reading the source, then that of changing the destination. -/
theorem dualModifyFrame : Obligations.DualModifyFrame := by
  intro src dst s t p hp h
  obtain ⟨op, hRole, rfl⟩ := mem_dualModifyRules hp
  obtain ⟨-, -, hFinish⟩ := exec_dual_next_iff.mp h
  rw [dualFinish_modify hRole, modifyOperand_next_iff] at hFinish
  obtain ⟨hDst, rfl⟩ := hFinish
  refine ⟨(afterRead_sameBytes src s).trans (afterModify_sameBytes hDst), (afterModify_sameControlBut hDst).before,
    by simp, ?_⟩
  rw [afterModify_flags hDst, dualAlu_keeps_i, afterRead_flags]

/-- Settles O30: the frames of the two readings. -/
theorem dualCompareFrame : Obligations.DualCompareFrame := by
  intro src dst s t p hp h
  obtain ⟨op, hRole, rfl⟩ := mem_dualCompareRules hp
  obtain ⟨-, -, hFinish⟩ := exec_dual_next_iff.mp h
  rw [dualFinish_compare hRole, compareOperand_next_iff] at hFinish
  obtain ⟨-, rfl⟩ := hFinish
  refine ⟨(afterRead_sameBytes src s).trans (afterRead_sameBytes dst (afterRead src s)),
    (afterRead_sameControl src s).trans (afterRead_sameControl dst _), by simp, ?_⟩
  rw [State.withFlags_flags, dualAlu_keeps_i, afterRead_flags, afterRead_flags]

/-! ### Single operand instructions -/

/-- Settles O35: the frame of changing the destination. -/
theorem singleFrame : Obligations.SingleFrame := by
  intro n dst s t p hp h
  rw [exec_singleRules hp, modifyOperand_next_iff] at h
  obtain ⟨hDst, rfl⟩ := h
  refine ⟨afterModify_sameBytes hDst, afterModify_sameControlBut hDst, afterModify_pc dst p.2 s, ?_⟩
  rw [afterModify_flags hDst, singleRules_keep_i hp]

/-! ### Program control -/

theorem push_sameControl (v : Word) (s : State) : SameControl s (afterWrite .stack v s) := by
  simp [SameControl, afterWrite]

theorem SameControl.refl (s : State) : SameControl s s := by simp [SameControl]

theorem jumpRel_frame {cc : Cond} {off : BitVec 7} {s t : State} (h : jumpRel cc off s = .next t) :
    (SameControl s t ∧ t.flags = s.flags) ∧ SameBytesOutside [] s t := by
  rw [jumpRel_next h]
  split <;> exact ⟨⟨.refl s, rfl⟩, .refl [] s⟩

theorem jumpAbs_frame {cc : Cond} {op : Operand} {s t : State} (h : jumpAbs cc op s = .next t) :
    (SameControl s t ∧ t.flags = s.flags) ∧ SameBytesOutside (readBytes op s) s t := by
  rcases jumpAbs_next h with ⟨-, rfl⟩ | ⟨-, -, -, rfl⟩
  · exact ⟨⟨.refl t, rfl⟩, .refl _ t⟩
  · exact ⟨⟨afterRead_sameControl op s, afterRead_flags op s⟩, afterRead_sameBytes op s⟩

theorem returnIf_frame {cc : Cond} {s t : State} (h : returnIf cc s = .next t) :
    (SameControl s t ∧ t.flags = s.flags) ∧ SameBytesOutside (readBytes .stack s) s t := by
  rcases returnIf_next h with ⟨-, rfl⟩ | ⟨-, -, -, rfl⟩
  · exact ⟨⟨.refl t, rfl⟩, .refl _ t⟩
  · exact ⟨⟨afterRead_sameControl .stack s, rfl⟩, afterRead_sameBytes .stack s⟩

theorem callIf_frame {cc : Cond} {op : Operand} {s t : State} (h : callIf cc op s = .next t) :
    (SameControl s t ∧ t.flags = s.flags) ∧
      SameBytesOutside (readBytes op s ++ writeBytes .stack s.pc (afterRead op s)) s t := by
  rcases callIf_next h with ⟨-, rfl⟩ | ⟨-, -, -, hPush, rfl⟩
  · exact ⟨⟨.refl t, rfl⟩, .refl _ t⟩
  · exact ⟨⟨(afterRead_sameControl op s).trans (push_sameControl s.pc (afterRead op s)), afterRead_flags op s⟩,
      (afterRead_sameBytes op s).trans (afterWrite_sameBytes hPush)⟩

theorem execInt_frame {v : BitVec 7} {s t : State} (h : exec (.int v) s = .next t) :
    (SameControl s t ∧ t.flags = s.flags) ∧ SameBytesOutside (writeBytes .stack s.pc s) s t := by
  obtain ⟨hPush, -, rfl⟩ := enterHandler_next (maskI := false) h
  exact ⟨⟨push_sameControl s.pc s, rfl⟩, afterWrite_sameBytes hPush⟩

/-- Settles O49: the frames of the five kinds of transfer. -/
theorem controlFrame : Obligations.ControlFrame := by
  intro off v op s t
  have rel : ∀ p ∈ relJumps off s.flags, exec p.1 s = .next t →
      (SameControl s t ∧ t.flags = s.flags) ∧ SameBytesOutside [] s t := fun p hp h => by
    obtain ⟨cc, hInstr, -⟩ := mem_relJumps hp
    rw [hInstr, exec_instr] at h; exact jumpRel_frame h
  have abs : ∀ p ∈ absJumps op s.flags, exec p.1 s = .next t →
      (SameControl s t ∧ t.flags = s.flags) ∧ SameBytesOutside (readBytes op s) s t := fun p hp h => by
    obtain ⟨cc, hInstr, -⟩ := mem_absJumps hp
    rw [hInstr, exec_instr] at h; exact jumpAbs_frame h
  have ret : ∀ p ∈ returns s.flags, exec p.1 s = .next t →
      (SameControl s t ∧ t.flags = s.flags) ∧ SameBytesOutside (readBytes .stack s) s t := fun p hp h => by
    obtain ⟨cc, hInstr, -⟩ := mem_returns hp
    rw [hInstr, exec_instr] at h; exact returnIf_frame h
  have call : ∀ p ∈ calls op s.flags, exec p.1 s = .next t → (SameControl s t ∧ t.flags = s.flags) ∧
      SameBytesOutside (readBytes op s ++ writeBytes .stack s.pc (afterRead op s)) s t := fun p hp h => by
    obtain ⟨cc, hInstr, -⟩ := mem_calls hp
    rw [hInstr, exec_instr] at h; exact callIf_frame h
  refine ⟨fun p hp h => ?_, fun p hp h => (rel p hp h).2, fun p hp h => (abs p hp h).2, fun p hp h => (ret p hp h).2,
    fun p hp h => (call p hp h).2, fun h => (execInt_frame h).2⟩
  simp only [List.mem_append, List.mem_singleton] at hp
  rcases hp with (((hp | hp) | hp) | hp) | rfl
  · exact (rel p hp h).1
  · exact (abs p hp h).1
  · exact (call p hp h).1
  · exact (ret p hp h).1
  · exact (execInt_frame h).1

end Sys2Proof.Machine
end

section
/-! PROOFS. What every step keeps (10_state.md R33, R36, 20_memory.md R62): one relation between a state and the state
after an instruction, which each access function, each instruction, the fetch and the entry to a handler satisfy. -/

namespace Sys2Proof.Machine

/-- What no instruction, fetch or entry to a handler changes: the latches, the memory map, the turns to come, the bytes
outside RAM; and what each of them keeps: memory canonical, `pc` even. -/
structure Kept (s t : State) : Prop where
  pending : t.pending = s.pending
  memMap : t.memMap = s.memMap
  turns : t.turns = s.turns
  wf : s.mem.wf → t.mem.wf
  pcEven : isOdd s.pc = false → isOdd t.pc = false
  bytes : ∀ a, memClass s.memMap a ≠ .ram → t.byteAt a = s.byteAt a

theorem Kept.refl (s : State) : Kept s s := ⟨rfl, rfl, rfl, id, id, fun _ _ => rfl⟩

theorem Kept.trans {s t u : State} (h : Kept s t) (h' : Kept t u) : Kept s u where
  pending := h'.pending.trans h.pending
  memMap := h'.memMap.trans h.memMap
  turns := h'.turns.trans h.turns
  wf := h'.wf ∘ h.wf
  pcEven := h'.pcEven ∘ h.pcEven
  bytes a ha := (h'.bytes a (h.memMap ▸ ha)).trans (h.bytes a ha)

/-- A jump to an even address keeps all of it. -/
theorem Kept.withPc {s t : State} (h : Kept s t) {a : Word} (ha : isOdd a = false) : Kept s { t with pc := a } :=
  ⟨h.pending, h.memMap, h.turns, h.wf, fun _ => ha, h.bytes⟩

theorem Kept.withFlags {s t : State} (h : Kept s t) (f : Flags) : Kept s (t.withFlags f) :=
  ⟨h.pending, h.memMap, h.turns, h.wf, h.pcEven, h.bytes⟩

/-! ### The bytes that an access changes are RAM -/

theorem regBytes_ram {s : State} (h : regsOk s = true) {r : RegNum} {b : Word} (hb : b ∈ regBytes s r) :
    memClass s.memMap b = .ram := by
  obtain ⟨h0, h1⟩ := everyByteIs_word.mp (everyByteIs_reg h r)
  rcases List.mem_pair.mp hb with rfl | rfl
  · exact h0
  · exact h1

theorem slotBytes_ram {m : MemMap} {a b : Word} (h : slotOk m a = true) (hb : b ∈ bytesAt a .word) :
    memClass m b = .ram := by
  obtain ⟨h0, h1⟩ := everyByteIs_word.mp (slotOk_iff.mp h).2
  rcases List.mem_pair.mp hb with rfl | rfl
  · exact h0
  · exact h1

theorem storedBytes_ram {m : MemMap} {a b : Word} {w : Width} (hb : b ∈ storedBytes m a w) : memClass m b = .ram := by
  simpa using (List.mem_filter.mp hb).2

theorem readBytes_ram {op : Operand} {s : State} (h : readable op s = true) {b : Word} (hb : b ∈ readBytes op s) :
    memClass s.memMap b = .ram := by
  cases op with
  | reg | imm | direct | indirect | indexed => cases hb
  | autoInc | stack => exact regBytes_ram (Bool.and_eq_true_iff.mp h).1 hb

theorem writeBytes_ram {op : Operand} {v : Word} {s : State} (h : writable op v s = true) {b : Word}
    (hb : b ∈ writeBytes op v s) : memClass s.memMap b = .ram := by
  cases op with
  | imm => cases hb
  | reg => exact regBytes_ram h hb
  | direct | indirect | indexed => exact storedBytes_ram hb
  | autoInc w r =>
    rcases List.mem_append.mp hb with hb | hb
    · exact storedBytes_ram hb
    · simpa using regBytes_ram (Bool.and_eq_true_iff.mp h).2 hb
  | stack =>
    obtain ⟨hRegs, hSlot⟩ := Bool.and_eq_true_iff.mp h
    rcases List.mem_append.mp hb with hb | hb
    · exact regBytes_ram hRegs hb
    · exact slotBytes_ram hSlot hb

@[simp] theorem modifiedAt_memMap (a : Word) (w : Width) (g : Alu) (s : State) :
    (modifiedAt a w g s).memMap = s.memMap := by
  simp [modifiedAt]

theorem modifyBytes_ram {op : Operand} {g : Alu} {s : State} (h : modifiable op g s = true) {b : Word}
    (hb : b ∈ modifyBytes op g s) : memClass s.memMap b = .ram := by
  cases op with
  | imm | stack => cases hb
  | reg => exact regBytes_ram h hb
  | direct | indirect | indexed => exact storedBytes_ram hb
  | autoInc w r =>
    rcases List.mem_append.mp hb with hb | hb
    · exact storedBytes_ram hb
    · simpa using regBytes_ram (Bool.and_eq_true_iff.mp h).2 hb

/-! ### The access functions -/

theorem afterRead_kept {op : Operand} {s : State} (h : readable op s = true) : Kept s (afterRead op s) where
  pending := afterRead_pending op s
  memMap := afterRead_memMap op s
  turns := afterRead_turns op s
  wf hwf := afterRead_wf hwf op
  pcEven hPc := by rwa [afterRead_pc]
  bytes a ha := afterRead_sameBytes op s a fun hm => ha (readBytes_ram h hm)

theorem afterWrite_kept {op : Operand} {v : Word} {s : State} (h : writable op v s = true) :
    Kept s (afterWrite op v s) := by
  obtain ⟨hPending, -, hMap, hTurns, -⟩ := afterWrite_sameControlBut h
  exact ⟨hPending, hMap, hTurns, fun hwf => afterWrite_wf hwf op v, fun hPc => by rwa [afterWrite_pc],
    fun a ha => afterWrite_sameBytes h a fun hm => ha (writeBytes_ram h hm)⟩

theorem afterModify_kept {op : Operand} {g : Alu} {s : State} (h : modifiable op g s = true) :
    Kept s (afterModify op g s) := by
  obtain ⟨hPending, -, hMap, hTurns, -⟩ := afterModify_sameControlBut h
  exact ⟨hPending, hMap, hTurns, fun hwf => afterModify_wf hwf op g, fun hPc => by rwa [afterModify_pc],
    fun a ha => afterModify_sameBytes h a fun hm => ha (modifyBytes_ram h hm)⟩

/-! ### The instructions -/

theorem dualFinish_kept {op : DualOp} {dst : Operand} {v : Word} {s t : State} (h : dualFinish op dst v s = .next t) :
    Kept s t := by
  cases hRole : dualRole op <;> simp only [dualFinish, hRole] at h
  · obtain ⟨hDst, rfl⟩ := writeOperand_next_iff.mp h
    exact afterWrite_kept hDst
  · obtain ⟨hDst, rfl⟩ := modifyOperand_next_iff.mp h
    exact afterModify_kept hDst
  · obtain ⟨hDst, rfl⟩ := compareOperand_next_iff.mp h
    exact (afterRead_kept hDst).withFlags _

theorem isOdd_add_even (a : Word) {b : Word} (h : isOdd b = false) : isOdd (a + b) = isOdd a := by
  rw [isOdd_eq, decide_eq_false_iff_not] at h
  rw [isOdd_eq, isOdd_eq, BitVec.toNat_add, decide_eq_decide]
  omega

/-- A relative jump from an even address goes to one (R172). -/
theorem relTarget_even {off : BitVec 7} {s : State} (h : isOdd s.pc = false) : isOdd (relTarget off s) = false := by
  have hOff : isOdd (off.signExtend 16 <<< 1) = false := by
    rw [isOdd, BitVec.getLsbD_shiftLeft]; rfl
  exact (isOdd_add_even s.pc hOff).trans h

theorem miscState_kept (op : MiscOp) (s : State) : Kept s (miscState op s) := by
  cases op with
  | sti =>
    simp only [miscState]
    split
    · exact .refl s
    · exact ⟨rfl, rfl, rfl, id, id, fun _ _ => rfl⟩
  | cli | stc | clc => exact (Kept.refl s).withFlags _

theorem enterHandler_kept {v : BitVec 7} {maskI : Bool} {s t : State} (h : enterHandler v maskI s = .next t) :
    Kept s t := by
  obtain ⟨hPush, hEven, rfl⟩ := enterHandler_next h
  exact ((afterWrite_kept hPush).withFlags (entryFlags maskI s.flags)).withPc hEven

/-- Every instruction keeps what `Kept` says. -/
theorem exec_kept {i : Instr} {s t : State} (h : exec i s = .next t) : Kept s t := by
  rw [exec_eq_execShape] at h
  cases hShape : i.shape with
  | dual op src dst =>
    rw [hShape] at h
    obtain ⟨-, hSrc, hFinish⟩ := withSource_next_iff.mp h
    exact (afterRead_kept hSrc).trans (dualFinish_kept hFinish)
  | jump cc off =>
    rw [hShape] at h
    rw [jumpRel_next h]
    split
    · exact ⟨rfl, rfl, rfl, id, relTarget_even, fun _ _ => rfl⟩
    · exact .refl s
  | jumpLong cc op =>
    rw [hShape] at h
    rcases jumpAbs_next h with ⟨-, rfl⟩ | ⟨-, hRead, hEven, rfl⟩
    · exact .refl t
    · exact (afterRead_kept hRead).withPc hEven
  | ret cc =>
    rw [hShape] at h
    rcases returnIf_next h with ⟨-, rfl⟩ | ⟨-, hRead, hEven, rfl⟩
    · exact .refl t
    · exact (afterRead_kept hRead).withPc hEven
  | call cc op =>
    rw [hShape] at h
    rcases callIf_next h with ⟨-, rfl⟩ | ⟨-, hRead, hEven, hPush, rfl⟩
    · exact .refl t
    · exact ((afterRead_kept hRead).trans (afterWrite_kept hPush)).withPc hEven
  | int v =>
    rw [hShape] at h
    exact enterHandler_kept h
  | count op n dst =>
    rw [hShape] at h
    obtain ⟨hDst, rfl⟩ := modifyOperand_next_iff.mp h
    exact afterModify_kept hDst
  | unary op dst =>
    rw [hShape] at h
    obtain ⟨hDst, rfl⟩ := modifyOperand_next_iff.mp h
    exact afterModify_kept hDst
  | misc op =>
    rw [hShape] at h
    cases h
    exact miscState_kept op s

/-! ### The fetch -/

/-- A fetch changes `pc` and the draws. -/
theorem fetch16_kept {s : State} {p : Word × State} (h : fetch16 s = .next p) :
    Kept s p.2 ∧ p.2.flags = s.flags ∧ p.2.stiShadow = s.stiShadow := by
  obtain ⟨hEven, -, rfl⟩ := fetch16_next h
  refine ⟨⟨?_, ?_, ?_, ?_, fun _ => ?_, ?_⟩, afterLoad_flags _ _ _, afterLoad_stiShadow _ _ _⟩
  · exact afterLoad_pending _ _ _
  · exact afterLoad_memMap _ _ _
  · exact afterLoad_turns _ _ _
  · exact fun hwf => by simpa using hwf
  · exact (isOdd_add_two s.pc).trans hEven
  · exact fun a _ => afterLoad_byteAt _ _ _ _

theorem fetchExt_kept {due : Bool} {s : State} {p : Word × State} (h : fetchExt due s = .next p) :
    Kept s p.2 ∧ p.2.flags = s.flags ∧ p.2.stiShadow = s.stiShadow := by
  cases due with
  | true => exact fetch16_kept h
  | false => cases h; exact ⟨.refl s, rfl, rfl⟩

theorem fetchInstr_kept {s : State} {p : Instr × State} (h : fetchInstr s = .next p) :
    Kept s p.2 ∧ p.2.flags = s.flags ∧ p.2.stiShadow = s.stiShadow := by
  simp only [fetchInstr, bindOut_next_iff] at h
  obtain ⟨p0, h0, p1, h1, p2, h2, hDecode⟩ := h
  obtain ⟨k0, f0, i0⟩ := fetch16_kept h0
  obtain ⟨k1, f1, i1⟩ := fetchExt_kept h1
  obtain ⟨k2, f2, i2⟩ := fetchExt_kept h2
  split at hDecode
  · cases hDecode
    exact ⟨k0.trans (k1.trans k2), f2.trans (f1.trans f0), i2.trans (i1.trans i0)⟩
  · cases hDecode

/-! ### The step -/

theorem boundaryPassed_kept (s : State) : Kept s (boundaryPassed s) := ⟨rfl, rfl, rfl, id, id, fun _ _ => rfl⟩

/-- A step of the CPU that runs an instruction keeps all of it; one that enters a handler clears the latch besides. -/
theorem cpuStep_kept {s t : State} (h : cpuStep s = .next t) :
    (irqTaken s = none ∧ Kept s t) ∨
      ∃ k u, irqTaken s = some k ∧ Kept s u ∧ t = { u with pending := s.pending.filter (· != k) } := by
  rcases cpuStep_next_cases h with ⟨hNone, p, hFetch, hExec⟩ | ⟨k, hSome, hEntry⟩
  · exact .inl ⟨hNone, (boundaryPassed_kept s).trans ((fetchInstr_kept hFetch).1.trans (exec_kept hExec))⟩
  · obtain ⟨u, hu, hPending⟩ := bindOut_next_iff.mp hEntry
    cases hPending
    have hKept := (boundaryPassed_kept s).trans (enterHandler_kept hu)
    exact .inr ⟨k, u, hSome, hKept, by rw [hKept.pending]⟩

/-- Of the environment's actions a request sets its latch, and no other changes the latches (R226). -/
theorem environment_pending (act : EnvAction) (s : State) :
    ((∀ k, act ≠ .request k) ∧ (environment act s).pending = s.pending) ∨
      ∃ k, act = .request k ∧ (environment act s).pending = insertVector k s.pending := by
  cases act with
  | request k => exact .inr ⟨k, rfl, rfl⟩
  | read a => exact .inl ⟨nofun, rfl⟩
  | write a v =>
    refine .inl ⟨nofun, ?_⟩
    simp only [environment, environmentWrite]
    cases memClass s.memMap a <;> rfl

/-- Settles O10: the environment keeps the invariant, and so does the CPU, which keeps the latches or clears one. -/
theorem stepKeepsInvariant : Obligations.StepKeepsInvariant := by
  rintro s t ⟨hwf, hPc, hPending⟩ h
  rcases step_next_cases h with ⟨act, -, rfl⟩ | ⟨-, hCpu⟩
  · obtain ⟨hSame, -⟩ := environment_same act (turnTaken s)
    refine ⟨environment_wf (s := turnTaken s) hwf act, by rwa [hSame], ?_⟩
    rcases environment_pending act (turnTaken s) with ⟨-, hSet⟩ | ⟨k, -, hSet⟩ <;> rw [hSet]
    · exact hPending
    · exact insertVector_pairwise k s.pending hPending
  · rcases cpuStep_kept hCpu with ⟨-, hKept⟩ | ⟨k, u, -, hKept, rfl⟩
    · exact ⟨hKept.wf hwf, hKept.pcEven hPc, by rw [hKept.pending]; exact hPending⟩
    · exact ⟨hKept.wf hwf, hKept.pcEven hPc, hPending.filter _⟩

/-- Settles O12: the environment writes RAM alone, and so does the CPU. -/
theorem stepWritesOnlyRam : Obligations.StepWritesOnlyRam := by
  intro s t h
  rcases step_next_cases h with ⟨act, -, rfl⟩ | ⟨-, hCpu⟩
  · obtain ⟨-, -, -, -, -, -, hMap, hTurns⟩ := environment_same act (turnTaken s)
    exact ⟨hMap, hTurns, fun a ha => environment_byteAt act (turnTaken s) a fun _ _ => ha⟩
  · rcases cpuStep_kept hCpu with ⟨-, hKept⟩ | ⟨k, u, -, hKept, rfl⟩ <;>
      exact ⟨hKept.memMap, hKept.turns, hKept.bytes⟩

/-- Settles O13: what each kind of step does with the latches. -/
theorem stepClearsOnlyTheTakenLatch : Obligations.StepClearsOnlyTheTakenLatch := by
  intro s t h
  rcases step_next_cases h with ⟨act, hAct, rfl⟩ | ⟨hCpu, hStep⟩
  · rw [hAct]
    rcases environment_pending act (turnTaken s) with ⟨hOther, hSet⟩ | ⟨k, rfl, hSet⟩
    · cases act with
      | request k => exact absurd rfl (hOther k)
      | write | read => exact hSet
    · exact fun j => hSet ▸ mem_insertVector k j s.pending
  · rw [hCpu]
    rcases cpuStep_kept hStep with ⟨hNone, hKept⟩ | ⟨k, u, hSome, -, rfl⟩
    · exact .inl ⟨hNone, hKept.pending⟩
    · exact .inr ⟨k, hSome, rfl⟩

end Sys2Proof.Machine
end

section
/-! PROOFS. The step (30_encoding.md R81, 60_exceptions.md R241): which agent moves, what it fetches, and what the
environment can do. -/

namespace Sys2Proof.Machine

/-- Settles O5: the words of the spec's examples, each read off the formats. -/
theorem decodeExamples : Obligations.DecodeExamples :=
  ⟨rfl, rfl, rfl, rfl, rfl, rfl, rfl, rfl, rfl, rfl, rfl, rfl, rfl⟩

/-- Settles O11: the reset state is a literal. -/
theorem resetState : Obligations.ResetState :=
  ⟨⟨State.reset_wf, by decide, List.Pairwise.nil⟩, rfl, rfl⟩

/-! ### Which agent moves -/

theorem step_cpu {s : State} (h : envMove s = none) : step s = cpuStep (turnTaken s) := by
  rw [step, h]

theorem step_env {s : State} {act : EnvAction} (h : envMove s = some act) :
    step s = .next (environment act (turnTaken s)) := by
  rw [step, h]

/-- A step of the CPU that takes no interrupt fetches and runs an instruction. -/
theorem step_instr {s : State} (h : envMove s = none) (hIrq : irqTaken s = none) :
    step s = instrStep (turnTaken s) := by
  have hIrq' : irqTaken (turnTaken s) = none := hIrq
  rw [step_cpu h, cpuStep, hIrq']

theorem step_takes {s : State} {k : Fin 64} (h : envMove s = none) (hIrq : irqTaken s = some k) :
    step s = takeInterrupt k (boundaryPassed (turnTaken s)) := by
  have hIrq' : irqTaken (turnTaken s) = some k := hIrq
  rw [step_cpu h, cpuStep, hIrq']

/-- With I at 0 no interrupt is taken (R223). -/
theorem irqTaken_masked {s : State} (h : s.flags.i = false) : irqTaken s = none := by
  rw [irqTaken, h]; rfl

/-- An interrupt is taken only where it is acceptable (R223, R225). -/
theorem irqTaken_some {s : State} {h : Fin 64} (hIrq : irqTaken s = some h) :
    s.flags.i = true ∧ h ∈ s.pending ∧ Config.hwVector h = true ∧ Config.irqEnabled s.draws h s.intEnable = true ∧
      (s.stiShadow = true → Config.stiShadow = false) := by
  unfold irqTaken at hIrq
  split at hIrq
  case isFalse => cases hIrq
  case isTrue hOpen =>
    split at hIrq
    case h_2 => cases hIrq
    case h_1 k _ =>
      split at hIrq
      case isFalse => cases hIrq
      case isTrue hAcceptable =>
        cases hIrq
        simp only [Bool.and_eq_true, Bool.not_eq_true', Bool.and_eq_false_iff] at hOpen
        simp only [irqAcceptable, Bool.and_eq_true, List.contains_iff_mem] at hAcceptable
        obtain ⟨⟨hI, -⟩, hShadow⟩ := hOpen
        obtain ⟨⟨hPending, hVector⟩, hEnabled⟩ := hAcceptable
        exact ⟨hI, hPending, hVector, hEnabled, fun hs => hShadow.resolve_left (by simp [hs])⟩

/-! ### The fetch -/

theorem fetch16_odd {s : State} (h : isOdd s.pc = true) : fetch16 s = .fault .oddPC := by
  rw [fetch16, if_pos h]

theorem wordInMemory_iff {s : State} {a : Word} :
    wordInMemory s a = true ↔ (memClass s.memMap a = .ram ∨ memClass s.memMap a = .rom) ∧
      (memClass s.memMap (a + 1) = .ram ∨ memClass s.memMap (a + 1) = .rom) := by
  simp [wordInMemory]

/-- A load from RAM or ROM answers the word there and draws nothing. -/
theorem load_memory {s : State} {a : Word} (hEven : isOdd a = false) (hMem : wordInMemory s a = true) :
    load a .word s = .next (s.wordAt a, s) := by
  obtain ⟨h0, h1⟩ := wordInMemory_iff.mp hMem
  have hOther : ∀ c, c ≠ .ram → c ≠ .rom → someByteIs s.memMap c a .word = false := fun c hRam hRom => by
    have hClass : ∀ {b}, (memClass s.memMap b = .ram ∨ memClass s.memMap b = .rom) → memClass s.memMap b ≠ c :=
      fun h e => h.elim (fun h => hRam (e.symm.trans h)) (fun h => hRom (e.symm.trans h))
    rw [← Bool.not_eq_true, someByteIs_word]
    exact not_or.mpr ⟨hClass h0, hClass h1⟩
  refine load_next_iff.mpr ⟨by simp [loadOk, hEven, hOther], ?_⟩
  rw [loadValue_word h0 h1, afterLoad_memory (by rcases h0 with h0 | h0 <;> simp [h0]) (hOther _ (by simp) (by simp))]

/-- A fetch from RAM or ROM reads the word and moves `pc` past it. -/
theorem fetch16_memory {s : State} (hEven : isOdd s.pc = false) (hMem : wordInMemory s s.pc = true) :
    fetch16 s = .next (s.wordAt s.pc, { s with pc := s.pc + 2 }) := by
  rw [fetch16, if_neg (by simp [hEven]), load_memory hEven hMem]; rfl

/-- Settles O9: the fetch of the instruction word faults. -/
theorem fetchAtOddPcFaults : Obligations.FetchAtOddPcFaults := by
  intro s hEnv hIrq hOdd
  rw [step_instr hEnv hIrq, instrStep, fetchInstr, fetch16_odd (s := boundaryPassed (turnTaken s)) hOdd]; rfl

/-- A reserved word faults when it is fetched, before any extension word is (R99). -/
theorem fetchInstr_reserved {s : State} (hEven : isOdd s.pc = false) (hMem : wordInMemory s s.pc = true)
    (h : isReserved (s.wordAt s.pc) = true) : fetchInstr s = .fault (.reservedInstruction (s.wordAt s.pc)) := by
  rw [fetchInstr, fetch16_memory hEven hMem, bindOut_next, extCount_reserved h]
  change (match decode (s.wordAt s.pc) 0 0 with | .ok i => _ | .error _ => _) = _
  rw [(decode_reserved_iff _ 0 0).mpr h]

/-- Settles O4: the decoder refuses the words of the table, and the fetch faults where the decoder refuses. -/
theorem reservedWords : Obligations.ReservedWords := by
  refine ⟨decode_reserved_iff, fun iw e1 e2 h => decode_ok_of_not_reserved h e1 e2,
    fun s hEnv hIrq hEven hMem hReserved => ?_⟩
  rw [step_instr hEnv hIrq, instrStep, fetchInstr_reserved (s := boundaryPassed (turnTaken s)) hEven hMem hReserved]
  rfl

/-- The words stand one after the other in RAM or ROM from `pc` on. -/
def WordsStandAtPc (s : State) (ws : List Word) : Prop :=
  ∀ k v, ws[k]? = some v →
    wordInMemory s (s.pc + BitVec.ofNat 16 (2 * k)) = true ∧ s.wordAt (s.pc + BitVec.ofNat 16 (2 * k)) = v

theorem isOdd_double (k : Nat) : isOdd (BitVec.ofNat 16 (2 * k)) = false := by
  rw [isOdd_eq, decide_eq_false_iff_not, BitVec.toNat_ofNat]; omega

/-- The fetch of the `k`-th word of an instruction that stands in memory. -/
theorem fetchExt_stands {s : State} {ws : List Word} (hEven : isOdd s.pc = false) (h : WordsStandAtPc s ws) (k : Nat)
    {v : Word} (hv : ws[k]? = some v) :
    fetchExt true { s with pc := s.pc + BitVec.ofNat 16 (2 * k) } =
      .next (v, { s with pc := s.pc + BitVec.ofNat 16 (2 * (k + 1)) }) := by
  obtain ⟨hMem, rfl⟩ := h k v hv
  have hNext : s.pc + BitVec.ofNat 16 (2 * (k + 1)) = s.pc + BitVec.ofNat 16 (2 * k) + 2 := by
    rw [BitVec.add_assoc, Nat.mul_succ, BitVec.ofNat_add]; rfl
  rw [hNext]
  exact fetch16_memory (s := { s with pc := s.pc + BitVec.ofNat 16 (2 * k) })
    ((isOdd_add_even s.pc (isOdd_double k)).trans hEven) hMem

theorem fetchExt_none (s : State) : fetchExt false s = .next (0, s) := rfl

/-- The words of a well-formed instruction, 0 for an extension word that it has not, decode to it (R81). -/
theorem decode_words {i : Instr} (h : i.wf = true) :
    decode i.shape.word (i.shape.exts.getD 0 0) (i.shape.exts.getD 1 0) = .ok i := by
  have hShape := decodeShape_word (wf_eq_shape_wf i ▸ h) []
  rw [List.append_nil] at hShape
  simp only [decode, hShape, Laws.shape_instr]

/-- The fetch puts together its three fetches (R81). -/
theorem fetchInstr_next {s t u v : State} {iw e1 e2 : Word} {i : Instr} {k : Nat} (hCount : extCount iw = k)
    (h0 : fetch16 s = .next (iw, t)) (h1 : fetchExt (decide (1 ≤ k)) t = .next (e1, u))
    (h2 : fetchExt (decide (2 ≤ k)) u = .next (e2, v)) (h : decode iw e1 e2 = .ok i) : fetchInstr s = .next (i, v) := by
  subst hCount
  simp only [fetchInstr, h0, h1, h2, h, bindOut_next]

/-- Fetching an instruction whose words stand in memory answers it, with `pc` past its words (R32, R81). -/
theorem fetchInstr_encoded {s : State} {i : Instr} (h : i.wf = true) (hEven : isOdd s.pc = false)
    (hWords : WordsStandAtPc s (encode i)) :
    fetchInstr s = .next (i, { s with pc := s.pc + BitVec.ofNat 16 (2 * (encode i).length) }) := by
  have hCount := extCount_word (wf_eq_shape_wf i ▸ h)
  have hDecode := decode_words h
  have hLength := exts_length_le i.shape
  have hExt := fetchExt_stands hEven hWords
  have hWord : fetch16 s = .next (i.shape.word, { s with pc := s.pc + BitVec.ofNat 16 (2 * 1) }) := by
    simpa [fetchExt] using hExt 0 rfl
  rw [encode] at *
  generalize i.shape.exts = es at hCount hDecode hExt hLength
  match es, hLength with
  | [], _ => exact fetchInstr_next hCount hWord (fetchExt_none _) (fetchExt_none _) hDecode
  | [e], _ => exact fetchInstr_next hCount hWord (hExt 1 rfl) (fetchExt_none _) hDecode
  | [e, e'], _ => exact fetchInstr_next hCount hWord (hExt 1 rfl) (hExt 2 rfl) hDecode

/-- What the three words at `pc` begin with stands there. -/
theorem wordsStandAtPc_of_prefix {s : State} {ws rest : List Word}
    (h : [s.wordAt s.pc, s.wordAt (s.pc + 2), s.wordAt (s.pc + 4)] = ws ++ rest)
    (hMem : ∀ k, k < ws.length → wordInMemory s (s.pc + BitVec.ofNat 16 (2 * k)) = true) : WordsStandAtPc s ws := by
  intro k v hv
  obtain ⟨hk, -⟩ := List.getElem?_eq_some_iff.mp hv
  refine ⟨hMem k hk, ?_⟩
  rw [← List.getElem?_append_left (l₂ := rest) hk, ← h] at hv
  match k with
  | 0 => simpa using hv
  | 1 | 2 => exact Option.some.inj hv
  | _ + 3 => cases hv

/-- Settles O6: the words at `pc` that decode are the encoding of what they decode to, so the fetch answers that. -/
theorem stepRunsDecodedInstruction : Obligations.StepRunsDecodedInstruction := by
  intro s i rest hEnv hIrq hEven hDecode hMem
  obtain ⟨hw, hWords⟩ := encodeOfDecode _ i rest hDecode
  have hStand := wordsStandAtPc_of_prefix (s := boundaryPassed (turnTaken s)) hWords hMem
  rw [step_instr hEnv hIrq, instrStep, fetchInstr_encoded (s := boundaryPassed (turnTaken s)) hw hEven hStand]
  rfl

/-! ### The environment -/

/-- Interrupt Enable has the addresses 0xC00E and 0xC00F (R34). -/
theorem isIntEnable_iff {a : Word} : isIntEnable a = true ↔ a = 0xC00E ∨ a = 0xC00F := by
  rw [isIntEnable, beq_iff_eq, ← BitVec.toNat_inj, ← BitVec.toNat_inj]
  simp only [intEnableAddr]
  change a.toNat / 2 = 0xC00E / 2 ↔ a.toNat = 0xC00E ∨ a.toNat = 0xC00F
  omega

theorem environmentWrite_pending (a : Word) (v : Byte) (s : State) : (environmentWrite a v s).pending = s.pending := by
  unfold environmentWrite
  cases memClass s.memMap a <;> rfl

/-- A write changes Interrupt Enable only at its two addresses (R241). -/
theorem environmentWrite_intEnable {a : Word} (v : Byte) (s : State) (h : a ≠ 0xC00E) (h' : a ≠ 0xC00F) :
    (environmentWrite a v s).intEnable = s.intEnable := by
  have hOther : isIntEnable a = false := by rw [← Bool.not_eq_true, isIntEnable_iff]; exact not_or.mpr ⟨h, h'⟩
  unfold environmentWrite
  cases memClass s.memMap a <;> simp [setIntEnable, hOther]

theorem environmentWrite_ram {a : Word} (v : Byte) {s : State} (h : memClass s.memMap a = .ram) :
    environmentWrite a v s = s.setByte a v := by
  rw [environmentWrite, h]

/-- Settles O7: each kind of step in turn. -/
theorem stepOfOneAgent : Obligations.StepOfOneAgent := by
  refine ⟨fun s hEnv => ?_, fun s act hwf hEnv => ?_⟩
  · cases hIrq : irqTaken s with
    | none => exact .inl ⟨rfl, step_instr hEnv hIrq⟩
    | some k => exact .inr ⟨k, step_takes hEnv hIrq, irqTaken_some hIrq⟩
  · obtain ⟨hPc, hBank, hFlags, hShadow, hDev, hDraws, hMap, hTurns⟩ := environment_same act (turnTaken s)
    refine ⟨_, step_env hEnv, hTurns, hPc, hFlags, hBank, hShadow, hDev, hDraws, hMap, ?_⟩
    cases act with
    | request h => exact ⟨rfl, rfl, fun k => mem_insertVector h k s.pending⟩
    | read a => exact ⟨rfl, rfl, rfl⟩
    | write a v =>
      refine ⟨environmentWrite_pending a v _, fun b hb => ?_, fun hRam => ?_, fun hOther => ?_,
        environmentWrite_intEnable v (turnTaken s)⟩
      · exact environment_byteAt (.write a v) (turnTaken s) b fun _ e => absurd (by injection e with e; exact e.symm) hb
      · have hByte : (environmentWrite a v (turnTaken s)).byteAt a = v := by
          rw [environmentWrite_ram v (s := turnTaken s) hRam]
          exact State.byteAt_setByte_same (s := turnTaken s) hwf a v
        exact ⟨hByte, by rw [environment, loadValue_byte (.inl (hMap ▸ hRam)), hByte]⟩
      · exact environment_byteAt (.write a v) (turnTaken s) a fun _ _ => hOther

end Sys2Proof.Machine
end

section
/-! PROOFS. The flags and the STI shadow (10_state.md R28, 44_misc_and_macros.md R210, 60_exceptions.md R225), over every
instruction by its shape. -/

namespace Sys2Proof.Machine

/-! ### The rows of the flag table -/

/-- The operations of ADD, ADDC, SUB, SUBB and CMP leave I; those of AND, TEST, OR and XOR leave C, O and I. -/
theorem flagsKept_dual {op : DualOp} {src dst : Operand} {v d : Word} {s t : State} (hRole : dualRole op ≠ .write)
    (h : t.flags = (dualAlu op v d s.flags).2) : FlagsKept (Shape.dual op src dst).instr s t := by
  cases op with
  | mov => exact absurd rfl hRole
  | add | addc | sub | subb | cmp =>
    change t.flags.i = s.flags.i
    rw [h]; rfl
  | and | test | or | xor =>
    change t.flags.c = s.flags.c ∧ t.flags.o = s.flags.o ∧ t.flags.i = s.flags.i
    rw [h]; exact ⟨rfl, rfl, rfl⟩

/-- The shifts and rotations leave O and I; ADDI and SUBI leave C, O and I. -/
theorem flagsKept_count {op : CountOp} {n : BitVec 3} {dst : Operand} {k : Nat} {d : Word} {s t : State}
    (h : t.flags = (countAlu op k d s.flags).2) : FlagsKept (Shape.count op n dst).instr s t := by
  cases op with
  | shr | shl | ror | rol =>
    change t.flags.o = s.flags.o ∧ t.flags.i = s.flags.i
    rw [h]; exact ⟨rfl, rfl⟩
  | addi | subi =>
    change t.flags.c = s.flags.c ∧ t.flags.o = s.flags.o ∧ t.flags.i = s.flags.i
    rw [h]; exact ⟨rfl, rfl, rfl⟩

/-- NEG leaves I; NOT and CBW leave C, O and I. -/
theorem flagsKept_unary {op : UnaryOp} {dst : Operand} {d : Word} {s t : State}
    (h : t.flags = (unaryAlu op d s.flags).2) : FlagsKept (Shape.unary op dst).instr s t := by
  cases op with
  | neg =>
    change t.flags.i = s.flags.i
    rw [h]; rfl
  | not | cbw =>
    change t.flags.c = s.flags.c ∧ t.flags.o = s.flags.o ∧ t.flags.i = s.flags.i
    rw [h]; exact ⟨rfl, rfl, rfl⟩

/-- STI and CLI write I alone, STC and CLC C alone. -/
theorem flagsKept_misc (op : MiscOp) (s : State) : FlagsKept (Shape.misc op).instr s (miscState op s) := by
  cases op with
  | sti =>
    simp only [miscState]
    split <;> exact ⟨rfl, rfl, rfl, rfl⟩
  | cli | stc | clc => exact ⟨rfl, rfl, rfl, rfl⟩

theorem flagsKept_none {i : Instr} {s t : State} (hGroup : flagGroup i = .none) (h : t.flags = s.flags) :
    FlagsKept i s t := by
  rw [FlagsKept, hGroup]
  exact h

theorem dualRole_write_iff {op : DualOp} : dualRole op = .write ↔ op = .mov := by cases op <;> simp [dualRole]

/-- The second half of a dual operand instruction writes the flags of its row. -/
theorem flagsKept_dualFinish {op : DualOp} {src dst : Operand} {s t : State}
    (h : dualFinish op dst (readValue src s) (afterRead src s) = .next t) :
    FlagsKept (Shape.dual op src dst).instr s t := by
  cases hRole : dualRole op with
  | write =>
    obtain rfl : op = .mov := dualRole_write_iff.mp hRole
    obtain ⟨hDst, rfl⟩ := writeOperand_next_iff.mp h
    exact (afterWrite_flags hDst).trans (by rw [afterRead_flags])
  | modify =>
    rw [dualFinish_modify hRole] at h
    obtain ⟨hDst, rfl⟩ := modifyOperand_next_iff.mp h
    exact flagsKept_dual (by simp [hRole]) ((afterModify_flags hDst).trans (by rw [afterRead_flags]))
  | compare =>
    rw [dualFinish_compare hRole] at h
    obtain ⟨-, rfl⟩ := compareOperand_next_iff.mp h
    exact flagsKept_dual (by simp [hRole]) (by rw [State.withFlags_flags, afterRead_flags, afterRead_flags])

theorem exec_flagsKept {i : Instr} {s t : State} (h : exec i s = .next t) : FlagsKept i s t := by
  rw [← Laws.shape_instr i] at h ⊢
  generalize i.shape = sh at h ⊢
  cases sh with
  | dual op src dst => exact flagsKept_dualFinish (exec_dual_next_iff.mp h).2.2
  | jump cc off =>
    rw [exec_instr] at h
    exact flagsKept_none (by cases cc <;> rfl) (jumpRel_frame h).1.2
  | jumpLong cc op =>
    rw [exec_instr] at h
    exact flagsKept_none (by cases cc <;> rfl) (jumpAbs_frame h).1.2
  | ret cc =>
    rw [exec_instr] at h
    exact flagsKept_none (by cases cc <;> rfl) (returnIf_frame h).1.2
  | call cc op =>
    rw [exec_instr] at h
    exact flagsKept_none (by cases cc <;> rfl) (callIf_frame h).1.2
  | int v => exact flagsKept_none rfl (execInt_frame h).1.2
  | count op n dst =>
    rw [exec_instr] at h
    obtain ⟨hDst, rfl⟩ := modifyOperand_next_iff.mp h
    exact flagsKept_count (afterModify_flags hDst)
  | unary op dst =>
    rw [exec_instr] at h
    obtain ⟨hDst, rfl⟩ := modifyOperand_next_iff.mp h
    exact flagsKept_unary (afterModify_flags hDst)
  | misc op =>
    rw [exec_instr] at h
    cases h
    exact flagsKept_misc op s

/-- Interrupt entry clears I, leaves the other flags and starts no STI shadow (R224). -/
theorem takeInterrupt_next {h : Fin 64} {s t : State} (hEntry : takeInterrupt h s = .next t) :
    t.flags = { s.flags with i := false } ∧ t.stiShadow = s.stiShadow := by
  obtain ⟨u, hu, ht⟩ := bindOut_next_iff.mp hEntry
  obtain ⟨-, -, rfl⟩ := enterHandler_next hu
  cases ht
  exact ⟨rfl, (push_sameControl s.pc s).2.2.2.1⟩

/-- Settles O51: each instruction by its shape. -/
theorem flagsWrittenByInstruction : Obligations.FlagsWrittenByInstruction :=
  ⟨fun _ _ _ h => exec_flagsKept h, fun _ _ _ h => (takeInterrupt_next h).1⟩

/-! ### The instructions of a row -/

theorem flagGroup_eq_i {i : Instr} : flagGroup i = .i ↔ i = .sti ∨ i = .cli := by
  cases i <;> simp [flagGroup]

theorem flagGroup_eq_move {i : Instr} {src dst : Operand} : flagGroup i = .move src dst ↔ i = .mov src dst := by
  cases i <;> simp [flagGroup]

/-- Settles O52: by the flag table, only two of its rows may change I. -/
theorem interruptFlagWriters : Obligations.InterruptFlagWriters := by
  intro i s t h hI
  have hKept := exec_flagsKept h
  unfold FlagsKept at hKept
  cases hGroup : flagGroup i <;> rw [hGroup] at hKept
  case i => exact (flagGroup_eq_i.mp hGroup).elim .inl (.inr ∘ .inl)
  case move src dst =>
    refine .inr (.inr ⟨src, dst, flagGroup_eq_move.mp hGroup, ?_⟩)
    by_contra hTarget
    exact hI (by rw [hKept, if_neg hTarget])
  case none => exact absurd (congrArg Flags.i hKept) hI
  case zcos => exact absurd hKept hI
  case zs => exact absurd hKept.2.2 hI
  case zcs => exact absurd hKept.2 hI
  case c => exact absurd hKept.2.2.2 hI

/-! ### STI and its shadow -/

/-- Settles O56: STI and CLI write I, and no interrupt is taken with I at 0. -/
theorem stiAndCli : Obligations.StiAndCli := by
  intro s
  refine ⟨fun hI => ?_, fun hI => ?_, rfl, fun t h => ?_⟩
  · change Host.Outcome.next (miscState .sti s) = _
    rw [miscState, if_neg (by simp [hI])]; rfl
  · change Host.Outcome.next (miscState .sti s) = _
    rw [miscState, if_pos hI]
  · cases h
    exact ⟨irqTaken_masked rfl, rfl⟩

theorem dualFinish_stiShadow {op : DualOp} {dst : Operand} {v : Word} {s t : State}
    (h : dualFinish op dst v s = .next t) : t.stiShadow = s.stiShadow := by
  cases hRole : dualRole op <;> simp only [dualFinish, hRole] at h
  · obtain ⟨hDst, rfl⟩ := writeOperand_next_iff.mp h
    exact (afterWrite_sameControlBut hDst).2.1
  · obtain ⟨hDst, rfl⟩ := modifyOperand_next_iff.mp h
    exact (afterModify_sameControlBut hDst).2.1
  · obtain ⟨-, rfl⟩ := compareOperand_next_iff.mp h
    exact afterRead_stiShadow dst s

theorem SameControl.stiShadow {s t : State} (h : SameControl s t) : t.stiShadow = s.stiShadow := by
  obtain ⟨-, -, -, hShadow, -⟩ := h
  exact hShadow

/-- Every shape but the miscellaneous one leaves the STI shadow. -/
theorem execShape_stiShadow {sh : Shape} {s t : State} (h : execShape sh s = .next t) :
    (∃ op, sh = .misc op) ∨ t.stiShadow = s.stiShadow := by
  cases sh with
  | dual op src dst =>
    obtain ⟨-, -, hFinish⟩ := withSource_next_iff.mp h
    exact .inr ((dualFinish_stiShadow hFinish).trans (afterRead_stiShadow src s))
  | jump cc off => exact .inr (jumpRel_frame h).1.1.stiShadow
  | jumpLong cc op => exact .inr (jumpAbs_frame h).1.1.stiShadow
  | ret cc => exact .inr (returnIf_frame h).1.1.stiShadow
  | call cc op => exact .inr (callIf_frame h).1.1.stiShadow
  | int v => exact .inr (execInt_frame h).1.1.stiShadow
  | count op n dst | unary op dst =>
    obtain ⟨hDst, rfl⟩ := modifyOperand_next_iff.mp h
    exact .inr (afterModify_sameControlBut hDst).2.1
  | misc op => exact .inl ⟨op, rfl⟩

theorem miscState_stiShadow {op : MiscOp} {s : State} (h : s.stiShadow = false) :
    (miscState op s).stiShadow = true ↔ op = .sti ∧ s.flags.i = false := by
  cases op with
  | sti =>
    simp only [miscState]
    split <;> simp_all
  | cli | stc | clc => simp [miscState, h]

theorem shape_eq_sti {i : Instr} : i.shape = .misc .sti ↔ i = .sti :=
  ⟨fun h => by rw [← Laws.shape_instr i, h]; rfl, fun h => h ▸ rfl⟩

/-- From outside an STI shadow, an instruction enters one exactly if it is an STI that sets I (R210, R225). -/
theorem exec_stiShadow {i : Instr} {s t : State} (hs : s.stiShadow = false) (h : exec i s = .next t) :
    t.stiShadow = true ↔ i = .sti ∧ s.flags.i = false := by
  rw [exec_eq_execShape] at h
  rw [← shape_eq_sti]
  rcases execShape_stiShadow h with ⟨op, hMisc⟩ | hSame
  · rw [hMisc] at h ⊢
    cases h
    rw [miscState_stiShadow hs, Shape.misc.injEq]
  · rw [hSame, hs]
    refine ⟨nofun, fun ⟨hSti, hI⟩ => ?_⟩
    rw [hSti] at h
    cases h
    exact absurd (hSame.trans hs) (by simp [miscState, hI])

/-- A step of the CPU that ends in an STI shadow ran an STI that set I. -/
theorem cpuStep_stiShadow {s t : State} (h : cpuStep s = .next t) (ht : t.stiShadow = true) :
    irqTaken s = none ∧ s.flags.i = false ∧ ∃ p, fetchInstr (boundaryPassed s) = .next p ∧ p.1 = .sti := by
  rcases cpuStep_next_cases h with ⟨hNone, p, hFetch, hExec⟩ | ⟨k, -, hEntry⟩
  · obtain ⟨-, hFlags, hShadow⟩ := fetchInstr_kept hFetch
    obtain ⟨hSti, hI⟩ := (exec_stiShadow hShadow hExec).mp ht
    exact ⟨hNone, by rwa [hFlags] at hI, p, hFetch, hSti⟩
  · cases ((takeInterrupt_next hEntry).2.symm.trans ht)

/-- Settles O57: the environment leaves the shadow, and the CPU's step begins outside one. -/
theorem shadowOnlyAfterSti : Obligations.ShadowOnlyAfterSti := by
  refine ⟨fun i s t hs h => exec_stiShadow hs h, fun s t h => ?_⟩
  rcases step_next_cases h with ⟨act, hAct, rfl⟩ | ⟨hCpu, hStep⟩
  · obtain ⟨-, -, -, hShadow, -⟩ := environment_same act (turnTaken s)
    exact ⟨fun _ => hShadow, fun hNone => by rw [hNone] at hAct; cases hAct⟩
  · exact ⟨fun hEnv => absurd hCpu hEnv, fun _ ht => cpuStep_stiShadow hStep ht⟩

end Sys2Proof.Machine
end
